-- ==== Sys2Proof/Word.lean ====
section
/-! DEFINITION. The register word and the memory byte (spec/10_state.md R16, spec/20_memory.md R33). -/

namespace Sys2Proof

/-- Every register is 32 bits wide (R16). -/
abbrev Word := BitVec 32

/-- One memory byte (R33). -/
abbrev Byte := BitVec 8

end Sys2Proof
end

