-- ==== Sys2Proof/Config.lean ====
section
/-! DEFINITION. What one instance of the engine fixes (the OPEN parameters of spec/00_scope.md R7) as plain data,
and the free values, opaque constants with no body.

State carries one `Config`; no step changes it, so a statement about every state is a statement about every choice of
these parameters (log entry 1). -/

namespace Sys2Proof

/-- The kind of an engine access of one byte (R7, `P_BUS_OK(addr, kind)`). -/
inductive AccessKind
  | read
  | write
  deriving DecidableEq, Repr

/-- A byte interval [base, base + len) (R36). -/
structure Range where
  base : Nat
  len  : Nat
  deriving DecidableEq, Repr

/-- A stretch of addresses for which the platform refuses the engine's accesses of one kind (R38). -/
structure BusHole where
  range : Range
  kind  : AccessKind
  deriving DecidableEq, Repr

/-- The colour of a descriptor (R66). -/
inductive Colour
  | rgb
  | yuv
  | raw
  | undefined
  deriving DecidableEq, Repr

/-- The four Bayer patterns (R103). -/
inductive Pattern
  | rggb
  | bggr
  | grbg
  | gbrg
  deriving DecidableEq, Repr

/-- The extraction routines (R61, handler codes 0 to 10). -/
inductive Handler
  | none
  | rgbCopy3
  | rgbRev3
  | rgbDrop4
  | rgbDrop4Rev
  | rgb2101010
  | luma
  | p422Yuyv
  | p422Uyvy
  | spCbcr
  | raw
  deriving DecidableEq, Repr

/-- PlaneInfo (R66): bytes and pixels per group, horizontal and vertical subsample. -/
structure PlaneInfo where
  bpg : Nat
  ppg : Nat
  hs  : Nat
  vs  : Nat
  deriving DecidableEq, Repr

/-- One catalog entry (R66). -/
structure Descriptor where
  name    : List Byte
  drm     : Option Word
  v4l2    : Option Word
  colour  : Colour
  packed  : Bool
  pgx     : Nat
  pgy     : Nat
  planes  : List PlaneInfo
  isMeta  : Bool
  bits    : Nat
  pattern : Option Pattern
  handler : Handler
  deriving DecidableEq, Repr

/-- The encoding option of the source (R56). -/
inductive Standard
  | bt601
  | bt709
  | bt2020
  deriving DecidableEq, Repr

/-- The range option of the source (R55). -/
inductive VideoRange
  | limited
  | full
  deriving DecidableEq, Repr

/-- The demosaic method option of the source (R57). -/
inductive Method
  | window3x3
  | bilinear
  deriving DecidableEq, Repr

/-- The three colour channels, in the order in which output bytes hold them (R2). -/
inductive Channel
  | b
  | g
  | r
  deriving DecidableEq, Repr

/-- An exact rational coefficient num / den (R114). -/
structure Ratio where
  num : Int
  den : Nat
  deriving DecidableEq, Repr

/-- The three coefficients, of y', u and v, that one output channel is the sum of (a column of R114's matrix). -/
structure Column where
  ky : Ratio
  ku : Ratio
  kv : Ratio
  deriving DecidableEq, Repr

/-- A 3x3 matrix, one column for each output channel (R114). -/
structure Matrix3 where
  b : Column
  g : Column
  r : Column
  deriving DecidableEq, Repr

/-- `P_CSC_COEF` (R7, R113): one matrix for each encoding and range. -/
structure CscCoef where
  bt601Limited  : Matrix3
  bt601Full     : Matrix3
  bt709Limited  : Matrix3
  bt709Full     : Matrix3
  bt2020Limited : Matrix3
  bt2020Full    : Matrix3
  deriving DecidableEq, Repr

/-- `P_CSC_EVAL` (R7, R115, R116): the default exact arithmetic, binary64 in the two orders R116 compares, or any
other total function, named by a number and read from `Config.otherCsc`. -/
inductive CscEval
  | exact
  | binary64ChromaFirst
  | binary64LeftToRight
  | other (n : Nat)
  deriving DecidableEq, Repr

/-- The OPEN parameters of R7.
* `base` is `P_BASE` (D4).
* `catalog` is `P_CATALOG` (R27, R66).
* `cscCoef` and `cscEval` are `P_CSC_COEF` and `P_CSC_EVAL` (R113, R115).
* `busHoles` is `P_BUS_OK`: an access is accepted when no hole of its kind holds its address (R38).
* `readHazards` lists the regions whose reads have side effects (R37).
* `coherent` is `P_HOST_VISIBLE`: host writes are visible to the engine's port with no further act (R41). -/
structure Config where
  base        : Nat
  catalog     : List Descriptor
  cscCoef     : CscCoef
  cscEval     : CscEval
  busHoles    : List BusHole
  readHazards : List Range
  coherent    : Bool
  deriving DecidableEq, Repr

/-- FREE VALUE: an unspecified byte of memory (R38, R43, R140). Applied to the counter `draws` of State. -/
opaque Config.freeByte : Nat → Byte

/-- FREE VALUE: an unspecified register word (R32, R43). Applied to the counter `draws` of State. -/
opaque Config.freeWord : Nat → Word

/-- FREE VALUE: what a result register shows of a number it cannot hold (log entry 13). Applied to what the result
depends on, so that equal inputs give equal results (R5): the catalog, the opcode, the format ID, the plane and the
number of the result register. -/
opaque Config.freeResult : List Descriptor → Nat → Nat → Nat → Nat → Word

/-- FREE VALUE: what NFMT reads for a catalog of 2^32 or more entries (log entry 26). Applied to their number. -/
opaque Config.freeNfmt : Nat → Word

/-- FREE VALUE: an unspecified outcome (R43, whether a raced FIND_NAME finds its name). Applied to `draws`. -/
opaque Config.freeBit : Nat → Bool

/-- What the byte that a handler reads outside the rows R83 defines may depend on: the descriptor, the width, height,
bytes_per_line and address of the source, the bytes of its read range, and the plane, column and row. -/
structure RowKey where
  desc  : Descriptor
  w     : Nat
  h     : Nat
  bpl   : Nat
  addr  : Nat
  bytes : List Byte
  plane : Nat
  col   : Nat
  row   : Nat
  deriving DecidableEq, Repr

/-- FREE VALUE: the byte a handler would read outside the rows R83 defines, which only a parameter catalog whose
geometry does not suit its handler can ask for (log entry 12). Applied to what the extraction depends on, so that equal
inputs give equal outputs (R5). -/
opaque Config.freeRowByte : RowKey → Byte

/-- FREE VALUE: the colorspace arithmetics other than the named ones (R7: `P_CSC_EVAL` is OPEN). Applied to the number
of the arithmetic, the encoding, the range, the output channel and Y, Cb, Cr. -/
opaque Config.otherCsc : Nat → Standard → VideoRange → Channel → Byte → Byte → Byte → Byte

end Sys2Proof
end

