-- ==== Sys2Proof/Syntax.lean ====
section
/-! DEFINITION. The commands of the engine (one constructor for each row of spec/opcode_table.json), the errors a
command ends with, and the operations of the HOST agent (spec/30_encoding.md R63). -/

namespace Sys2Proof

/-- The RNG field (R55); values 2 and 3 are reserved. -/
inductive RngField
  | limited
  | full
  | reserved2
  | reserved3
  deriving DecidableEq, Repr

/-- The ENC field (R56); value 3 is reserved. -/
inductive EncField
  | bt601
  | bt709
  | bt2020
  | reserved3
  deriving DecidableEq, Repr

/-- The DMM field (R57); values 2 and 3 are reserved. -/
inductive DmmField
  | window3x3
  | bilinear
  | reserved2
  | reserved3
  deriving DecidableEq, Repr

/-- A command with the fields of the command word it reads (R52, R53, R60). -/
inductive Instr
  | findName
  | findDrm
  | findV4l2
  | fmtInfo
  | planeInfo (plane : Nat)
  | stride (plane : Nat)
  | planeSize (plane : Nat)
  | frameSize
  | fourccEnc
  | fourccDec
  | convert (rng : RngField) (enc : EncField) (dmm : DmmField)
  | unpack
  | demosaic (dmm : DmmField)
  | csc (rng : RngField) (enc : EncField)
  deriving DecidableEq, Repr

/-- Why a command word is no command (R59). -/
inductive DecodeError
  | reservedOpcode (opc : Nat)
  deriving DecidableEq, Repr

/-- The errors of R128, in its order. -/
inductive CmdError
  | formatNotFound
  | invalidFourcc
  | unsupportedFormat
  | strideTooSmall
  | bufferTooSmall
  | unsupportedBitDepth
  | invalidPlane
  | unsupportedDemosaicMethod
  | invalidArgument
  | illegalCommand
  | busError
  deriving DecidableEq, Repr

/-- The registers of the block (R16). The reserved offsets are 0x0C, 0x1C and, for n = 0 to 43, 0x50 + 4 n (R26); no
other offset of the block has a register access (R51). -/
inductive Reg
  | id
  | version
  | nfmt
  | cmd
  | status
  | errcode
  | arg (n : Fin 8)
  | result (n : Fin 4)
  | reserved0C
  | reserved1C
  | reserved (n : Fin 44)
  deriving DecidableEq, Repr

/-- What a host writes: a number or the host variable `acc` (R63). -/
inductive HostValue
  | lit (v : Word)
  | acc
  deriving DecidableEq, Repr

/-- The operations of a host program (R63), with the bus accesses of R51 in full (`busWrite`, `busRead`), the reset
input (R140) and the platform's act that makes earlier host writes visible to the engine (`clean`, R41). Labels are
numbers. -/
inductive HostOp
  | wr (r : Reg) (v : HostValue)
  | rd (r : Reg)
  | busWrite (addr width : Nat) (v : HostValue)
  | busRead (addr width : Nat)
  | bnz (m : Word) (l : Nat)
  | bz (m : Word) (l : Nat)
  | jmp (l : Nat)
  | label (l : Nat)
  | mw (a : Nat) (bs : List Byte)
  | mr (a n : Nat)
  | clean
  | reset
  | halt
  deriving DecidableEq, Repr

end Sys2Proof
end

