-- ==== Sys2Proof/WellFormed.lean ====
section
/-! DEFINITION. Which instructions a command word can hold: PLANE is a field of four bits (spec/30_encoding.md R54). -/

namespace Sys2Proof

/-- PLANE = C[11:8] holds a plane index 0..15 (R54). -/
def planeFits (plane : Nat) : Bool := decide (plane < 16)

/-- Every field fits its place in the command word (R52). -/
def Instr.wellFormed : Instr → Bool
  | .findName => true
  | .findDrm => true
  | .findV4l2 => true
  | .fmtInfo => true
  | .planeInfo plane => planeFits plane
  | .stride plane => planeFits plane
  | .planeSize plane => planeFits plane
  | .frameSize => true
  | .fourccEnc => true
  | .fourccDec => true
  | .convert _ _ _ => true
  | .unpack => true
  | .demosaic _ => true
  | .csc _ _ => true

end Sys2Proof
end

