-- ==== Sys2Proof/Decode.lean ====
section
/-! DEFINITION. Command words (spec/30_encoding.md R52 to R59, R62, R64): the decoder, total on every word, and the
encoder. -/

namespace Sys2Proof

/-- The field v[hi:lo] of a word (R9). -/
def field (v : Word) (hi lo : Nat) : Nat := (v.toNat >>> lo) % 2 ^ (hi - lo + 1)

/-- RNG = C[13:12] (R55). -/
def rngOfBits : Nat → RngField
  | 0 => .limited
  | 1 => .full
  | 2 => .reserved2
  | _ => .reserved3

/-- ENC = C[15:14] (R56). -/
def encOfBits : Nat → EncField
  | 0 => .bt601
  | 1 => .bt709
  | 2 => .bt2020
  | _ => .reserved3

/-- DMM = C[17:16] (R57). -/
def dmmOfBits : Nat → DmmField
  | 0 => .window3x3
  | 1 => .bilinear
  | 2 => .reserved2
  | _ => .reserved3

def planeField (w : Word) : Nat := field w 11 8
def rngField (w : Word) : RngField := rngOfBits (field w 13 12)
def encField (w : Word) : EncField := encOfBits (field w 15 14)
def dmmField (w : Word) : DmmField := dmmOfBits (field w 17 16)

/-- The opcode map (R53). The command is found from OPC alone (R62), bits a command does not read are ignored (R52,
R58), and every other OPC value is reserved (R59). -/
def decode (w : Word) : Except DecodeError Instr :=
  match field w 7 0 with
  | 0x01 => .ok .findName
  | 0x02 => .ok .findDrm
  | 0x03 => .ok .findV4l2
  | 0x04 => .ok .fmtInfo
  | 0x05 => .ok (.planeInfo (planeField w))
  | 0x08 => .ok (.stride (planeField w))
  | 0x09 => .ok (.planeSize (planeField w))
  | 0x0A => .ok .frameSize
  | 0x0C => .ok .fourccEnc
  | 0x0D => .ok .fourccDec
  | 0x10 => .ok (.convert (rngField w) (encField w) (dmmField w))
  | 0x11 => .ok .unpack
  | 0x12 => .ok (.demosaic (dmmField w))
  | 0x13 => .ok (.csc (rngField w) (encField w))
  | opc => .error (.reservedOpcode opc)

/-- The instruction the decoder reads from a table row's bits: one command word, its bits above `nbits` zero. -/
def decodeTableWord (nbits w : Nat) : Option Instr :=
  match decode (BitVec.ofNat 32 (w % 2 ^ nbits)) with
  | .ok i => some i
  | .error _ => none

/-- OPC of an instruction (R53). -/
def Instr.opcode : Instr → Nat
  | .findName => 0x01
  | .findDrm => 0x02
  | .findV4l2 => 0x03
  | .fmtInfo => 0x04
  | .planeInfo _ => 0x05
  | .stride _ => 0x08
  | .planeSize _ => 0x09
  | .frameSize => 0x0A
  | .fourccEnc => 0x0C
  | .fourccDec => 0x0D
  | .convert _ _ _ => 0x10
  | .unpack => 0x11
  | .demosaic _ => 0x12
  | .csc _ _ => 0x13

/-- The value of an RNG field (R55). -/
def RngField.bits : RngField → Nat
  | .limited => 0
  | .full => 1
  | .reserved2 => 2
  | .reserved3 => 3

/-- The value of an ENC field (R56). -/
def EncField.bits : EncField → Nat
  | .bt601 => 0
  | .bt709 => 1
  | .bt2020 => 2
  | .reserved3 => 3

/-- The value of a DMM field (R57). -/
def DmmField.bits : DmmField → Nat
  | .window3x3 => 0
  | .bilinear => 1
  | .reserved2 => 2
  | .reserved3 => 3

/-- `OPC | plane << 8 | rng << 12 | enc << 14 | dmm << 16` (R64). -/
def commandWord (opc plane rng enc dmm : Nat) : Word :=
  BitVec.ofNat 32 (opc ||| plane <<< 8 ||| rng <<< 12 ||| enc <<< 14 ||| dmm <<< 16)

/-- The word of a well-formed instruction; the fields it does not read are 0 (R63). -/
def encode (i : Instr) : Word :=
  match i with
  | .findName => commandWord i.opcode 0 0 0 0
  | .findDrm => commandWord i.opcode 0 0 0 0
  | .findV4l2 => commandWord i.opcode 0 0 0 0
  | .fmtInfo => commandWord i.opcode 0 0 0 0
  | .planeInfo plane => commandWord i.opcode plane 0 0 0
  | .stride plane => commandWord i.opcode plane 0 0 0
  | .planeSize plane => commandWord i.opcode plane 0 0 0
  | .frameSize => commandWord i.opcode 0 0 0 0
  | .fourccEnc => commandWord i.opcode 0 0 0 0
  | .fourccDec => commandWord i.opcode 0 0 0 0
  | .convert rng enc dmm => commandWord i.opcode 0 rng.bits enc.bits dmm.bits
  | .unpack => commandWord i.opcode 0 0 0 0
  | .demosaic dmm => commandWord i.opcode 0 0 0 dmm.bits
  | .csc rng enc => commandWord i.opcode 0 rng.bits enc.bits 0

/-- The bits of the command word an instruction reads (R52, R60): OPC and its own fields. -/
def Instr.readBits : Instr → Word
  | .findName => 0x000000FF
  | .findDrm => 0x000000FF
  | .findV4l2 => 0x000000FF
  | .fmtInfo => 0x000000FF
  | .planeInfo _ => 0x00000FFF
  | .stride _ => 0x00000FFF
  | .planeSize _ => 0x00000FFF
  | .frameSize => 0x000000FF
  | .fourccEnc => 0x000000FF
  | .fourccDec => 0x000000FF
  | .convert _ _ _ => 0x0003F0FF
  | .unpack => 0x000000FF
  | .demosaic _ => 0x000300FF
  | .csc _ _ => 0x0000F0FF

end Sys2Proof
end

