-- ==== Sys2Proof/Machine/Catalog.lean ====
section
/-! DEFINITION. The default values of the OPEN parameters: the catalog of spec/40_registry.md R67 and the matrices of
spec/44_colorspace.md R114, with the invariants a catalog meets (R66, R81). -/

namespace Sys2Proof.Machine

/-- The ASCII bytes of a name (R66). -/
def ascii (s : String) : List Byte := s.toList.map fun c => BitVec.ofNat 8 c.toNat

/-- Format IDs 0 to 4 of R67. -/
def rgbEntries : List Descriptor :=
  [⟨ascii "BGR888", none, none, .rgb, false, 1, 1, [⟨3, 1, 1, 1⟩], false, 8, none, .rgbCopy3⟩,
   ⟨ascii "RGB888", none, none, .rgb, false, 1, 1, [⟨3, 1, 1, 1⟩], false, 8, none, .rgbRev3⟩,
   ⟨ascii "BGRX8888", none, none, .rgb, false, 1, 1, [⟨4, 1, 1, 1⟩], false, 8, none, .rgbDrop4⟩,
   ⟨ascii "RGBA8888", none, none, .rgb, false, 1, 1, [⟨4, 1, 1, 1⟩], false, 8, none, .rgbDrop4Rev⟩,
   ⟨ascii "XBGR2101010", some 0x30334258, none, .rgb, false, 1, 1, [⟨4, 1, 1, 1⟩], false, 10, none, .rgb2101010⟩]

/-- Format IDs 5 to 11 of R67. -/
def yuvEntries : List Descriptor :=
  [⟨ascii "Y8", none, some 0x59455247, .yuv, false, 1, 1, [⟨1, 1, 1, 1⟩], false, 8, none, .luma⟩,
   ⟨ascii "YUYV", some 0x56595559, some 0x56595559, .yuv, false, 2, 1, [⟨4, 2, 1, 1⟩], false, 8, none, .p422Yuyv⟩,
   ⟨ascii "UYVY", some 0x59565955, some 0x59565955, .yuv, false, 2, 1, [⟨4, 2, 1, 1⟩], false, 8, none, .p422Uyvy⟩,
   ⟨ascii "NV12", some 0x3231564E, some 0x3231564E, .yuv, false, 2, 2, [⟨2, 2, 1, 1⟩, ⟨2, 2, 2, 2⟩], false, 8, none, .spCbcr⟩,
   ⟨ascii "NV16", some 0x3631564E, some 0x3631564E, .yuv, false, 2, 1, [⟨2, 2, 1, 1⟩, ⟨2, 2, 2, 1⟩], false, 8, none, .spCbcr⟩,
   ⟨ascii "YUV420", some 0x32315559, some 0x32315559, .yuv, false, 2, 2, [⟨2, 2, 1, 1⟩, ⟨1, 2, 2, 2⟩, ⟨1, 2, 2, 2⟩], false, 8, none, .none⟩,
   ⟨ascii "YUV444", some 0x34325559, none, .yuv, false, 1, 1, [⟨1, 1, 1, 1⟩, ⟨1, 1, 1, 1⟩, ⟨1, 1, 1, 1⟩], false, 8, none, .none⟩]

/-- Format IDs 12 to 17 of R67. -/
def rggbEntries : List Descriptor :=
  [⟨ascii "SRGGB8", none, some 0x42474752, .raw, false, 1, 1, [⟨1, 1, 1, 1⟩], false, 8, some .rggb, .raw⟩,
   ⟨ascii "SRGGB10", none, some 0x30314752, .raw, false, 1, 1, [⟨2, 1, 1, 1⟩], false, 10, some .rggb, .raw⟩,
   ⟨ascii "SRGGB10P", none, some 0x41415270, .raw, true, 4, 1, [⟨5, 4, 1, 1⟩], false, 10, some .rggb, .raw⟩,
   ⟨ascii "SRGGB12", none, some 0x32314752, .raw, false, 1, 1, [⟨2, 1, 1, 1⟩], false, 12, some .rggb, .raw⟩,
   ⟨ascii "SRGGB12P", none, some 0x43435270, .raw, true, 2, 1, [⟨3, 2, 1, 1⟩], false, 12, some .rggb, .raw⟩,
   ⟨ascii "SRGGB16", none, some 0x36314752, .raw, false, 1, 1, [⟨2, 1, 1, 1⟩], false, 16, some .rggb, .raw⟩]

/-- Format IDs 18 to 23 of R67. -/
def bggrEntries : List Descriptor :=
  [⟨ascii "SBGGR8", none, some 0x31384142, .raw, false, 1, 1, [⟨1, 1, 1, 1⟩], false, 8, some .bggr, .raw⟩,
   ⟨ascii "SBGGR10", none, some 0x30314742, .raw, false, 1, 1, [⟨2, 1, 1, 1⟩], false, 10, some .bggr, .raw⟩,
   ⟨ascii "SBGGR10P", none, some 0x41414270, .raw, true, 4, 1, [⟨5, 4, 1, 1⟩], false, 10, some .bggr, .raw⟩,
   ⟨ascii "SBGGR12", none, some 0x32314742, .raw, false, 1, 1, [⟨2, 1, 1, 1⟩], false, 12, some .bggr, .raw⟩,
   ⟨ascii "SBGGR12P", none, some 0x43434270, .raw, true, 2, 1, [⟨3, 2, 1, 1⟩], false, 12, some .bggr, .raw⟩,
   ⟨ascii "SBGGR16", none, some 0x32525942, .raw, false, 1, 1, [⟨2, 1, 1, 1⟩], false, 16, some .bggr, .raw⟩]

/-- Format IDs 24 to 29 of R67. -/
def grbgEntries : List Descriptor :=
  [⟨ascii "SGRBG8", none, some 0x47425247, .raw, false, 1, 1, [⟨1, 1, 1, 1⟩], false, 8, some .grbg, .raw⟩,
   ⟨ascii "SGRBG10", none, some 0x30314142, .raw, false, 1, 1, [⟨2, 1, 1, 1⟩], false, 10, some .grbg, .raw⟩,
   ⟨ascii "SGRBG10P", none, some 0x41416770, .raw, true, 4, 1, [⟨5, 4, 1, 1⟩], false, 10, some .grbg, .raw⟩,
   ⟨ascii "SGRBG12", none, some 0x32314142, .raw, false, 1, 1, [⟨2, 1, 1, 1⟩], false, 12, some .grbg, .raw⟩,
   ⟨ascii "SGRBG12P", none, some 0x43436770, .raw, true, 2, 1, [⟨3, 2, 1, 1⟩], false, 12, some .grbg, .raw⟩,
   ⟨ascii "SGRBG16", none, some 0x36315247, .raw, false, 1, 1, [⟨2, 1, 1, 1⟩], false, 16, some .grbg, .raw⟩]

/-- Format IDs 30 to 35 of R67. -/
def gbrgEntries : List Descriptor :=
  [⟨ascii "SGBRG8", none, some 0x47524247, .raw, false, 1, 1, [⟨1, 1, 1, 1⟩], false, 8, some .gbrg, .raw⟩,
   ⟨ascii "SGBRG10", none, some 0x30314247, .raw, false, 1, 1, [⟨2, 1, 1, 1⟩], false, 10, some .gbrg, .raw⟩,
   ⟨ascii "SGBRG10P", none, some 0x41414770, .raw, true, 4, 1, [⟨5, 4, 1, 1⟩], false, 10, some .gbrg, .raw⟩,
   ⟨ascii "SGBRG12", none, some 0x32314247, .raw, false, 1, 1, [⟨2, 1, 1, 1⟩], false, 12, some .gbrg, .raw⟩,
   ⟨ascii "SGBRG12P", none, some 0x43434770, .raw, true, 2, 1, [⟨3, 2, 1, 1⟩], false, 12, some .gbrg, .raw⟩,
   ⟨ascii "SGBRG16", none, some 0x36314247, .raw, false, 1, 1, [⟨2, 1, 1, 1⟩], false, 16, some .gbrg, .raw⟩]

/-- Format IDs 36 to 38 of R67. -/
def metaEntries : List Descriptor :=
  [⟨ascii "GENERIC_8", none, some 0x3854454D, .undefined, false, 1, 1, [⟨1, 1, 1, 1⟩], true, 8, none, .none⟩,
   ⟨ascii "GENERIC_CSI2_10", none, some 0x4131434D, .undefined, true, 4, 1, [⟨5, 4, 1, 1⟩], true, 10, none, .none⟩,
   ⟨ascii "GENERIC_CSI2_12", none, some 0x4331434D, .undefined, true, 2, 1, [⟨3, 2, 1, 1⟩], true, 12, none, .none⟩]

/-- The default `P_CATALOG`, in ID order (R67). -/
def defaultCatalog : List Descriptor :=
  rgbEntries ++ yuvEntries ++ rggbEntries ++ bggrEntries ++ grbgEntries ++ gbrgEntries ++ metaEntries

/-- The matrix of R114 from its five coefficients: the R column has no u term and the B column no v term. -/
def matrixOf (ys rv gu gv bu : Ratio) : Matrix3 :=
  { r := ⟨ys, ⟨0, 1⟩, rv⟩, g := ⟨ys, gu, gv⟩, b := ⟨ys, bu, ⟨0, 1⟩⟩ }

/-- The default `P_CSC_COEF` (R114). -/
def defaultCoef : CscCoef where
  bt601Full := matrixOf ⟨1, 1⟩ ⟨701, 500⟩ ⟨-25251, 73375⟩ ⟨-209599, 293500⟩ ⟨443, 250⟩
  bt601Limited :=
    matrixOf ⟨85, 73⟩ ⟨35751, 22400⟩ ⟨-1287801, 3287200⟩ ⟨-10689549, 13148800⟩ ⟨22593, 11200⟩
  bt709Full := matrixOf ⟨1, 1⟩ ⟨3937, 2500⟩ ⟨-1674679, 8940000⟩ ⟨-4185031, 8940000⟩ ⟨4639, 2500⟩
  bt709Limited :=
    matrixOf ⟨85, 73⟩ ⟨200787, 112000⟩ ⟨-28469543, 133504000⟩ ⟨-71145527, 133504000⟩ ⟨236589, 112000⟩
  bt2020Full := matrixOf ⟨1, 1⟩ ⟨7373, 5000⟩ ⟨-5578351, 33900000⟩ ⟨-19368871, 33900000⟩ ⟨9407, 5000⟩
  bt2020Limited :=
    matrixOf ⟨85, 73⟩ ⟨376023, 224000⟩ ⟨-94831967, 506240000⟩ ⟨-329270807, 506240000⟩ ⟨479757, 224000⟩

/-- The parameters State.reset carries: the spec's defaults where it gives one, and for the platform's own parameters a
base of 0, every access accepted, no region with read side effects and a coherent port (log entry 1). -/
def defaultConfig : Config where
  base := 0
  catalog := defaultCatalog
  cscCoef := defaultCoef
  cscEval := .exact
  busHoles := []
  readHazards := []
  coherent := true

/-- The colour a handler belongs to (R81, R122); `none` belongs to none. -/
def family : Handler → Option Colour
  | .none => none
  | .rgbCopy3 => some .rgb
  | .rgbRev3 => some .rgb
  | .rgbDrop4 => some .rgb
  | .rgbDrop4Rev => some .rgb
  | .rgb2101010 => some .rgb
  | .luma => some .yuv
  | .p422Yuyv => some .yuv
  | .p422Uyvy => some .yuv
  | .spCbcr => some .yuv
  | .raw => some .raw

/-- A PlaneInfo's fields are each at least 1 (R66). -/
def planeInfoOk (p : PlaneInfo) : Bool := decide (1 ≤ p.bpg ∧ 1 ≤ p.ppg ∧ 1 ≤ p.hs ∧ 1 ≤ p.vs)

/-- A byte is an ASCII character (R66). -/
def asciiByte (b : Byte) : Bool := decide (b.toNat < 128)

/-- An absent code, or one of four packed ASCII characters (R66). -/
def asciiCode : Option Word → Bool
  | none => true
  | some c => (List.range 4).all fun i => asciiByte (c.extractLsb' (8 * i) 8)

/-- What R66 and R81 ask of one entry. -/
def descriptorOk (d : Descriptor) : Bool :=
  decide (1 ≤ d.name.length ∧ d.name.length ≤ 32 ∧ 1 ≤ d.pgx ∧ 1 ≤ d.pgy)
    && decide (1 ≤ d.planes.length ∧ d.planes.length ≤ 3) && d.planes.all planeInfoOk
    && d.name.all asciiByte && asciiCode d.drm && asciiCode d.v4l2
    && decide (d.drm ≠ some 0 ∧ d.v4l2 ≠ some 0)
    && (decide (d.handler = .none) || decide (family d.handler = some d.colour))
    && (!d.isMeta || decide (d.colour = .undefined ∧ d.planes.length = 1))
    && (decide (d.colour ≠ .raw) || d.pattern.isSome)

/-- No value of a list stands in it twice. -/
def allDistinct {α : Type} [DecidableEq α] : List α → Bool
  | [] => true
  | x :: xs => decide (x ∉ xs) && allDistinct xs

/-- The invariants every `P_CATALOG` meets (R81): names unique, each kind of present code unique, every entry in
order. -/
def catalogOk (c : List Descriptor) : Bool :=
  c.all descriptorOk && allDistinct (c.map (·.name)) && allDistinct (c.filterMap (·.drm))
    && allDistinct (c.filterMap (·.v4l2))

end Sys2Proof.Machine
end

