-- ==== Sys2Proof/Machine/State.lean ====
section
/-! DEFINITION. The state of the machine (spec/10_state.md), its memory, the reasons a step can stop, and the state
after reset. -/

namespace Sys2Proof.Machine

/-- The two phases of ENGINE (R15); STATUS.BUSY is 1 exactly in `busy` and has no storage of its own. -/
inductive Phase
  | idle
  | busy
  deriving DecidableEq, Repr

/-- The memory space (R33) as (address, byte) pairs, addresses strictly rising, no entry equal to what an unlisted
address reads as (`Memory.unlisted`). -/
abbrev Memory := List Host.Cell

/-- A host access to the running command's buffers (R43): the first address and the number of bytes accessed. -/
inductive Race
  | wroteReadRange (a n : Nat)
  | wroteWriteRange (a n : Nat)
  | readWriteRange (a n : Nat)
  deriving DecidableEq, Repr

/-- Why the machine stops with a fault. -/
inductive Fault
  /-- Raised by a host memory access that leaves the 2^32 bytes of the memory space (R33). Safe: the model stops. -/
  | noSuchAddress
  deriving DecidableEq, Repr

/-- Why the model refuses a step. -/
inductive Refusal
  /-- An instruction whose arm has no meaning yet. Safe. -/
  | notModelled (mnemonic : String)
  /-- Raised by a host register access that is not an aligned 32-bit one (R51, X7). Safe. -/
  | registerAccessForm
  /-- Raised by a host register access outside the register block (R31, R51). Safe. -/
  | outsideRegisterBlock
  /-- Raised by an accepted CMD write whose command reads a byte the host wrote and the platform has not made visible
  to the engine's port (R41, X3). Safe. -/
  | hostWriteNotVisible
  /-- Raised by an accepted CMD write whose command has a buffer in a region with read side effects (R37, X8), and by a
  host read of such a region. Safe. -/
  | readSideEffects
  /-- Raised by FMT_INFO of an entry of a parameter catalog whose own pgx, pgy or bits exceed 255 (R71, X14, log entry
  13). Safe. -/
  | catalogFieldTooWide
  /-- Raised by a host program that jumps to a label it does not hold (R63). Safe. -/
  | undefinedLabel
  deriving DecidableEq, Repr

/-- Everything the spec gives the machine, and below the dividing comment what the model itself needs to run both
agents. -/
structure State where
  /-- The OPEN parameters, the catalog ROM among them (R7, R27). No step changes them. -/
  config  : Config
  /-- R15. -/
  phase   : Phase
  /-- CMD (R20). -/
  cmd     : Word
  /-- STATUS.DONE (R22). -/
  done    : Bool
  /-- STATUS.ERR (R22). -/
  err     : Bool
  /-- STATUS.DZC (R22). -/
  dzc     : Bool
  /-- STATUS.CMDLOST (R22). -/
  cmdlost : Bool
  /-- ERRCODE (R23). -/
  errcode : Word
  /-- ARG0..ARG7 (R24). -/
  args    : Vector Word 8
  /-- RESULT0..RESULT3 (R25). -/
  results : Vector Word 4
  /-- The snapshot C (R21). -/
  snapC   : Word
  /-- The snapshot A[0..7] (R21). -/
  snapA   : Vector Word 8
  /-- The memory space (R33). -/
  mem     : Memory
  /-- The host variable `acc` (R63). -/
  acc     : Word
  /-- The host program (R63): the transactions the HOST agent still has to issue are those from `hostPc` on. -/
  hostProg : List HostOp
  hostPc   : Nat
  -- The model's own from here on.
  /-- The bytes the host's latest `mr` returned (R63). -/
  lastRead  : List Byte
  /-- How many more turns the host has before ENGINE completes the running command (R145). -/
  wait      : Nat
  /-- The times the next commands take, an input from the environment (R145); past its end a command takes none. -/
  delays    : List Nat
  /-- The host accesses that raced the running command (R43). -/
  races     : List Race
  /-- Write ranges of completed commands that no STATUS read with BUSY = 0 has yet ordered before host reads (R42). -/
  unordered : List Range
  /-- Host writes the platform has not yet made visible to the engine (R41); empty on a coherent platform. -/
  unseen    : List Range
  /-- The counter of free values. -/
  draws     : Nat
  deriving DecidableEq, Repr

/-- The machine right after reset (R32): every register 0, phase IDLE, memory with nothing listed. -/
def State.reset : State where
  config := defaultConfig
  phase := .idle
  cmd := 0
  done := false
  err := false
  dzc := false
  cmdlost := false
  errcode := 0
  args := Vector.replicate 8 0
  results := Vector.replicate 4 0
  snapC := 0
  snapA := Vector.replicate 8 0
  mem := []
  acc := 0
  hostProg := []
  hostPc := 0
  lastRead := []
  wait := 0
  delays := []
  races := []
  unordered := []
  unseen := []
  draws := 0

end Sys2Proof.Machine
end

