-- ==== Sys2Proof/Machine/Ops.lean ====
section
/-! DEFINITION. The operations the meanings share: exact arithmetic (spec/00_scope.md R10), memory (R11,
spec/20_memory.md), command start and completion (spec/60_exceptions.md R130, R131), and the draws of unspecified
bytes. -/

namespace Sys2Proof.Machine

/-! ### Exact arithmetic -/

/-- 2^32: one past the largest register value and the size of the memory space (R8, R33). -/
def limit32 : Nat := 2 ^ 32

/-- R10. -/
def ceilDiv (a b : Nat) : Nat := (a + b - 1) / b

/-- R10. -/
def roundUp (a m : Nat) : Nat := ceilDiv a m * m

/-- Byte i of a value in little-endian order: v[8i+7 : 8i] (R11, R34). -/
def byteAt (v i : Nat) : Byte := BitVec.ofNat 8 (v >>> (8 * i))

/-! ### Memory -/

/-- What an address that memory does not list reads as (log entry 2). -/
def Memory.unlisted : Byte := 0

/-- Mem8(a) (R11). -/
def Memory.read : Memory → Nat → Byte
  | [], _ => Memory.unlisted
  | (k, v) :: m, a => if k = a then v else Memory.read m a

/-- MemWrite(a, 1, b) (R11), in canonical form. -/
def Memory.write : Memory → Nat → Byte → Memory
  | [], a, b => if b = Memory.unlisted then [] else [(a, b)]
  | (k, v) :: m, a, b =>
    if a < k then (if b = Memory.unlisted then (k, v) :: m else (a, b) :: (k, v) :: m)
    else if a = k then (if b = Memory.unlisted then m else (a, b) :: m)
    else (k, v) :: Memory.write m a b

/-- Writes the n bytes f 0, ..., f (n - 1) at a, a + 1, ... (R36: the write range holds what its rule gives). -/
def Memory.fill (m : Memory) (a : Nat) : Nat → (Nat → Byte) → Memory
  | 0, _ => m
  | n + 1, f => (Memory.fill m a n f).write (a + n) (f n)

/-- MemRead(a, n) (R11): little-endian (R34). -/
def Memory.readLE (m : Memory) (a : Nat) : Nat → Nat
  | 0 => 0
  | n + 1 => Memory.readLE m a n + (m.read (a + n)).toNat <<< (8 * n)

/-- The n bytes at a. -/
def Memory.bytes (m : Memory) (a n : Nat) : List Byte := (List.range n).map fun i => m.read (a + i)

/-- Addresses strictly rise from the given bound on, and no entry holds what an unlisted address reads as. -/
def Memory.wfFrom : Nat → Memory → Bool
  | _, [] => true
  | lo, (k, v) :: m => decide (lo ≤ k) && decide (v ≠ Memory.unlisted) && Memory.wfFrom (k + 1) m

/-- The canonical form. -/
def Memory.wf (m : Memory) : Bool := Memory.wfFrom 0 m

/-- Every listed address lies in the memory space (R33). -/
def Memory.inSpace (m : Memory) : Bool := m.all fun c => decide (c.1 < limit32)

/-! ### Ranges (R36 to R40) -/

/-- The address lies in [base, base + len). -/
def inRange (r : Range) (a : Nat) : Bool := decide (r.base ≤ a ∧ a < r.base + r.len)

/-- Two ranges share a byte (R40); an empty range shares none. -/
def rangesMeet (r q : Range) : Bool :=
  decide (0 < r.len ∧ 0 < q.len ∧ r.base < q.base + q.len ∧ q.base < r.base + r.len)

/-- A range [a, a + n) with a + n > 2^32 (R39). -/
def wraps (a n : Nat) : Bool := decide (limit32 < a + n)

/-- The read range and the write range of a command that has passed its checks (R36). -/
structure Plan where
  rd : Range
  wr : Range
  deriving DecidableEq, Repr

/-- The empty range touches nothing (R36). -/
def emptyRange : Range := ⟨0, 0⟩

/-- The bytes of [a, a + n) that the memory space has (R33). -/
def clipped (a n : Nat) : Range := ⟨a, min n (limit32 - a)⟩

/-- A command that touches no memory (R33). -/
def Plan.none : Plan := ⟨emptyRange, emptyRange⟩

/-- `P_BUS_OK(addr, kind)` (R7, R38). -/
def busOk (c : Config) (a : Nat) (k : AccessKind) : Bool :=
  c.busHoles.all fun h => decide (h.kind ≠ k) || !inRange h.range a

/-- `P_BUS_OK` over a range, by comparing the range with the holes. -/
def rangeOk (c : Config) (r : Range) (k : AccessKind) : Bool :=
  c.busHoles.all fun h => decide (h.kind ≠ k) || !rangesMeet h.range r

/-- `P_BUS_OK` over both ranges of a command (R38). -/
def busOkOver (c : Config) (p : Plan) : Bool := rangeOk c p.rd .read && rangeOk c p.wr .write

/-! ### Races (R43) -/

/-- The race leaves byte a of the write range unspecified: any byte after a host write into the read range, the bytes
written after one into the write range. -/
def Race.spoils (a : Nat) : Race → Bool
  | .wroteReadRange _ _ => true
  | .wroteWriteRange b n => inRange ⟨b, n⟩ a
  | .readWriteRange _ _ => false

/-- The host has written into the running command's read range. -/
def Race.spoilsResults : Race → Bool
  | .wroteReadRange _ _ => true
  | .wroteWriteRange _ _ => false
  | .readWriteRange _ _ => false

def racedAt (s : State) (a : Nat) : Bool := s.races.any (Race.spoils a)

def racedResults (s : State) : Bool := s.races.any Race.spoilsResults

/-! ### Completion (R131) -/

/-- ERRCODE of an error (R128). -/
def errorCode : CmdError → Nat
  | .formatNotFound => 1
  | .invalidFourcc => 2
  | .unsupportedFormat => 3
  | .strideTooSmall => 4
  | .bufferTooSmall => 5
  | .unsupportedBitDepth => 6
  | .invalidPlane => 7
  | .unsupportedDemosaicMethod => 8
  | .invalidArgument => 9
  | .illegalCommand => 10
  | .busError => 11

/-- The four result registers (R25). -/
def resultsOf (r0 r1 r2 r3 : Nat) : Vector Word 4 :=
  #v[BitVec.ofNat 32 r0, BitVec.ofNat 32 r1, BitVec.ofNat 32 r2, BitVec.ofNat 32 r3]

/-- What result register k of the command `opc` shows of a number v of format f and plane p: v, or a free value where
32 bits do not hold it, which only a parameter catalog can ask for (log entry 13). -/
def reported (s : State) (opc f p k v : Nat) : Nat :=
  if v < limit32 then v else (Config.freeResult s.config.catalog opc f p k).toNat

/-- `complete(r0, r1, r2, r3)` (R13, R131); `z` tells whether a demosaic divisor was clamped. -/
def complete (r0 r1 r2 r3 : Nat) (z : Bool) (s : State) : State :=
  { s with
    results := resultsOf r0 r1 r2 r3
    errcode := 0
    err := false
    dzc := s.dzc || z
    done := true
    phase := .idle }

/-- Taking an error: `raise E` (R13, R131). The engine has no trap (R133): the command ends and the engine is IDLE. -/
def raiseError (e : CmdError) (s : State) : State :=
  { s with
    results := resultsOf 0 0 0 0
    errcode := BitVec.ofNat 32 (errorCode e)
    err := true
    done := true
    phase := .idle }

/-! ### The write range -/

/-- The write range takes the bytes its rule gives, but for the bytes a race leaves unspecified (R36, R43). Until a
STATUS read shows BUSY = 0 the host's reads of it are not ordered (R42). -/
def writeOut (r : Range) (out : Nat → Byte) (s : State) : State :=
  { s with
    mem := s.mem.fill r.base r.len fun k =>
      if racedAt s (r.base + k) then Config.freeByte (s.draws + k) else out k
    draws := if s.races = [] then s.draws else s.draws + r.len
    unordered := r :: s.unordered }

/-- Every byte of a range becomes unspecified (R38, R140). -/
def spoil (r : Range) (s : State) : State :=
  { s with
    mem := s.mem.fill r.base r.len fun k => Config.freeByte (s.draws + k)
    draws := s.draws + r.len
    unordered := r :: s.unordered }

/-- The frame every memory command shares: its checks, which give its ranges and what its effect needs to know, then
`P_BUS_OK` over both ranges, then its effect (R38). -/
def runCommand {α : Type} (checks : Except CmdError (Plan × α)) (effect : Plan → α → State → State) (s : State) :
    State :=
  match checks with
  | .error e => raiseError e s
  | .ok (p, info) =>
    if busOkOver s.config p then effect p info s else raiseError .busError (spoil p.wr s)

/-! ### Start (R130) -/

/-- The start of a command by an accepted CMD write (R130). A fresh draw serves each command. -/
def begin (v : Word) (s : State) : State :=
  { s with
    cmd := v
    snapC := v
    snapA := s.args
    done := false
    err := false
    dzc := false
    errcode := 0
    phase := .busy
    races := []
    draws := s.draws + 1 }

end Sys2Proof.Machine
end

