-- ==== Sys2Proof/Machine/Flags.lean ====
section
/-! DEFINITION. The STATUS register (spec/10_state.md R22): its word, its write-1-to-clear bits, and the clamped
divisor that DZC reports (spec/43_demosaic.md R107). -/

namespace Sys2Proof.Machine

/-- A status bit as a number. -/
def bit (b : Bool) : Nat := if b then 1 else 0

/-- STATUS.BUSY (R15, R22). -/
def busyBit (s : State) : Bool := decide (s.phase = .busy)

/-- A read of STATUS: BUSY [0], DONE [1], ERR [2], DZC [3], CMDLOST [4], the rest 0 (R22). -/
def statusWord (s : State) : Word :=
  BitVec.ofNat 32
    (bit (busyBit s) + 2 * bit s.done + 4 * bit s.err + 8 * bit s.dzc + 16 * bit s.cmdlost)

/-- A bit of the word a host writes to STATUS (R22). -/
def writesOne (v : Word) (i : Nat) : Bool := decide (v.toNat >>> i % 2 = 1)

/-- A write of STATUS: writing 1 to a W1C bit clears it, writing 0 leaves it, nothing else changes (R22). -/
def clearStatus (v : Word) (s : State) : State :=
  { s with
    done := s.done && !writesOne v 1
    err := s.err && !writesOne v 2
    dzc := s.dzc && !writesOne v 3
    cmdlost := s.cmdlost && !writesOne v 4 }

/-- A demosaic average: the divisor is clamped to at least 1 (R105 to R107). -/
def clampedDiv (num den : Nat) : Nat := num / max den 1

/-- The divisor was clamped (R107). -/
def clamps (den : Nat) : Bool := decide (den = 0)

end Sys2Proof.Machine
end

