-- ==== Sys2Proof/Machine/Operands.lean ====
section
/-! DEFINITION. The operands a command reads: the snapshot registers and the option fields (spec/30_encoding.md R54 to
R61). -/

namespace Sys2Proof.Machine

/-- A[n] (R12, R21): the snapshot, zero-extended (R61). -/
def operand (s : State) (n : Fin 8) : Nat := s.snapA[n].toNat

/-- The value of RNG, none when reserved (R55). -/
def rngValue : RngField → Option VideoRange
  | .limited => some .limited
  | .full => some .full
  | .reserved2 => none
  | .reserved3 => none

/-- The value of ENC, none when reserved (R56). -/
def encValue : EncField → Option Standard
  | .bt601 => some .bt601
  | .bt709 => some .bt709
  | .bt2020 => some .bt2020
  | .reserved3 => none

/-- The value of DMM, none when reserved (R57). -/
def dmmValue : DmmField → Option Method
  | .window3x3 => some .window3x3
  | .bilinear => some .bilinear
  | .reserved2 => none
  | .reserved3 => none

/-- The Bayer pattern of a pattern code, none above 3 (R61). -/
def patternOf : Nat → Option Pattern
  | 0 => some .rggb
  | 1 => some .bggr
  | 2 => some .grbg
  | 3 => some .gbrg
  | _ => none

/-- The descriptor a format ID names, none when the ID is not valid (R19, R61). -/
def format (s : State) (f : Nat) : Option Descriptor := s.config.catalog[f]?

/-- The number of planes of a descriptor (R66). -/
def nplanes (d : Descriptor) : Nat := d.planes.length

/-- Plane p of a descriptor. The second argument of `getD` is for p ≥ nplanes, which every command checks first. -/
def plane (d : Descriptor) (p : Nat) : PlaneInfo := d.planes.getD p ⟨1, 1, 1, 1⟩

/-- The descriptor named by A[0] and the plane the PLANE field selects, or the error of the first check that fails
(R54: InvalidPlane when p ≥ the format's number of planes). -/
def formatPlane (s : State) (p : Nat) : Except CmdError Descriptor :=
  match format s (operand s 0) with
  | none => .error .formatNotFound
  | some d => if p < nplanes d then .ok d else .error .invalidPlane

/-- The checks that UNPACK, DEMOSAIC and CSC make of their buffers, in order (R101, R111, R118): the declared buffers
do not wrap, the sizes fit 32 bits, the buffers hold them, the ranges do not meet. A[0], A[1] are the source's address
and length, A[2], A[3] the destination's; `ns` and `nd` are the bytes read and written, `info` what the effect needs. -/
def checkBuffers {α : Type} (s : State) (ns nd : Nat) (info : α) : Except CmdError (Plan × α) :=
  if wraps (operand s 0) (operand s 1) || wraps (operand s 2) (operand s 3) then .error .invalidArgument
  else if limit32 ≤ ns ∨ limit32 ≤ nd then .error .invalidArgument
  else if operand s 1 < ns then .error .bufferTooSmall
  else if operand s 3 < nd then .error .bufferTooSmall
  else if rangesMeet ⟨operand s 0, ns⟩ ⟨operand s 2, nd⟩ then .error .invalidArgument
  else .ok (⟨⟨operand s 0, ns⟩, ⟨operand s 2, nd⟩⟩, info)

end Sys2Proof.Machine
end

