-- ==== Sys2Proof/Machine/Demosaic.lean ====
section
/-! DEFINITION. The demosaic engine (spec/43_demosaic.md R103 to R111). A grid is a function of (x, y). -/

namespace Sys2Proof.Machine

/-- The four sites of a tile (R103). -/
inductive Site
  | r
  | g0
  | g1
  | b
  deriving DecidableEq, Repr

/-- The tile cell (x_parity, y_parity) of a site (R103). -/
def cell : Pattern → Site → Nat × Nat
  | .rggb, .r => (0, 0)
  | .rggb, .g0 => (1, 0)
  | .rggb, .g1 => (0, 1)
  | .rggb, .b => (1, 1)
  | .bggr, .r => (1, 1)
  | .bggr, .g0 => (1, 0)
  | .bggr, .g1 => (0, 1)
  | .bggr, .b => (0, 0)
  | .grbg, .r => (1, 0)
  | .grbg, .g0 => (0, 0)
  | .grbg, .g1 => (1, 1)
  | .grbg, .b => (0, 1)
  | .gbrg, .r => (0, 1)
  | .gbrg, .g0 => (0, 0)
  | .gbrg, .g1 => (1, 1)
  | .gbrg, .b => (1, 0)

/-- The role of pixel (x, y): the site whose cell is (x mod 2, y mod 2) (R104). -/
def role (p : Pattern) (x y : Nat) : Site :=
  if cell p .r = (x % 2, y % 2) then .r
  else if cell p .g0 = (x % 2, y % 2) then .g0
  else if cell p .g1 = (x % 2, y % 2) then .g1
  else .b

/-- The channel of a site (R104). -/
def siteChannel : Site → Channel
  | .r => .r
  | .g0 => .g
  | .g1 => .g
  | .b => .b

/-- The channel whose sample pixel (x, y) holds. -/
def channelAt (p : Pattern) (x y : Nat) : Channel := siteChannel (role p x y)

/-- The coverage plane of channel c (R104). -/
def coverage (p : Pattern) (c : Channel) (x y : Nat) : Nat := if channelAt p x y = c then 1 else 0

/-- Coordinate n moved by d, when it stays in 0 .. bound - 1. -/
def moved (n : Nat) (d : Int) (bound : Nat) : Option Nat :=
  if 0 ≤ (n : Int) + d ∧ (n : Int) + d < bound then some ((n : Int) + d).toNat else none

/-- The pixel at offset o of (x, y), when it lies in the w x h grid. -/
def neighbour (w h x y : Nat) (o : Int × Int) : Option (Nat × Nat) :=
  match moved x o.1 w, moved y o.2 h with
  | some i, some j => some (i, j)
  | _, _ => none

/-- The pixels at the offsets `os` of (x, y) that lie in the w x h grid (R105, R106). -/
def neighbours (w h x y : Nat) (os : List (Int × Int)) : List (Nat × Nat) := os.filterMap (neighbour w h x y)

/-- The 3x3 window, the centre included (R105). -/
def windowOffsets : List (Int × Int) :=
  [(-1, -1), (0, -1), (1, -1), (-1, 0), (0, 0), (1, 0), (-1, 1), (0, 1), (1, 1)]

def window (w h x y : Nat) : List (Nat × Nat) := neighbours w h x y windowOffsets

/-- The cell parity (cx, cy) of the site of channel R or B (R106). -/
def siteOf : Channel → Site
  | .r => .r
  | .g => .g0
  | .b => .b

/-- The neighbour set N of R106 for channel c at a pixel whose own channel is not c. -/
def bilinearOffsets (p : Pattern) (c : Channel) (x y : Nat) : List (Int × Int) :=
  if c = .g then [(0, -1), (0, 1), (-1, 0), (1, 0)]
  else if channelAt p x y ≠ .g then [(-1, -1), (1, -1), (-1, 1), (1, 1)]
  else if (cell p (siteOf c)).2 = y % 2 then [(-1, 0), (1, 0)]
  else [(0, -1), (0, 1)]

/-- The pixels whose samples the bilinear method averages: the pixel itself where it holds channel c, else the
in-bounds members of N (R106). -/
def bilinearCells (p : Pattern) (w h : Nat) (c : Channel) (x y : Nat) : List (Nat × Nat) :=
  if channelAt p x y = c then [(x, y)] else neighbours w h x y (bilinearOffsets p c x y)

/-- The sum that is divided: `num` of R105, sum(V) of R106. -/
def demosaicNum (m : Method) (p : Pattern) (S : Nat → Nat → Nat) (w h : Nat) (c : Channel) (x y : Nat) : Nat :=
  match m with
  | .window3x3 => ((window w h x y).map fun q => coverage p c q.1 q.2 * S q.1 q.2).sum
  | .bilinear => ((bilinearCells p w h c x y).map fun q => S q.1 q.2).sum

/-- The divisor before it is clamped: `den` of R105, length(V) of R106. -/
def demosaicDen (m : Method) (p : Pattern) (w h : Nat) (c : Channel) (x y : Nat) : Nat :=
  match m with
  | .window3x3 => ((window w h x y).map fun q => coverage p c q.1 q.2).sum
  | .bilinear => (bilinearCells p w h c x y).length

/-- O_c(x, y) (R105, R106). -/
def demosaicAt (m : Method) (p : Pattern) (S : Nat → Nat → Nat) (w h : Nat) (c : Channel) (x y : Nat) : Nat :=
  clampedDiv (demosaicNum m p S w h c x y) (demosaicDen m p w h c x y)

/-- R107 clamped a divisor for some pixel and channel of the w x h grid. -/
def demosaicClamped (m : Method) (p : Pattern) (w h : Nat) : Bool :=
  (List.range (w * h)).any fun i =>
    [Channel.b, Channel.g, Channel.r].any fun c => clamps (demosaicDen m p w h c (i % w) (i / w))

/-- The channel of output byte position j of a pixel: B, G, R (R2, D46). -/
def channelOf : Nat → Channel
  | 0 => .b
  | 1 => .g
  | _ => .r

/-- The checks of DEMOSAIC (R111). -/
def checkDemosaic (dmm : DmmField) (s : State) : Except CmdError (Plan × Method × Pattern) :=
  match dmmValue dmm with
  | none => .error .unsupportedDemosaicMethod
  | some m =>
    match patternOf (operand s 6) with
    | none => .error .invalidArgument
    | some p => checkBuffers s (2 * operand s 4 * operand s 5) (6 * operand s 4 * operand s 5) (m, p)

/-- Sample (x, y) of DEMOSAIC's source (R111). -/
def demosaicSample (s : State) (x y : Nat) : Nat :=
  s.mem.readLE (operand s 0 + 2 * (y * operand s 4 + x)) 2

/-- Byte k of DEMOSAIC's output: pixels of three 16-bit little-endian values B, G, R, row-major (R111, R14). -/
def demosaicByte (m : Method) (p : Pattern) (s : State) (k : Nat) : Byte :=
  byteAt
    (demosaicAt m p (demosaicSample s) (operand s 4) (operand s 5) (channelOf (k % 6 / 2)) (k / 6 % operand s 4)
      (k / 6 / operand s 4))
    (k % 2)

/-- DEMOSAIC (R111). -/
def execDemosaic (dmm : DmmField) (s : State) : Host.Outcome State Fault Refusal :=
  .next (runCommand (checkDemosaic dmm s)
    (fun pl mp s =>
      complete pl.wr.len 0 0 0 (demosaicClamped mp.1 mp.2 (operand s 4) (operand s 5))
        (writeOut pl.wr (demosaicByte mp.1 mp.2 s) s))
    s)

end Sys2Proof.Machine
end

