-- ==== Sys2Proof/Machine/Csc.lean ====
section
/-! DEFINITION. The colorspace converter (spec/44_colorspace.md R112 to R118): the transform, the luma-only path and
CSC. -/

namespace Sys2Proof.Machine

/-- floor(clip(n / d, 0, 255)) for d > 0 (R115, R117). -/
def clipFloor (n : Int) (d : Nat) : Nat :=
  if n < 0 then 0 else if 255 * (d : Int) < n then 255 else (n / d).toNat

/-- The matrix of an encoding and range (R113). -/
def matrixFor (c : CscCoef) : Standard → VideoRange → Matrix3
  | .bt601, .limited => c.bt601Limited
  | .bt601, .full => c.bt601Full
  | .bt709, .limited => c.bt709Limited
  | .bt709, .full => c.bt709Full
  | .bt2020, .limited => c.bt2020Limited
  | .bt2020, .full => c.bt2020Full

/-- The column of an output channel. -/
def columnFor (m : Matrix3) : Channel → Column
  | .b => m.b
  | .g => m.g
  | .r => m.r

/-- The luma offset oy (R112). -/
def lumaOffset : VideoRange → Int
  | .limited => 16
  | .full => 0

/-- A ratio times an integer. -/
def scaleRatio (k : Ratio) (v : Int) : Ratio := ⟨k.num * v, k.den⟩

/-- The sum of two ratios. -/
def addRatio (a b : Ratio) : Ratio := ⟨a.num * b.den + b.num * a.den, a.den * b.den⟩

/-- The exact sum of R113 for one channel, at y' = yo, u, v. -/
def exactSum (k : Column) (yo u v : Int) : Ratio :=
  addRatio (addRatio (scaleRatio k.ky yo) (scaleRatio k.ku u)) (scaleRatio k.kv v)

/-- n / d to the nearest integer, ties to even. -/
def roundHalfEven (n d : Nat) : Nat :=
  if 2 * (n % d) < d then n / d else if d < 2 * (n % d) then n / d + 1 else n / d + n / d % 2

/-- a / d rounded to 53 significant bits with quantum 2^e, as a ratio. -/
def roundAt (a d : Nat) (e : Int) : Ratio :=
  if 0 ≤ e then ⟨(roundHalfEven a (d * 2 ^ e.toNat) * 2 ^ e.toNat : Nat), 1⟩
  else ⟨(roundHalfEven (a * 2 ^ (-e).toNat) d : Nat), 2 ^ (-e).toNat⟩

/-- The exponent of the quantum of a / d: 2^52 ≤ a / (d 2^e) < 2^53. -/
def quantumExp (a d : Nat) : Int :=
  let e : Int := (Nat.log2 a : Int) - (Nat.log2 d : Int) - 52
  if 0 ≤ e then (if a < d * 2 ^ 52 * 2 ^ e.toNat then e - 1 else e)
  else (if a * 2 ^ (-e).toNat < d * 2 ^ 52 then e - 1 else e)

/-- The nearest binary64 value, ties to even (R116). The exponent range is taken as unbounded (log entry 14). -/
def toBinary64 (q : Ratio) : Ratio :=
  if q.num = 0 then ⟨0, 1⟩
  else
    let r := roundAt q.num.natAbs q.den (quantumExp q.num.natAbs q.den)
    if q.num < 0 then ⟨-r.num, r.den⟩ else r

/-- A binary64 coefficient times an integer, rounded (R116: no fused multiply-add). -/
def mul64 (k : Ratio) (v : Int) : Ratio := toBinary64 (scaleRatio (toBinary64 k) v)

/-- A binary64 sum, rounded. -/
def add64 (a b : Ratio) : Ratio := toBinary64 (addRatio a b)

/-- The value of one channel before the clip, or the byte itself for an arithmetic the spec does not name. -/
def cscChannel (c : Config) (e : Standard) (r : VideoRange) (ch : Channel) (y cb cr : Byte) : Nat :=
  let k := columnFor (matrixFor c.cscCoef e r) ch
  let yo : Int := (y.toNat : Int) - lumaOffset r
  let u : Int := (cb.toNat : Int) - 128
  let v : Int := (cr.toNat : Int) - 128
  match c.cscEval with
  | .exact =>
    let q := exactSum k yo u v
    clipFloor q.num q.den
  | .binary64ChromaFirst =>
    let q := add64 (mul64 k.ky yo) (add64 (mul64 k.ku u) (mul64 k.kv v))
    clipFloor q.num q.den
  | .binary64LeftToRight =>
    let q := add64 (add64 (mul64 k.ky yo) (mul64 k.ku u)) (mul64 k.kv v)
    clipFloor q.num q.den
  | .other n => (Config.otherCsc n e r ch y cb cr).toNat

/-- L of the luma-only path (R117). -/
def lumaOnly (r : VideoRange) (y : Byte) : Nat :=
  match r with
  | .limited => clipFloor (((y.toNat : Int) - 16) * 255) 219
  | .full => y.toNat

/-- The checks of CSC (R118). -/
def checkCsc (rng : RngField) (enc : EncField) (s : State) : Except CmdError (Plan × VideoRange × Standard) :=
  match rngValue rng, encValue enc with
  | some r, some e => checkBuffers s (3 * operand s 4) (3 * operand s 4) (r, e)
  | _, _ => .error .invalidArgument

/-- Byte k of CSC's output: triples B, G, R (R118). -/
def cscByte (r : VideoRange) (e : Standard) (s : State) (k : Nat) : Byte :=
  BitVec.ofNat 8
    (cscChannel s.config e r (channelOf (k % 3)) (s.mem.read (operand s 0 + 3 * (k / 3)))
      (s.mem.read (operand s 0 + 3 * (k / 3) + 1)) (s.mem.read (operand s 0 + 3 * (k / 3) + 2)))

/-- CSC (R118). -/
def execCsc (rng : RngField) (enc : EncField) (s : State) : Host.Outcome State Fault Refusal :=
  .next (runCommand (checkCsc rng enc s)
    (fun p re s => complete p.wr.len 0 0 0 false (writeOut p.wr (cscByte re.1 re.2 s) s)) s)

end Sys2Proof.Machine
end

