-- ==== Sys2Proof/Machine/Geometry.lean ====
section
/-! DEFINITION. Geometry (spec/40_registry.md R73 to R76): the functions on exact integers and STRIDE, PLANE_SIZE,
FRAME_SIZE. -/

namespace Sys2Proof.Machine

/-- `stride(d, w, p, align)` (R73). -/
def strideOf (d : Descriptor) (w p align : Nat) : Nat :=
  roundUp (ceilDiv w (plane d p).ppg * (plane d p).bpg) align

/-- `plane_size(d, s, h, p)` (R73). -/
def planeSizeOf (d : Descriptor) (st h p : Nat) : Nat := st * ceilDiv h (plane d p).vs

/-- `frame_size(d, w, h, align)` (R73): the sum over all planes. -/
def frameSizeOf (d : Descriptor) (w h align : Nat) : Nat :=
  ((List.range (nplanes d)).map fun p => planeSizeOf d (strideOf d w p align) h p).sum

/-- `natural_stride(d, w, p)` (R73). -/
def naturalStride (d : Descriptor) (w p : Nat) : Nat := strideOf d w p 1

/-- A size is the result when it fits 32 bits, else InvalidArgument (R74 to R76, R39). -/
def completeSize (z : Nat) (s : State) : State :=
  if limit32 ≤ z then raiseError .invalidArgument s else complete z 0 0 0 false s

/-- STRIDE (R74). -/
def execStride (p : Nat) (s : State) : Host.Outcome State Fault Refusal :=
  match formatPlane s p with
  | .error e => .next (raiseError e s)
  | .ok d =>
    if operand s 2 = 0 then .next (raiseError .invalidArgument s)
    else .next (completeSize (strideOf d (operand s 1) p (operand s 2)) s)

/-- PLANE_SIZE (R75). -/
def execPlaneSize (p : Nat) (s : State) : Host.Outcome State Fault Refusal :=
  match formatPlane s p with
  | .error e => .next (raiseError e s)
  | .ok d => .next (completeSize (planeSizeOf d (operand s 1) (operand s 2) p) s)

/-- FRAME_SIZE (R76). -/
def execFrameSize (s : State) : Host.Outcome State Fault Refusal :=
  match format s (operand s 0) with
  | none => .next (raiseError .formatNotFound s)
  | some d =>
    if operand s 3 = 0 then .next (raiseError .invalidArgument s)
    else .next (completeSize (frameSizeOf d (operand s 1) (operand s 2) (operand s 3)) s)

end Sys2Proof.Machine
end

