-- ==== Sys2Proof/Machine/Unpack.lean ====
section
/-! DEFINITION. The bit unpacker (spec/42_unpack.md R96 to R101): the row function and UNPACK. -/

namespace Sys2Proof.Machine

/-- The depths the unpacker accepts (R97). -/
inductive Depth
  | d8
  | d10
  | d12
  | d16
  deriving DecidableEq, Repr

/-- The depth of a number of bits (R61, R101). -/
def depthOf : Nat → Option Depth
  | 8 => some .d8
  | 10 => some .d10
  | 12 => some .d12
  | 16 => some .d16
  | _ => none

/-- `rowbytes(depth, w)` (R97). -/
def rowBytes (depth : Depth) (w : Nat) : Nat :=
  match depth with
  | .d8 => w
  | .d10 => ceilDiv w 4 * 5
  | .d12 => ceilDiv w 2 * 3
  | .d16 => 2 * w

/-- Sample x of `Unpack(depth, b, w)` (R97): depth 8 and 16 by R100, 10 by R98, 12 by R99. `b` gives the row's bytes. -/
def unpackSample (depth : Depth) (b : Nat → Nat) (x : Nat) : Nat :=
  match depth with
  | .d8 => b x
  | .d10 => b (5 * (x / 4) + x % 4) <<< 2 ||| (b (5 * (x / 4) + 4) >>> (2 * (3 - x % 4))) &&& 3
  | .d12 =>
    if x % 2 = 0 then b (3 * (x / 2)) <<< 4 ||| b (3 * (x / 2) + 2) >>> 4
    else b (3 * (x / 2) + 1) <<< 4 ||| b (3 * (x / 2) + 2) &&& 0xF
  | .d16 => b (2 * x) ||| b (2 * x + 1) <<< 8

/-- The row stride of UNPACK: A[6], or the natural row length when A[6] is 0 (R101). -/
def unpackStride (depth : Depth) (s : State) : Nat :=
  if operand s 6 = 0 then rowBytes depth (operand s 4) else operand s 6

/-- The size st * h of UNPACK's read range (R101); 0 where the stride is the natural row length of a depth that is none
(log entry 8). -/
def unpackReads (s : State) : Nat :=
  match depthOf (operand s 7) with
  | some depth => unpackStride depth s * operand s 5
  | none => operand s 6 * operand s 5

/-- The checks of UNPACK (R101). -/
def checkUnpack (s : State) : Except CmdError (Plan × Depth) :=
  match depthOf (operand s 7) with
  | none => .error .unsupportedBitDepth
  | some depth =>
    if unpackStride depth s < rowBytes depth (operand s 4) then .error .strideTooSmall
    else checkBuffers s (unpackStride depth s * operand s 5) (2 * operand s 4 * operand s 5) depth

/-- Sample (x, y) of UNPACK's source (R101). -/
def unpackedAt (depth : Depth) (s : State) (x y : Nat) : Nat :=
  unpackSample depth (fun i => (s.mem.read (operand s 0 + y * unpackStride depth s + i)).toNat) x

/-- Byte k of UNPACK's output: w x h 16-bit little-endian samples, row-major (R101, R14). -/
def unpackByte (depth : Depth) (s : State) (k : Nat) : Byte :=
  byteAt (unpackedAt depth s (k / 2 % operand s 4) (k / 2 / operand s 4)) (k % 2)

/-- UNPACK (R101). -/
def execUnpack (s : State) : Host.Outcome State Fault Refusal :=
  .next (runCommand (checkUnpack s)
    (fun p depth s => complete p.wr.len 0 0 0 false (writeOut p.wr (unpackByte depth s) s)) s)

end Sys2Proof.Machine
end

