-- ==== Sys2Proof/Machine/Convert.lean ====
section
/-! DEFINITION. CONVERT (spec/45_convert.md R120 to R126) with the sample extractor it runs (spec/41_extract.md R82 to
R95). -/

namespace Sys2Proof.Machine

/-! ### The source frame (R82, R83) -/

/-- The source of a conversion: the descriptor, the width and height, bytes_per_line, the source address. -/
structure Source where
  desc : Descriptor
  w    : Nat
  h    : Nat
  bpl  : Nat
  addr : Nat
  deriving DecidableEq, Repr

/-- stride_p (R82). -/
def planeStride (f : Source) (p : Nat) : Nat := if f.bpl = 0 then naturalStride f.desc f.w p else f.bpl

/-- rows_p (R82). -/
def planeRows (f : Source) (p : Nat) : Nat := f.h / (plane f.desc p).vs

/-- base_p (R82): planes are contiguous, in plane order. -/
def planeBase (f : Source) : Nat → Nat
  | 0 => f.addr
  | p + 1 => planeBase f p + planeStride f p * planeRows f p

/-- ns of R121. -/
def convertReads (f : Source) : Nat :=
  if f.bpl = 0 then frameSizeOf f.desc f.w f.h 1 else f.bpl * (f.h / (plane f.desc 0).vs)

/-- Bp(i, r) lies in the rows R83 defines. -/
def rowHolds (f : Source) (p i r : Nat) : Bool :=
  decide (p < nplanes f.desc ∧ i < naturalStride f.desc f.w p ∧ r < planeRows f p)

/-- Bp(i, r) (R83); outside the rows R83 defines, a free value (log entry 12). -/
def rowByte (s : State) (f : Source) (p i r : Nat) : Byte :=
  if rowHolds f p i r then s.mem.read (planeBase f p + r * planeStride f p + i)
  else Config.freeRowByte
    { desc := f.desc, w := f.w, h := f.h, bpl := f.bpl, addr := f.addr, bytes := s.mem.bytes f.addr (convertReads f),
      plane := p, col := i, row := r }

/-! ### RGB handlers (R85 to R89) -/

/-- The layouts of the RGB handlers. -/
inductive RgbLayout
  | copy3
  | rev3
  | drop4
  | drop4Rev
  | x2101010
  deriving DecidableEq, Repr

/-- The 32-bit word of pixel x of a row (R89). -/
def rgbWord (b : Nat → Nat) (x : Nat) : Nat :=
  b (4 * x) ||| b (4 * x + 1) <<< 8 ||| b (4 * x + 2) <<< 16 ||| b (4 * x + 3) <<< 24

/-- A 10-bit field of the word, truncated to its high 8 bits (R89). -/
def tenBitField (word lo : Nat) : Nat := (word >>> lo % 2 ^ 10) >>> 2

/-- Channel c of pixel x of a row whose byte i is `b i` (R85 to R89). -/
def rgbSample (l : RgbLayout) (b : Nat → Nat) (x : Nat) (c : Channel) : Nat :=
  match l, c with
  | .copy3, .b => b (3 * x)
  | .copy3, .g => b (3 * x + 1)
  | .copy3, .r => b (3 * x + 2)
  | .rev3, .r => b (3 * x)
  | .rev3, .g => b (3 * x + 1)
  | .rev3, .b => b (3 * x + 2)
  | .drop4, .b => b (4 * x)
  | .drop4, .g => b (4 * x + 1)
  | .drop4, .r => b (4 * x + 2)
  | .drop4Rev, .r => b (4 * x)
  | .drop4Rev, .g => b (4 * x + 1)
  | .drop4Rev, .b => b (4 * x + 2)
  | .x2101010, .r => tenBitField (rgbWord b x) 0
  | .x2101010, .g => tenBitField (rgbWord b x) 10
  | .x2101010, .b => tenBitField (rgbWord b x) 20

/-! ### YUV handlers (R90 to R93) -/

/-- The layouts of the YUV handlers that give a (Y, Cb, Cr) triple. -/
inductive YuvLayout
  | yuyv
  | uyvy
  | semiPlanar
  deriving DecidableEq, Repr

/-- Y, Cb and Cr of pixel (x, y) (R91 to R93). -/
def yuvSample (l : YuvLayout) (s : State) (f : Source) (x y : Nat) : Byte × Byte × Byte :=
  match l with
  | .yuyv =>
    (rowByte s f 0 (4 * (x / 2) + 2 * (x % 2)) y, rowByte s f 0 (4 * (x / 2) + 1) y,
      rowByte s f 0 (4 * (x / 2) + 3) y)
  | .uyvy =>
    (rowByte s f 0 (4 * (x / 2) + 1 + 2 * (x % 2)) y, rowByte s f 0 (4 * (x / 2)) y,
      rowByte s f 0 (4 * (x / 2) + 2) y)
  | .semiPlanar =>
    (rowByte s f 0 x y, rowByte s f 1 (2 * (x / (plane f.desc 1).hs)) (y / (plane f.desc 1).vs),
      rowByte s f 1 (2 * (x / (plane f.desc 1).hs) + 1) (y / (plane f.desc 1).vs))

/-! ### RAW handler (R95) -/

/-- `raw_depth(d)` (R95), none where R122's `raw_ok` asks for another geometry. -/
def rawDepth (d : Descriptor) : Option Depth :=
  if d.packed then
    if d.bits = 10 ∧ (plane d 0).bpg = 5 ∧ (plane d 0).ppg = 4 then some .d10
    else if d.bits = 12 ∧ (plane d 0).bpg = 3 ∧ (plane d 0).ppg = 2 then some .d12
    else none
  else if (plane d 0).bpg = (plane d 0).ppg then some .d8
  else if (plane d 0).bpg = 2 * (plane d 0).ppg then some .d16
  else none

/-- The depth and pattern of a RAW descriptor the pipeline can read, none when `raw_ok(d)` fails (R122). -/
def rawSource (d : Descriptor) : Option (Depth × Pattern) :=
  if depthOf d.bits = none ∨ nplanes d ≠ 1 then none
  else
    match rawDepth d, d.pattern with
    | some depth, some p => some (depth, p)
    | _, _ => none

/-- S(x, y) (R95). -/
def rawSample (depth : Depth) (s : State) (f : Source) (x y : Nat) : Nat :=
  unpackSample depth (fun i => (rowByte s f 0 i y).toNat) x

/-! ### The dispatcher (R121 to R126) -/

/-- The pipeline a conversion takes, with the options it reads (R123 to R125). -/
inductive Pipeline
  | rgb (l : RgbLayout)
  | luma (r : VideoRange)
  | yuv (l : YuvLayout) (r : VideoRange) (e : Standard)
  | raw (depth : Depth) (p : Pattern) (m : Method)
  deriving DecidableEq, Repr

/-- The option checks of the YUV path (R122). -/
def yuvPipeline (l : YuvLayout) (rng : RngField) (enc : EncField) : Except CmdError Pipeline :=
  match rngValue rng, encValue enc with
  | some r, some e => .ok (.yuv l r e)
  | _, _ => .error .invalidArgument

/-- The path checks of R122: the colour and handler, then the options the path reads. -/
def pipelineOf (d : Descriptor) (rng : RngField) (enc : EncField) (dmm : DmmField) : Except CmdError Pipeline :=
  if d.colour = .undefined ∨ family d.handler ≠ some d.colour then .error .unsupportedFormat
  else
    match d.handler with
    | .none => .error .unsupportedFormat
    | .rgbCopy3 => .ok (.rgb .copy3)
    | .rgbRev3 => .ok (.rgb .rev3)
    | .rgbDrop4 => .ok (.rgb .drop4)
    | .rgbDrop4Rev => .ok (.rgb .drop4Rev)
    | .rgb2101010 => .ok (.rgb .x2101010)
    | .luma =>
      match rngValue rng with
      | some r => .ok (.luma r)
      | none => .error .invalidArgument
    | .p422Yuyv => yuvPipeline .yuyv rng enc
    | .p422Uyvy => yuvPipeline .uyvy rng enc
    | .spCbcr => yuvPipeline .semiPlanar rng enc
    | .raw =>
      match rawSource d with
      | none => .error .unsupportedBitDepth
      | some (depth, p) =>
        match dmmValue dmm with
        | some m => .ok (.raw depth p m)
        | none => .error .unsupportedDemosaicMethod

/-- The source a CONVERT's operands describe (R120). -/
def convertSource (d : Descriptor) (s : State) : Source := ⟨d, operand s 5, operand s 6, operand s 7, operand s 0⟩

/-- nd of R121. -/
def convertWrites (f : Source) : Nat := 3 * f.w * f.h

/-- The checks of CONVERT, in R122's order. -/
def checkConvert (rng : RngField) (enc : EncField) (dmm : DmmField) (s : State) :
    Except CmdError (Plan × Source × Pipeline) :=
  match format s (operand s 4) with
  | none => .error .formatNotFound
  | some d =>
    let f := convertSource d s
    if 1 < nplanes d ∧ f.bpl ≠ 0 then .error .unsupportedFormat
    else if f.bpl ≠ 0 ∧ f.bpl < naturalStride d f.w 0 then .error .strideTooSmall
    else if d.planes.any (fun p => decide (f.h % p.vs ≠ 0)) then .error .invalidArgument
    else
      match checkBuffers s (convertReads f) (convertWrites f) f with
      | .error e => .error e
      | .ok (p, f) =>
        match pipelineOf d rng enc dmm with
        | .error e => .error e
        | .ok pipe => .ok (p, f, pipe)

/-- (B8, G8, R8) of pixel (x, y), one channel at a time (R123 to R125). -/
def convertSample (s : State) (f : Source) (pipe : Pipeline) (c : Channel) (x y : Nat) : Nat :=
  match pipe with
  | .rgb l => rgbSample l (fun i => (rowByte s f 0 i y).toNat) x c
  | .luma r => lumaOnly r (rowByte s f 0 x y)
  | .yuv l r e =>
    let t := yuvSample l s f x y
    cscChannel s.config e r c t.1 t.2.1 t.2.2
  | .raw depth p m => demosaicAt m p (rawSample depth s f) f.w f.h c x y >>> (f.desc.bits - 8) % 256

/-- Byte k of CONVERT's output: triples B, G, R, row-major (R126). -/
def convertByte (s : State) (f : Source) (pipe : Pipeline) (k : Nat) : Byte :=
  BitVec.ofNat 8 (convertSample s f pipe (channelOf (k % 3)) (k / 3 % f.w) (k / 3 / f.w))

/-- A RAW conversion clamped a demosaic divisor (R125, R107). -/
def convertClamped (f : Source) : Pipeline → Bool
  | .rgb _ => false
  | .luma _ => false
  | .yuv _ _ _ => false
  | .raw _ p m => demosaicClamped m p f.w f.h

/-- CONVERT (R122). -/
def execConvert (rng : RngField) (enc : EncField) (dmm : DmmField) (s : State) : Host.Outcome State Fault Refusal :=
  .next (runCommand (checkConvert rng enc dmm s)
    (fun p fp s =>
      complete p.wr.len 0 0 0 (convertClamped fp.1 fp.2) (writeOut p.wr (convertByte s fp.1 fp.2) s))
    s)

end Sys2Proof.Machine
end

