-- ==== Sys2Proof/Machine/Fourcc.lean ====
section
/-! DEFINITION. The fourcc codec (spec/40_registry.md R78 to R80): FOURCC_ENC and FOURCC_DEC. -/

namespace Sys2Proof.Machine

/-- The checks of FOURCC_ENC (R79). -/
def checkFourccEnc (s : State) : Except CmdError (Plan × Unit) :=
  if operand s 1 ≠ 4 then .error .invalidFourcc
  else if wraps (operand s 0) 4 then .error .invalidArgument
  else .ok (⟨⟨operand s 0, 4⟩, emptyRange⟩, ())

/-- FOURCC_ENC (R79): b0 | b1 << 8 | b2 << 16 | b3 << 24 (R78). After a host write into its read range the result is
unspecified (R43). -/
def execFourccEnc (s : State) : Host.Outcome State Fault Refusal :=
  .next (runCommand (checkFourccEnc s)
    (fun p _ s =>
      if racedResults s then complete (Config.freeWord s.draws).toNat 0 0 0 false s
      else complete (s.mem.readLE p.rd.base 4) 0 0 0 false s)
    s)

/-- The checks of FOURCC_DEC (R80). -/
def checkFourccDec (s : State) : Except CmdError (Plan × Unit) :=
  if wraps (operand s 1) 4 then .error .invalidArgument
  else .ok (⟨emptyRange, ⟨operand s 1, 4⟩⟩, ())

/-- FOURCC_DEC (R80): byte i of the code goes to A[1] + i (R78). -/
def execFourccDec (s : State) : Host.Outcome State Fault Refusal :=
  .next (runCommand (checkFourccDec s)
    (fun p _ s => complete 4 0 0 0 false (writeOut p.wr (byteAt (operand s 0)) s)) s)

end Sys2Proof.Machine
end

