-- ==== Sys2Proof/Machine/Registry.lean ====
section
/-! DEFINITION. The lookup and read-out commands (spec/40_registry.md R68 to R72): FIND_NAME, FIND_DRM, FIND_V4L2,
FMT_INFO, PLANE_INFO. -/

namespace Sys2Proof.Machine

/-- The first format ID whose descriptor passes the test of the command `opc`, or FormatNotFound (R68 to R70). -/
def findFormat (opc : Nat) (test : Descriptor → Bool) (s : State) : State :=
  match s.config.catalog.findIdx? test with
  | some f => complete (reported s opc f 0 0 f) 0 0 0 false s
  | none => raiseError .formatNotFound s

/-- The checks of FIND_NAME (R68); MAX_NAME is 32 (R7). -/
def checkFindName (s : State) : Except CmdError (Plan × Unit) :=
  if operand s 1 = 0 ∨ 32 < operand s 1 then .error .formatNotFound
  else if wraps (operand s 0) (operand s 1) then .error .invalidArgument
  else .ok (⟨⟨operand s 0, operand s 1⟩, emptyRange⟩, ())

/-- The outcome of FIND_NAME after a host write into its read range (R43): it finds some format ID or none, and neither
which nor whether is specified. -/
def findNameRaced (s : State) : State :=
  if Config.freeBit s.draws then complete (Config.freeWord s.draws).toNat 0 0 0 false s
  else raiseError .formatNotFound s

/-- FIND_NAME (R68). -/
def execFindName (s : State) : Host.Outcome State Fault Refusal :=
  .next (runCommand (checkFindName s)
    (fun p _ s =>
      if racedResults s then findNameRaced s
      else findFormat 0x01 (fun d => decide (d.name = s.mem.bytes p.rd.base p.rd.len)) s)
    s)

/-- FIND_DRM (R69). An absent code matches nothing. -/
def execFindDrm (s : State) : Host.Outcome State Fault Refusal :=
  .next (findFormat 0x02 (fun d => decide (d.drm = some s.snapA[0])) s)

/-- FIND_V4L2 (R70). -/
def execFindV4l2 (s : State) : Host.Outcome State Fault Refusal :=
  .next (findFormat 0x03 (fun d => decide (d.v4l2 = some s.snapA[0])) s)

/-- Colour codes (R61). -/
def colourCode : Colour → Nat
  | .rgb => 0
  | .yuv => 1
  | .raw => 2
  | .undefined => 3

/-- Pattern codes, 15 for none (R61). -/
def patternCode : Option Pattern → Nat
  | some .rggb => 0
  | some .bggr => 1
  | some .grbg => 2
  | some .gbrg => 3
  | none => 15

/-- Handler codes (R61). -/
def handlerCode : Handler → Nat
  | .none => 0
  | .rgbCopy3 => 1
  | .rgbRev3 => 2
  | .rgbDrop4 => 3
  | .rgbDrop4Rev => 4
  | .rgb2101010 => 5
  | .luma => 6
  | .p422Yuyv => 7
  | .p422Uyvy => 8
  | .spCbcr => 9
  | .raw => 10

/-- A present code, 0 when absent (R61, R71). -/
def codeOrZero : Option Word → Nat
  | some c => c.toNat
  | none => 0

/-- The nplanes field of the info word (R71): four bits, so a free value for more planes than 15, which R66 excludes
(log entry 13). -/
def planesField (s : State) (d : Descriptor) : Nat :=
  if nplanes d ≤ 15 then nplanes d else (Config.freeResult s.config.catalog 0x04 (operand s 0) 0 0).toNat % 16

/-- The info word r0 of FMT_INFO (R71). -/
def infoWord (s : State) (d : Descriptor) : Nat :=
  colourCode d.colour ||| bit d.packed <<< 2 ||| bit d.isMeta <<< 3 ||| planesField s d <<< 4 ||| d.pgx <<< 8
    ||| d.pgy <<< 16 ||| d.bits <<< 24

/-- The extra word r3 of FMT_INFO (R71). -/
def extraWord (d : Descriptor) : Nat := patternCode d.pattern ||| handlerCode d.handler <<< 8

/-- The descriptor can be reported: its pgx, pgy and bits do not exceed 255; no default entry's do (R71, X14). -/
def infoFits (d : Descriptor) : Bool := decide (d.pgx ≤ 255 ∧ d.pgy ≤ 255 ∧ d.bits ≤ 255)

/-- FMT_INFO (R71). X14 refuses a parameter catalog whose pgx, pgy or bits cannot be reported; whether that includes
FMT_INFO of another entry of such a catalog, one that itself fits, the spec does not say, and here only an entry that
does not fit is refused (log entry 13). -/
def execFmtInfo (s : State) : Host.Outcome State Fault Refusal :=
  match format s (operand s 0) with
  | none => .next (raiseError .formatNotFound s)
  | some d =>
    if infoFits d then
      .next (complete (infoWord s d) (codeOrZero d.drm) (codeOrZero d.v4l2) (extraWord d) false s)
    else .refused .catalogFieldTooWide

/-- PLANE_INFO (R72). A field that does not fit its result register is a free value there (log entry 13). -/
def execPlaneInfo (p : Nat) (s : State) : Host.Outcome State Fault Refusal :=
  match formatPlane s p with
  | .error e => .next (raiseError e s)
  | .ok d =>
    let shown := reported s 0x05 (operand s 0) p
    .next (complete (shown 0 (plane d p).bpg) (shown 1 (plane d p).ppg) (shown 2 (plane d p).hs)
      (shown 3 (plane d p).vs) false s)

end Sys2Proof.Machine
end

