-- ==== Sys2Proof/Machine/HostPort.lean ====
section
/-! DEFINITION. The HOST agent: the register block (spec/10_state.md R16 to R26), command start (R130), the host's
memory accesses with their races and ordering (spec/20_memory.md R41 to R43), the reset input (R140), and the host
notation (spec/30_encoding.md R63, R64). -/

namespace Sys2Proof.Machine

/-! ### The running command's ranges -/

/-- The ranges a command with operands A accesses, or the error of the first check that fails (R36); a command that
touches no memory has empty ranges (R33). -/
def planOf (i : Instr) (s : State) : Except CmdError Plan :=
  match i with
  | .findName => (checkFindName s).map Prod.fst
  | .findDrm => .ok Plan.none
  | .findV4l2 => .ok Plan.none
  | .fmtInfo => .ok Plan.none
  | .planeInfo _ => .ok Plan.none
  | .stride _ => .ok Plan.none
  | .planeSize _ => .ok Plan.none
  | .frameSize => .ok Plan.none
  | .fourccEnc => (checkFourccEnc s).map Prod.fst
  | .fourccDec => (checkFourccDec s).map Prod.fst
  | .convert rng enc dmm => (checkConvert rng enc dmm s).map Prod.fst
  | .unpack => (checkUnpack s).map Prod.fst
  | .demosaic dmm => (checkDemosaic dmm s).map Prod.fst
  | .csc rng enc => (checkCsc rng enc s).map Prod.fst

/-- The bytes CONVERT reads; none where its format ID names no descriptor (R121, log entry 8). -/
def convertReadsOf (s : State) : Nat :=
  match format s (operand s 4) with
  | some d => convertReads (convertSource d s)
  | none => 0

/-- The ranges a command's rule gives it, whether or not its checks will pass (R36, R68, R79, R80, R101, R111, R118,
R121), as far as the memory space goes. -/
def rangesOf (i : Instr) (s : State) : Plan :=
  match i with
  | .findName =>
    if 1 ≤ operand s 1 ∧ operand s 1 ≤ 32 then ⟨clipped (operand s 0) (operand s 1), emptyRange⟩ else Plan.none
  | .findDrm => Plan.none
  | .findV4l2 => Plan.none
  | .fmtInfo => Plan.none
  | .planeInfo _ => Plan.none
  | .stride _ => Plan.none
  | .planeSize _ => Plan.none
  | .frameSize => Plan.none
  | .fourccEnc => if operand s 1 = 4 then ⟨clipped (operand s 0) 4, emptyRange⟩ else Plan.none
  | .fourccDec => ⟨emptyRange, clipped (operand s 1) 4⟩
  | .convert _ _ _ =>
    ⟨clipped (operand s 0) (convertReadsOf s), clipped (operand s 2) (3 * operand s 5 * operand s 6)⟩
  | .unpack => ⟨clipped (operand s 0) (unpackReads s), clipped (operand s 2) (2 * operand s 4 * operand s 5)⟩
  | .demosaic _ =>
    ⟨clipped (operand s 0) (2 * operand s 4 * operand s 5), clipped (operand s 2) (6 * operand s 4 * operand s 5)⟩
  | .csc _ _ => ⟨clipped (operand s 0) (3 * operand s 4), clipped (operand s 2) (3 * operand s 4)⟩

/-- The ranges of the running command, empty when ENGINE is IDLE and for a reserved word (R59). -/
def runningPlan (s : State) : Plan :=
  match s.phase, decode s.snapC with
  | .busy, .ok i => rangesOf i s
  | .busy, .error _ => Plan.none
  | .idle, _ => Plan.none

/-- The ranges ENGINE accesses for the snapshot's command: none for a reserved word (R59) and for a command whose checks
end it before any memory access (R133). -/
def accessPlan (s : State) : Plan :=
  match decode s.snapC with
  | .error _ => Plan.none
  | .ok i =>
    match planOf i s with
    | .error _ => Plan.none
    | .ok p => p

/-! ### Registers (R16 to R26) -/

/-- The offset of a register (R16). -/
def regOffset : Reg → Nat
  | .id => 0x00
  | .version => 0x04
  | .nfmt => 0x08
  | .cmd => 0x10
  | .status => 0x14
  | .errcode => 0x18
  | .arg n => 0x20 + 4 * n.val
  | .result n => 0x40 + 4 * n.val
  | .reserved0C => 0x0C
  | .reserved1C => 0x1C
  | .reserved n => 0x50 + 4 * n.val

/-- The register at an aligned offset of the block (R16). -/
def regAt (o : Nat) : Reg :=
  if o = 0x00 then .id
  else if o = 0x04 then .version
  else if o = 0x08 then .nfmt
  else if o = 0x0C then .reserved0C
  else if o = 0x10 then .cmd
  else if o = 0x14 then .status
  else if o = 0x18 then .errcode
  else if o = 0x1C then .reserved1C
  else if o < 0x40 then .arg (Fin.ofNat 8 ((o - 0x20) / 4))
  else if o < 0x50 then .result (Fin.ofNat 4 ((o - 0x40) / 4))
  else .reserved (Fin.ofNat 44 ((o - 0x50) / 4))

/-- ID: "P", "I", "X", "U" packed as a fourcc (R17). -/
def idWord : Word := 0x55584950

/-- VERSION (R18). -/
def versionWord : Word := 1

/-- NFMT (R19): the number of catalog entries. What it reads for 2^32 entries or more the spec does not say: a free
value (log entry 26). -/
def nfmtWord (s : State) : Word :=
  if s.config.catalog.length < limit32 then BitVec.ofNat 32 s.config.catalog.length
  else Config.freeNfmt s.config.catalog.length

/-- What a read of a register returns (R17 to R26). -/
def regValue (s : State) : Reg → Word
  | .id => idWord
  | .version => versionWord
  | .nfmt => nfmtWord s
  | .cmd => s.cmd
  | .status => statusWord s
  | .errcode => s.errcode
  | .arg n => s.args[n]
  | .result n => s.results[n]
  | .reserved0C => 0
  | .reserved1C => 0
  | .reserved _ => 0

/-- A host register read: the value goes to `acc` (R63). A STATUS read that shows BUSY = 0 orders the engine's writes
before the host reads that follow (R42). -/
def readReg (r : Reg) (s : State) : State :=
  if r = .status ∧ s.phase = .idle then { s with acc := regValue s r, unordered := [] }
  else { s with acc := regValue s r }

/-- The command accesses a buffer in a region whose reads have side effects (R37, X8). -/
def touchesHazard (s : State) : Bool :=
  s.config.readHazards.any fun r => rangesMeet r (accessPlan s).rd || rangesMeet r (accessPlan s).wr

/-- The command reads a byte the host wrote and the platform has not made visible (R41). -/
def readsUnseen (s : State) : Bool := s.unseen.any fun r => rangesMeet r (accessPlan s).rd

/-- The host duty of R37 or R41 that the command breaks. One that ends with an error accesses no memory (R38, R133) and
breaks none. -/
def dutyViolation (s : State) : Option Refusal :=
  if !busOkOver s.config (accessPlan s) then none
  else if readsUnseen s then some .hostWriteNotVisible
  else if touchesHazard s then some .readSideEffects
  else none

/-- The time the next command takes comes from `delays` (R145). -/
def takeDelay (s : State) : State := { s with wait := s.delays.headD 0, delays := s.delays.tail }

/-- An accepted CMD write (R20, R130), refused when the run breaks a host duty. -/
def acceptCmd (v : Word) (s : State) : Host.Outcome State Fault Refusal :=
  let t := takeDelay (begin v s)
  match dutyViolation t with
  | some r => .refused r
  | none => .next t

/-- A CMD write while BUSY is dropped (R20). -/
def dropCmd (s : State) : State := { s with cmdlost := true }

/-- A host register write (R20, R22, R24, R26). -/
def writeReg (r : Reg) (v : Word) (s : State) : Host.Outcome State Fault Refusal :=
  match r with
  | .id => .next s
  | .version => .next s
  | .nfmt => .next s
  | .cmd => if s.phase = .busy then .next (dropCmd s) else acceptCmd v s
  | .status => .next (clearStatus v s)
  | .errcode => .next s
  | .arg n => .next { s with args := s.args.set n v }
  | .result _ => .next s
  | .reserved0C => .next s
  | .reserved1C => .next s
  | .reserved _ => .next s

/-- The form of a bus access (R51): 32 bits wide, in the block at `P_BASE`, at an offset that is a multiple of 4. -/
def busReg (c : Config) (addr width : Nat) : Except Refusal Reg :=
  if addr < c.base ∨ c.base + 0x100 ≤ addr then .error .outsideRegisterBlock
  else if width = 32 ∧ (addr - c.base) % 4 = 0 then .ok (regAt (addr - c.base))
  else .error .registerAccessForm

/-! ### The host's memory accesses (R33, R41 to R43) -/

/-- The races of a host write of n bytes at a (R43). -/
def writeRaces (s : State) (a n : Nat) : List Race :=
  (if rangesMeet ⟨a, n⟩ (runningPlan s).rd then [.wroteReadRange a n] else [])
    ++ (if rangesMeet ⟨a, n⟩ (runningPlan s).wr then [.wroteWriteRange a n] else [])

/-- `mw` (R63). On a platform that is not coherent the bytes stay unseen by the engine until a `clean` (R41). -/
def hostWrite (a : Nat) (bs : List Byte) (s : State) : Host.Outcome State Fault Refusal :=
  if wraps a bs.length then .fault .noSuchAddress
  else
    .next { s with
      mem := s.mem.fill a bs.length fun i => bs.getD i 0
      races := writeRaces s a bs.length ++ s.races
      unseen := if s.config.coherent then s.unseen else ⟨a, bs.length⟩ :: s.unseen }

/-- A host read of this byte returns an unspecified value: it races the running command (R43), or no STATUS read has
ordered a completed command's write before it (R42). -/
def unsettled (s : State) (a : Nat) : Bool :=
  inRange (runningPlan s).wr a || s.unordered.any fun r => inRange r a

/-- The races of a host read of n bytes at a (R43). -/
def readRaces (s : State) (a n : Nat) : List Race :=
  if rangesMeet ⟨a, n⟩ (runningPlan s).wr then [.readWriteRange a n] else []

/-- `mr` (R63). What a read with side effects does is a device's, which the spec does not give (log entry 10). -/
def hostRead (a n : Nat) (s : State) : Host.Outcome State Fault Refusal :=
  if wraps a n then .fault .noSuchAddress
  else if s.config.readHazards.any (fun r => rangesMeet r ⟨a, n⟩) then .refused .readSideEffects
  else
    .next { s with
      lastRead := (List.range n).map fun i =>
        if unsettled s (a + i) then Config.freeByte (s.draws + i) else s.mem.read (a + i)
      draws := if (List.range n).any (fun i => unsettled s (a + i)) then s.draws + n else s.draws
      races := readRaces s a n ++ s.races }

/-! ### Reset (R32, R140) -/

/-- The reset input. A command BUSY at reset is abandoned and its write range becomes unspecified; the snapshot is
unspecified (X9). The host, the platform and the rest of memory are not reset. -/
def engineReset (s : State) : State :=
  let t := if s.phase = .busy then spoil (runningPlan s).wr s else s
  { t with
    phase := .idle
    cmd := 0
    done := false
    err := false
    dzc := false
    cmdlost := false
    errcode := 0
    args := Vector.replicate 8 0
    results := Vector.replicate 4 0
    snapC := Config.freeWord t.draws
    snapA := Vector.ofFn fun n => Config.freeWord (t.draws + 1 + n.val)
    wait := 0
    races := []
    draws := t.draws + 9 }

/-! ### The host's turn (R63) -/

/-- The value a host writes (R63). -/
def hostValue (s : State) : HostValue → Word
  | .lit v => v
  | .acc => s.acc

/-- The place of a label in a host program (R63). -/
def labelPlace (prog : List HostOp) (l : Nat) : Option Nat :=
  prog.findIdx? fun o => decide (o = .label l)

/-- `go to label L` (R63). -/
def jump (l : Nat) (s : State) : Host.Outcome State Fault Refusal :=
  match labelPlace s.hostProg l with
  | some k => .next { s with hostPc := k }
  | none => .refused .undefinedLabel

/-- The host goes on to its next operation. -/
def advance (s : State) : State := { s with hostPc := s.hostPc + 1 }

/-- One operation of the host (R63), `hostPc` already past it. -/
def hostOp (o : HostOp) (s : State) : Host.Outcome State Fault Refusal :=
  match o with
  | .wr r v => writeReg r (hostValue s v) s
  | .rd r => .next (readReg r s)
  | .busWrite addr width v =>
    match busReg s.config addr width with
    | .ok r => writeReg r (hostValue s v) s
    | .error e => .refused e
  | .busRead addr width =>
    match busReg s.config addr width with
    | .ok r => .next (readReg r s)
    | .error e => .refused e
  | .bnz m l => if s.acc &&& m ≠ 0 then jump l s else .next s
  | .bz m l => if s.acc &&& m = 0 then jump l s else .next s
  | .jmp l => jump l s
  | .label _ => .next s
  | .mw a bs => hostWrite a bs s
  | .mr a n => hostRead a n s
  | .clean => .next { s with unseen := [] }
  | .reset => .next (engineReset s)
  | .halt => .next { s with hostPc := s.hostProg.length }

/-- The host's next operation; after the end of its program the host does nothing more. -/
def hostTurn (s : State) : Host.Outcome State Fault Refusal :=
  match s.hostProg[s.hostPc]? with
  | none => .next s
  | some o => hostOp o (advance s)

/-! ### Host notation (R63, R64) -/

/-- `cmd MNEM [f=v ...]` (R63). Whether it may give a field that MNEM does not read R63 does not say; here it gives the
fields of the instruction and 0 for every other (log entry 29). `wr CMD, v` writes any word. -/
def hostCmd (i : Instr) : HostOp := .wr .cmd (.lit (encode i))

/-- `wait`, with a fresh label (R64). -/
def hostWait (l : Nat) : List HostOp := [.label l, .rd .status, .bnz 0x1 l]

/-- The operand writes of `run` (R64). There are eight ARG registers; what R64 means by more operands it does not say,
and the model writes the first eight (log entry 27). Nor does it say whether an operand may be `acc`; here operands are
numbers (log entry 28). -/
def hostArgs (as : List Word) : List HostOp :=
  (as.take 8).mapIdx fun k v => .wr (.arg (Fin.ofNat 8 k)) (.lit v)

/-- `run MNEM a0, a1, ..., ak [f=v ...]`, with a fresh label (R64). -/
def hostRun (l : Nat) (i : Instr) (as : List Word) : List HostOp := hostArgs as ++ [hostCmd i] ++ hostWait l

/-- `clrst` (R64). -/
def hostClrst : HostOp := .wr .status (.lit 0x1E)

/-- `chk` (R64). -/
def hostChk : HostOp := .rd .errcode

end Sys2Proof.Machine
end

