-- ==== Sys2Proof/Machine/Dispatch.lean ====
section
/-! DEFINITION. One arm for each command (spec/30_encoding.md R53). -/

namespace Sys2Proof.Machine

def exec (i : Instr) (s : State) : Host.Outcome State Fault Refusal :=
  match i with
  | .findName => Sys2Proof.Machine.execFindName s
  | .findDrm => Sys2Proof.Machine.execFindDrm s
  | .findV4l2 => Sys2Proof.Machine.execFindV4l2 s
  | .fmtInfo => Sys2Proof.Machine.execFmtInfo s
  | .planeInfo p => Sys2Proof.Machine.execPlaneInfo p s
  | .stride p => Sys2Proof.Machine.execStride p s
  | .planeSize p => Sys2Proof.Machine.execPlaneSize p s
  | .frameSize => Sys2Proof.Machine.execFrameSize s
  | .fourccEnc => Sys2Proof.Machine.execFourccEnc s
  | .fourccDec => Sys2Proof.Machine.execFourccDec s
  | .convert rng enc dmm => Sys2Proof.Machine.execConvert rng enc dmm s
  | .unpack => Sys2Proof.Machine.execUnpack s
  | .demosaic dmm => Sys2Proof.Machine.execDemosaic dmm s
  | .csc rng enc => Sys2Proof.Machine.execCsc rng enc s

end Sys2Proof.Machine
end

