-- ==== Sys2Proof/Machine/Engine.lean ====
section
/-! DEFINITION. The turns of the two agents (spec/10_state.md R15): ENGINE runs the command its snapshot holds when its
time has come, and until then, or while ENGINE is IDLE, the HOST takes its turn. -/

namespace Sys2Proof.Machine

/-- ENGINE runs the command of the snapshot C to its completion (R21, R131); a reserved OPC ends at once with
IllegalCommand (R59). -/
def engineTurn (s : State) : Host.Outcome State Fault Refusal :=
  match decode s.snapC with
  | .ok i => exec i s
  | .error _ => .next (raiseError .illegalCommand s)

/-- One turn. While BUSY the host has `wait` turns and then ENGINE completes (R132, R145). -/
def turn (s : State) : Host.Outcome State Fault Refusal :=
  match s.phase, s.wait with
  | .busy, 0 => engineTurn s
  | .busy, n + 1 => hostTurn { s with wait := n }
  | .idle, _ => hostTurn s

/-- ENGINE has just accepted the command word `w` (R130) and completes it in its next turn. -/
def fetched (w : Word) (s : State) : State := { begin w s with wait := 0 }

end Sys2Proof.Machine
end

