-- ==== Sys2Proof/Machine/Step.lean ====
section
/-! DEFINITION. One step of the machine, and the state in which the next step runs a given command word. -/

namespace Sys2Proof.Machine

/-- One step: the turn of the agent whose turn it is (spec/10_state.md R15). -/
def step (s : State) : Host.Outcome State Fault Refusal := turn s

/-- The state in which ENGINE has just accepted the command word `w` and runs it in the very next step. A word comes to
the engine only so, by a CMD write (R28, R130). -/
def State.withFetchWord (s : State) (nbits w : Nat) : State := fetched (BitVec.ofNat 32 (w % 2 ^ nbits)) s

end Sys2Proof.Machine
end

