-- ==== Sys2Proof/Safety.lean ====
section
/-! DEFINITION. The terms claims are made in: what a completion leaves unchanged, how a command ends, what a run that
keeps the host's duties looks like, and the invariant every step keeps. -/

namespace Sys2Proof.Machine

/-- What ENGINE leaves unchanged when it runs a command to its completion (spec/10_state.md R15, R20, R21, R24,
spec/60_exceptions.md R129, R131): the parameters, CMD, ARG0..ARG7, the snapshot, STATUS.CMDLOST, the host, and the
model's own bookkeeping of turns, races and visibility. -/
structure EngineFrame (s t : State) : Prop where
  config   : t.config = s.config
  cmd      : t.cmd = s.cmd
  args     : t.args = s.args
  snapC    : t.snapC = s.snapC
  snapA    : t.snapA = s.snapA
  cmdlost  : t.cmdlost = s.cmdlost
  acc      : t.acc = s.acc
  hostProg : t.hostProg = s.hostProg
  hostPc   : t.hostPc = s.hostPc
  lastRead : t.lastRead = s.lastRead
  wait     : t.wait = s.wait
  delays   : t.delays = s.delays
  races    : t.races = s.races
  unseen   : t.unseen = s.unseen

/-- t is s after a successful completion with results r0..r3 (R131): ERRCODE = 0, ERR = 0, DONE = 1, DZC set when `z`,
BUSY = 0, and everything of EngineFrame unchanged. It says nothing of memory. -/
structure Succeeded (s t : State) (r0 r1 r2 r3 : Word) (z : Bool) : Prop where
  results : t.results = #v[r0, r1, r2, r3]
  errcode : t.errcode = 0
  err     : t.err = false
  dzc     : t.dzc = (s.dzc || z)
  done    : t.done = true
  idle    : t.phase = .idle
  frame   : EngineFrame s t

/-- t is s after a completion with an error of the given code (R131, R133): RESULT0..3 = 0, ERRCODE = code, ERR = 1,
DONE = 1, BUSY = 0, DZC and everything of EngineFrame unchanged. It says nothing of memory. -/
structure Failed (s t : State) (code : Word) : Prop where
  results : t.results = #v[0, 0, 0, 0]
  errcode : t.errcode = code
  err     : t.err = true
  dzc     : t.dzc = s.dzc
  done    : t.done = true
  idle    : t.phase = .idle
  frame   : EngineFrame s t

/-- Memory, and what the model keeps about it, is as before. -/
structure MemoryUnchanged (s t : State) : Prop where
  mem       : t.mem = s.mem
  unordered : t.unordered = s.unordered
  draws     : t.draws = s.draws

/-- Every byte outside the n bytes at a reads as before (R36). -/
def OnlyWrote (s t : State) (a n : Nat) : Prop :=
  ∀ b, ¬ (a ≤ b ∧ b < a + n) → t.mem.read b = s.mem.read b

/-- The platform accepts the engine's accesses of one kind to the n bytes at a (R38). -/
def BusAccepts (s : State) (k : AccessKind) (a n : Nat) : Prop := ∀ b, a ≤ b → b < a + n → busOk s.config b k = true

/-- The host has not raced the running command (R43). -/
def NoRace (s : State) : Prop := s.races = []

/-- The buffers of UNPACK, DEMOSAIC, CSC or CONVERT that reads `ns` bytes at A[0] and writes `nd` bytes at A[2] pass
every check, the platform accepts every access, and the host keeps its duties (spec/42_unpack.md R101,
spec/43_demosaic.md R111, spec/44_colorspace.md R118, spec/45_convert.md R122, spec/20_memory.md R38 to R43). -/
structure BuffersReady (s : State) (ns nd : Nat) : Prop where
  memWf    : s.mem.wf = true
  noRace   : NoRace s
  source   : operand s 0 + operand s 1 ≤ 2 ^ 32
  dest     : operand s 2 + operand s 3 ≤ 2 ^ 32
  readFits : ns < 2 ^ 32
  wrFits   : nd < 2 ^ 32
  srcLong  : ns ≤ operand s 1
  dstLong  : nd ≤ operand s 3
  apart    : ns = 0 ∨ nd = 0 ∨ operand s 0 + ns ≤ operand s 2 ∨ operand s 2 + nd ≤ operand s 0
  readOk   : BusAccepts s .read (operand s 0) ns
  writeOk  : BusAccepts s .write (operand s 2) nd

/-- CONVERT's checks of the format with descriptor d, of the frame's geometry and of its buffers all pass, with `st` the
row stride of plane 0 (spec/45_convert.md R121, R122). -/
structure ConvertReady (s : State) (d : Descriptor) (st : Nat) : Prop where
  formatId : s.config.catalog[operand s 4]? = some d
  planes   : 1 ≤ nplanes d
  bpl      : operand s 7 = 0 ∨ nplanes d = 1
  stride   : st = if operand s 7 = 0 then naturalStride d (operand s 5) 0 else operand s 7
  rowFits  : naturalStride d (operand s 5) 0 ≤ st
  heights  : ∀ q ∈ d.planes, operand s 6 % q.vs = 0
  buffers  : BuffersReady s
    (if operand s 7 = 0 then frameSizeOf d (operand s 5) (operand s 6) 1
      else operand s 7 * (operand s 6 / (plane d 0).vs))
    (3 * operand s 5 * operand s 6)

/-- A command ends with an error found before any memory access (R133). -/
def EndsWith (o : Host.Outcome State Fault Refusal) (s : State) (code : Word) : Prop :=
  ∃ t, o = .next t ∧ Failed s t code ∧ MemoryUnchanged s t

/-- A command that touches no memory ends with results r0..r3 (R33, R131). -/
def Returns (o : Host.Outcome State Fault Refusal) (s : State) (r0 r1 r2 r3 : Word) : Prop :=
  ∃ t, o = .next t ∧ Succeeded s t r0 r1 r2 r3 false ∧ MemoryUnchanged s t

/-- s with another memory. -/
def State.withMem (s : State) (m : Memory) : State := { s with mem := m }

/-- s with other values in the live CMD and ARG registers. -/
def State.withLive (s : State) (c : Word) (as : Vector Word 8) : State := { s with cmd := c, args := as }

/-- What holds after reset and what every step keeps.
* Memory is canonical and within the memory space (R33).
* ERRCODE holds a code of R128; ERR and DZC agree with it while they are set (R22, R131); results are 0 after an error
  (R25, R129).
* While a command runs, DONE, ERR, DZC and ERRCODE are 0 and CMD is the snapshot C (R20, R21, R23, R130). -/
structure Inv (s : State) : Prop where
  memWf     : s.mem.wf = true
  memSpace  : s.mem.inSpace = true
  errRange  : s.errcode.toNat ≤ 11
  errAgrees : s.err = true → s.errcode ≠ 0
  dzcAgrees : s.dzc = true → s.errcode = 0
  errZero   : s.errcode ≠ 0 → s.results = #v[0, 0, 0, 0]
  busyClear : s.phase = .busy → s.done = false ∧ s.err = false ∧ s.dzc = false ∧ s.errcode = 0
  busyCmd   : s.phase = .busy → s.cmd = s.snapC

end Sys2Proof.Machine
end

