-- ==== Sys2Proof/Certificates/Slice0/Obligations.lean ====
section
/-! DEFINITION. The statements for the provers. Each docstring names the rule of spec/ it formalises or rests on. -/

open Sys2Proof Sys2Proof.Machine

/-! ### Reset, registers and the start of a command -/

/-- R32's reset values, and that they meet the invariant. -/
def Obligations.ResetStateIsIdleAndZero : Prop :=
  State.reset.phase = .idle ∧ statusWord State.reset = 0 ∧ State.reset.errcode = 0 ∧ State.reset.cmd = 0
    ∧ (∀ n : Fin 8, State.reset.args[n] = 0) ∧ (∀ n : Fin 4, State.reset.results[n] = 0)
    ∧ regValue State.reset .id = 0x55584950 ∧ regValue State.reset .version = 1
    ∧ regValue State.reset .nfmt = 39 ∧ Inv State.reset

/-- R140: the reset input at any time. The write range of an abandoned command is the one its rule gives it (R80, R101,
R111, R118, R121), whether or not its checks would have passed (the model's reading, log entry 8); its bytes become
unspecified and no other byte of memory changes. -/
def Obligations.ResetInputClearsRegistersAndSpoilsOnlyTheWriteRange : Prop :=
  ∀ s : State, s.mem.wf = true → ∃ t, hostOp .reset s = .next t
    ∧ t.phase = .idle ∧ statusWord t = 0 ∧ t.errcode = 0 ∧ t.cmd = 0
    ∧ (∀ n : Fin 8, t.args[n] = 0) ∧ (∀ n : Fin 4, t.results[n] = 0)
    ∧ t.config = s.config ∧ (s.phase = .idle → t.mem = s.mem)
    ∧ (∀ e, decode s.snapC = .error e → t.mem = s.mem)
    ∧ ∀ i, s.phase = .busy → decode s.snapC = .ok i →
      (i = .findName ∨ i = .findDrm ∨ i = .findV4l2 ∨ i = .fmtInfo ∨ (∃ p, i = .planeInfo p) ∨ (∃ p, i = .stride p)
          ∨ (∃ p, i = .planeSize p) ∨ i = .frameSize ∨ i = .fourccEnc → t.mem = s.mem)
      ∧ ∀ a n, (i = .fourccDec ∧ a = operand s 1 ∧ n = 4
            ∨ i = .unpack ∧ a = operand s 2 ∧ n = 2 * operand s 4 * operand s 5
            ∨ (∃ dmm, i = .demosaic dmm) ∧ a = operand s 2 ∧ n = 6 * operand s 4 * operand s 5
            ∨ (∃ rng enc, i = .csc rng enc) ∧ a = operand s 2 ∧ n = 3 * operand s 4
            ∨ (∃ rng enc dmm, i = .convert rng enc dmm) ∧ a = operand s 2 ∧ n = 3 * operand s 5 * operand s 6) →
        OnlyWrote s t a n ∧ ∀ k, k < n → a + k < 2 ^ 32 → t.mem.read (a + k) = Config.freeByte (s.draws + k)

/-- R17, R18 and R19: what ID, VERSION and NFMT read, that a write to one of them changes nothing, and which format IDs
are valid. What NFMT reads for 2^32 entries or more is left free (log entry 26). -/
def Obligations.IdentityRegistersAreConstant : Prop :=
  ∀ (s : State) (v : HostValue),
    hostOp (.wr .id v) s = .next s ∧ hostOp (.wr .version v) s = .next s ∧ hostOp (.wr .nfmt v) s = .next s
    ∧ hostOp (.rd .id) s = .next { s with acc := 0x55584950 }
    ∧ hostOp (.rd .version) s = .next { s with acc := 0x00000001 }
    ∧ (∃ w, hostOp (.rd .nfmt) s = .next { s with acc := w }
        ∧ (s.config.catalog.length < 2 ^ 32 → w.toNat = s.config.catalog.length))
    ∧ ∀ f, (format s f).isSome = true ↔ f < s.config.catalog.length

/-- R16 and R51: an aligned 32-bit access at an offset of the block reaches the register the map gives, and any other
access of the block is refused. -/
def Obligations.BusAccessesFollowTheRegisterMap : Prop :=
  ∀ (s : State) (v : HostValue) (o : Nat), o < 0x100 →
    (o % 4 = 0 → ∀ r : Reg,
        (o = 0x00 ∧ r = .id ∨ o = 0x04 ∧ r = .version ∨ o = 0x08 ∧ r = .nfmt ∨ o = 0x10 ∧ r = .cmd
          ∨ o = 0x14 ∧ r = .status ∨ o = 0x18 ∧ r = .errcode ∨ (∃ n : Fin 8, o = 0x20 + 4 * n.val ∧ r = .arg n)
          ∨ (∃ n : Fin 4, o = 0x40 + 4 * n.val ∧ r = .result n)
          ∨ o = 0x0C ∧ r = .reserved0C ∨ o = 0x1C ∧ r = .reserved1C
          ∨ (∃ n : Fin 44, o = 0x50 + 4 * n.val ∧ r = .reserved n)) →
        hostOp (.busWrite (s.config.base + o) 32 v) s = hostOp (.wr r v) s
          ∧ hostOp (.busRead (s.config.base + o) 32) s = hostOp (.rd r) s)
    ∧ ∀ width, ¬ (width = 32 ∧ o % 4 = 0) →
        hostOp (.busWrite (s.config.base + o) width v) s = .refused .registerAccessForm
          ∧ hostOp (.busRead (s.config.base + o) width) s = .refused .registerAccessForm

/-- R24: ARG0..ARG7 are read and written by the host at any time, and a write sets that register alone. With R20, R23,
R25 and R26: a read of CMD, ERRCODE or RESULTn returns its value, a reserved offset reads 0, and a write to ERRCODE, a
result register or a reserved offset changes nothing. -/
def Obligations.RegisterWritesSetArgsAndNothingReadOnly : Prop :=
  ∀ (s : State) (v : HostValue) (x : Word), (v = .lit x ∨ v = .acc ∧ s.acc = x) →
    (∀ n : Fin 8, ∃ t, hostOp (.wr (.arg n) v) s = .next t ∧ t.args[n] = x
        ∧ (∀ m : Fin 8, m ≠ n → t.args[m] = s.args[m]) ∧ t = { s with args := t.args })
    ∧ (∀ n : Fin 8, hostOp (.rd (.arg n)) s = .next { s with acc := s.args[n] })
    ∧ hostOp (.rd .cmd) s = .next { s with acc := s.cmd }
    ∧ hostOp (.rd .errcode) s = .next { s with acc := s.errcode }
    ∧ (∀ n : Fin 4, hostOp (.rd (.result n)) s = .next { s with acc := s.results[n] })
    ∧ hostOp (.wr .errcode v) s = .next s
    ∧ (∀ n : Fin 4, hostOp (.wr (.result n) v) s = .next s)
    ∧ ∀ r : Reg, (r = .reserved0C ∨ r = .reserved1C ∨ ∃ n, r = .reserved n) →
        hostOp (.wr r v) s = .next s ∧ hostOp (.rd r) s = .next { s with acc := 0 }

/-- R22: the bits a host read of STATUS returns, that the read changes nothing else (but the model's own list of
unordered ranges, log entry 11), and that a STATUS write clears exactly the W1C bits it writes 1 to. -/
def Obligations.StatusReadsItsBitsAndClearsOnOne : Prop :=
  ∀ s : State,
    (∃ t, hostOp (.rd .status) s = .next t
      ∧ t.acc.getLsbD 0 = decide (s.phase = .busy) ∧ t.acc.getLsbD 1 = s.done
      ∧ t.acc.getLsbD 2 = s.err ∧ t.acc.getLsbD 3 = s.dzc ∧ t.acc.getLsbD 4 = s.cmdlost
      ∧ (∀ i, 5 ≤ i → t.acc.getLsbD i = false)
      ∧ t.acc = statusWord s ∧ t = { s with acc := t.acc, unordered := t.unordered })
    ∧ ∀ (v : HostValue) (x : Word), (v = .lit x ∨ v = .acc ∧ s.acc = x) →
      hostOp (.wr .status v) s = .next { s with
        done := s.done && !x.getLsbD 1
        err := s.err && !x.getLsbD 2
        dzc := s.dzc && !x.getLsbD 3
        cmdlost := s.cmdlost && !x.getLsbD 4 }

/-- R130 (with R20's accepted write and R21's snapshot): the start of a command in a run that keeps the host's duties:
its ranges hold no byte that R37 or R41 forbids. -/
def Obligations.AcceptedCmdWriteStartsTheCommand : Prop :=
  ∀ (s : State) (v : HostValue) (x : Word), (v = .lit x ∨ v = .acc ∧ s.acc = x) → s.phase = .idle →
    (∀ i p a, decode x = .ok i → planOf i { s with snapA := s.args } = .ok p →
      ((∃ r ∈ s.unseen, inRange r a = true) → inRange p.rd a = false)
      ∧ ((∃ r ∈ s.config.readHazards, inRange r a = true) → inRange p.rd a = false ∧ inRange p.wr a = false)) →
    ∃ t, hostOp (.wr .cmd v) s = .next t
      ∧ t.cmd = x ∧ t.snapC = x ∧ t.snapA = s.args ∧ t.done = false ∧ t.err = false ∧ t.dzc = false ∧ t.errcode = 0
      ∧ t.phase = .busy ∧ t.results = s.results ∧ t.cmdlost = s.cmdlost ∧ t.args = s.args ∧ t.config = s.config
      ∧ t.mem = s.mem ∧ t.acc = s.acc ∧ t.hostProg = s.hostProg ∧ t.hostPc = s.hostPc

/-- R142 (and R20's dropped write): a CMD write while BUSY sets STATUS.CMDLOST and changes nothing else. -/
def Obligations.CmdWriteWhileBusyOnlySetsCmdlost : Prop :=
  ∀ (s : State) (v : HostValue), s.phase = .busy → hostOp (.wr .cmd v) s = .next { s with cmdlost := true }

/-- R37 and R41 with the treatments X3 and X8: a start whose command reads a byte the host wrote and the platform has
not made visible is refused, and so is one with a buffer in a region whose reads have side effects. -/
def Obligations.StartsThatBreakAHostDutyAreRefused : Prop :=
  ∀ (s : State) (v : Word) (i : Instr) (p : Plan) (a : Nat), s.phase = .idle → decode v = .ok i →
    planOf i { s with snapA := s.args } = .ok p →
    BusAccepts s .read p.rd.base p.rd.len → BusAccepts s .write p.wr.base p.wr.len →
    ((∃ r ∈ s.unseen, inRange r a = true) → inRange p.rd a = true →
        hostOp (.wr .cmd (.lit v)) s = .refused .hostWriteNotVisible)
    ∧ (s.unseen = [] → (∃ r ∈ s.config.readHazards, inRange r a = true) →
        (inRange p.rd a = true ∨ inRange p.wr a = true) →
        hostOp (.wr .cmd (.lit v)) s = .refused .readSideEffects)

/-! ### How commands end -/

/-- R59: every word whose OPC is not one of R53's ends with IllegalCommand, with no memory access. -/
def Obligations.ReservedOpcodeEndsWithIllegalCommand : Prop :=
  ∀ s : State, s.snapC.toNat % 256 ∉ [0x01, 0x02, 0x03, 0x04, 0x05, 0x08, 0x09, 0x0A, 0x0C, 0x0D, 0x10, 0x11, 0x12, 0x13] →
    s.phase = .busy → s.wait = 0 → EndsWith (step s) s 10

/-- R21: a running command reads only the snapshot, never the live CMD or ARG registers. -/
def Obligations.RunningCommandReadsOnlyTheSnapshot : Prop :=
  ∀ (i : Instr) (s t : State) (c : Word) (as : Vector Word 8), exec i s = .next t →
    exec i (s.withLive c as) = .next (t.withLive c as)

/-- R131, R133: whatever its command, a completion is a success or one error of R128, and leaves CMD, ARG0..ARG7, the
snapshot, CMDLOST, the parameters and the host alone. -/
def Obligations.EveryCompletionSucceedsOrReportsOneError : Prop :=
  ∀ (i : Instr) (s t : State), exec i s = .next t →
    (∃ r0 r1 r2 r3 z, Succeeded s t r0 r1 r2 r3 z) ∨ (∃ c : Word, 1 ≤ c.toNat ∧ c.toNat ≤ 11 ∧ Failed s t c)

/-- R126 and R133: a command whose checks fail ends with the code of that check and leaves memory alone. -/
def Obligations.FailedChecksLeaveMemoryUntouched : Prop :=
  ∀ (i : Instr) (s : State) (e : CmdError), planOf i s = .error e →
    EndsWith (exec i s) s (BitVec.ofNat 32 (errorCode e))

/-- R38: a command that has passed its checks and meets one byte the platform refuses ends with BusError; its write
range is then unspecified and every other byte unchanged. -/
def Obligations.RefusedAccessEndsWithBusError : Prop :=
  ∀ (i : Instr) (s : State) (p : Plan) (a : Nat), s.mem.wf = true → planOf i s = .ok p →
    (inRange p.rd a = true ∧ busOk s.config a .read = false ∨ inRange p.wr a = true ∧ busOk s.config a .write = false) →
    ∃ t, exec i s = .next t ∧ Failed s t 11 ∧ OnlyWrote s t p.wr.base p.wr.len
      ∧ ∀ k, k < p.wr.len → t.mem.read (p.wr.base + k) = Config.freeByte (s.draws + k)

/-- R39 and R40: the ranges of a command that passes its checks lie in the memory space and share no byte. -/
def Obligations.PlannedRangesFitMemoryAndDoNotMeet : Prop :=
  ∀ (i : Instr) (s : State) (p : Plan), planOf i s = .ok p →
    p.rd.base + p.rd.len ≤ 2 ^ 32 ∧ p.wr.base + p.wr.len ≤ 2 ^ 32
      ∧ ∀ a, ¬ (inRange p.rd a = true ∧ inRange p.wr a = true)

/-- R36: no command writes a byte outside its write range. -/
def Obligations.CommandsWriteOnlyTheirWriteRange : Prop :=
  ∀ (i : Instr) (s t : State), exec i s = .next t →
    (∀ p, planOf i s = .ok p → OnlyWrote s t p.wr.base p.wr.len)
      ∧ (∀ e, planOf i s = .error e → t.mem = s.mem)

/-- R5, R36 and R43: no result, no flag and no byte of the write range depends on memory outside the read range; and,
unless the host races the command or the platform refuses an access, nothing the command leaves depends on the counter
of draws that earlier commands moved. -/
def Obligations.CommandsDependOnTheirInputsAlone : Prop :=
  (∀ (i : Instr) (s t : State) (m : Memory) (p : Plan), s.mem.wf = true → m.wf = true → planOf i s = .ok p →
    (∀ a, inRange p.rd a = true → m.read a = s.mem.read a) → exec i s = .next t →
    ∃ u, exec i (s.withMem m) = .next u ∧ u.results = t.results ∧ u.errcode = t.errcode ∧ u.dzc = t.dzc
      ∧ (∀ a, inRange p.wr a = true → u.mem.read a = t.mem.read a)
      ∧ OnlyWrote (s.withMem m) u p.wr.base p.wr.len)
  ∧ ∀ (i : Instr) (s t : State) (d : Nat), NoRace s →
    (∀ p, planOf i s = .ok p → BusAccepts s .read p.rd.base p.rd.len ∧ BusAccepts s .write p.wr.base p.wr.len) →
    exec i s = .next t → exec i { s with draws := d } = .next { t with draws := d }

/-! ### Registry commands -/

/-- R68: FIND_NAME, its checks in order and its search. What RESULT0 shows of an ID of 2^32 or more is left free (log
entry 13). -/
def Obligations.FindNameReturnsTheFirstEqualName : Prop :=
  ∀ (s : State) (a n : Nat), a = operand s 0 → n = operand s 1 →
    (n = 0 ∨ 32 < n → EndsWith (exec .findName s) s 1)
    ∧ (1 ≤ n → n ≤ 32 → 2 ^ 32 < a + n → EndsWith (exec .findName s) s 9)
    ∧ (1 ≤ n → n ≤ 32 → a + n ≤ 2 ^ 32 → ¬ BusAccepts s .read a n →
        ∃ t, exec .findName s = .next t ∧ Failed s t 11 ∧ t.mem = s.mem)
    ∧ (1 ≤ n → n ≤ 32 → a + n ≤ 2 ^ 32 → BusAccepts s .read a n → NoRace s →
        (∀ f d, s.config.catalog[f]? = some d → d.name = s.mem.bytes a n →
          (∀ g e, g < f → s.config.catalog[g]? = some e → e.name ≠ s.mem.bytes a n) →
          ∃ r : Word, Returns (exec .findName s) s r 0 0 0 ∧ (f < 2 ^ 32 → r.toNat = f))
        ∧ ((∀ d ∈ s.config.catalog, d.name ≠ s.mem.bytes a n) → EndsWith (exec .findName s) s 1))

/-- R69 and R70: FIND_DRM and FIND_V4L2. What RESULT0 shows of an ID of 2^32 or more is left free (log entry 13). -/
def Obligations.FindByCodeReturnsTheFirstEqualCode : Prop :=
  ∀ s : State,
    (∀ f d, s.config.catalog[f]? = some d → d.drm = some s.snapA[0] →
      (∀ g e, g < f → s.config.catalog[g]? = some e → e.drm ≠ some s.snapA[0]) →
      ∃ r : Word, Returns (exec .findDrm s) s r 0 0 0 ∧ (f < 2 ^ 32 → r.toNat = f))
    ∧ ((∀ d ∈ s.config.catalog, d.drm ≠ some s.snapA[0]) → EndsWith (exec .findDrm s) s 1)
    ∧ (∀ f d, s.config.catalog[f]? = some d → d.v4l2 = some s.snapA[0] →
      (∀ g e, g < f → s.config.catalog[g]? = some e → e.v4l2 ≠ some s.snapA[0]) →
      ∃ r : Word, Returns (exec .findV4l2 s) s r 0 0 0 ∧ (f < 2 ^ 32 → r.toNat = f))
    ∧ ((∀ d ∈ s.config.catalog, d.v4l2 ≠ some s.snapA[0]) → EndsWith (exec .findV4l2 s) s 1)

/-- R81 with R68 to R70: in a catalog that meets the invariants a lookup by an entry's own code finds that very entry,
and code 0 finds none. -/
def Obligations.LookupsInvertAUniqueCatalog : Prop :=
  ∀ (s : State) (f : Nat) (d : Descriptor), catalogOk s.config.catalog = true → s.config.catalog[f]? = some d →
    (d.drm = some s.snapA[0] → ∃ r : Word, Returns (exec .findDrm s) s r 0 0 0 ∧ (f < 2 ^ 32 → r.toNat = f))
    ∧ (d.v4l2 = some s.snapA[0] → ∃ r : Word, Returns (exec .findV4l2 s) s r 0 0 0 ∧ (f < 2 ^ 32 → r.toNat = f))
    ∧ (s.snapA[0] = 0 → EndsWith (exec .findDrm s) s 1 ∧ EndsWith (exec .findV4l2 s) s 1)

/-- R71: FMT_INFO, field by field, with the codes of R61 read off their order; X14's refusal of what cannot be
reported. That it stops only an entry that itself does not fit, and that the nplanes field of more planes than 15 (R66
excludes them) is left free, are the model's choices (log entry 13). -/
def Obligations.FmtInfoReportsTheDescriptor : Prop :=
  ∀ s : State,
    (s.config.catalog[operand s 0]? = none → EndsWith (exec .fmtInfo s) s 1)
    ∧ ∀ d, s.config.catalog[operand s 0]? = some d →
      (d.pgx ≤ 255 → d.pgy ≤ 255 → d.bits ≤ 255 →
        ∃ r0 r3 : Word, Returns (exec .fmtInfo s) s r0 (d.drm.getD 0) (d.v4l2.getD 0) r3
          ∧ field r0 1 0 = [Colour.rgb, .yuv, .raw, .undefined].idxOf d.colour
          ∧ field r0 2 2 = d.packed.toNat ∧ field r0 3 3 = d.isMeta.toNat
          ∧ (d.planes.length ≤ 15 → field r0 7 4 = d.planes.length)
          ∧ field r0 15 8 = d.pgx ∧ field r0 23 16 = d.pgy ∧ field r0 31 24 = d.bits
          ∧ field r3 3 0 = (d.pattern.map [Pattern.rggb, .bggr, .grbg, .gbrg].idxOf).getD 15
          ∧ field r3 7 4 = 0
          ∧ field r3 11 8 = [Handler.none, .rgbCopy3, .rgbRev3, .rgbDrop4, .rgbDrop4Rev, .rgb2101010, .luma,
              .p422Yuyv, .p422Uyvy, .spCbcr, .raw].idxOf d.handler
          ∧ field r3 31 12 = 0)
      ∧ (255 < d.pgx ∨ 255 < d.pgy ∨ 255 < d.bits → exec .fmtInfo s = .refused .catalogFieldTooWide)

/-- R72: PLANE_INFO. What a result register shows of a field that 32 bits do not hold is left free (log entry 13). -/
def Obligations.PlaneInfoReportsThePlane : Prop :=
  ∀ (s : State) (p : Nat),
    (s.config.catalog[operand s 0]? = none → EndsWith (exec (.planeInfo p) s) s 1)
    ∧ ∀ d, s.config.catalog[operand s 0]? = some d →
      (d.planes.length ≤ p → EndsWith (exec (.planeInfo p) s) s 7)
      ∧ ∀ q, d.planes[p]? = some q →
        ∃ r0 r1 r2 r3 : Word, Returns (exec (.planeInfo p) s) s r0 r1 r2 r3
          ∧ (q.bpg < 2 ^ 32 → r0.toNat = q.bpg) ∧ (q.ppg < 2 ^ 32 → r1.toNat = q.ppg)
          ∧ (q.hs < 2 ^ 32 → r2.toNat = q.hs) ∧ (q.vs < 2 ^ 32 → r3.toNat = q.vs)

/-- R74 (with R73's stride): STRIDE gives the least multiple of align that holds the row's groups. -/
def Obligations.StrideIsTheLeastAlignedRowLength : Prop :=
  ∀ (s : State) (p : Nat),
    (s.config.catalog[operand s 0]? = none → EndsWith (exec (.stride p) s) s 1)
    ∧ ∀ d, s.config.catalog[operand s 0]? = some d →
      (d.planes.length ≤ p → EndsWith (exec (.stride p) s) s 7)
      ∧ ∀ q, d.planes[p]? = some q →
        (operand s 2 = 0 → EndsWith (exec (.stride p) s) s 9)
        ∧ (operand s 2 ≠ 0 → ∃ v, operand s 2 ∣ v
            ∧ (operand s 1 + q.ppg - 1) / q.ppg * q.bpg ≤ v
            ∧ v < (operand s 1 + q.ppg - 1) / q.ppg * q.bpg + operand s 2
            ∧ (v < 2 ^ 32 → Returns (exec (.stride p) s) s (BitVec.ofNat 32 v) 0 0 0)
            ∧ (2 ^ 32 ≤ v → EndsWith (exec (.stride p) s) s 9))

/-- R75 (with R73's plane_size): PLANE_SIZE. -/
def Obligations.PlaneSizeIsStrideTimesRows : Prop :=
  ∀ (s : State) (p : Nat),
    (s.config.catalog[operand s 0]? = none → EndsWith (exec (.planeSize p) s) s 1)
    ∧ ∀ d, s.config.catalog[operand s 0]? = some d →
      (d.planes.length ≤ p → EndsWith (exec (.planeSize p) s) s 7)
      ∧ ∀ q z, d.planes[p]? = some q → z = operand s 1 * ((operand s 2 + q.vs - 1) / q.vs) →
        (z < 2 ^ 32 → Returns (exec (.planeSize p) s) s (BitVec.ofNat 32 z) 0 0 0)
        ∧ (2 ^ 32 ≤ z → EndsWith (exec (.planeSize p) s) s 9)

/-- R76 (with R73's frame_size): FRAME_SIZE sums the planes, each at its own stride; only the sum is limited to 32
bits. -/
def Obligations.FrameSizeIsTheSumOfThePlanes : Prop :=
  ∀ s : State,
    (s.config.catalog[operand s 0]? = none → EndsWith (exec .frameSize s) s 1)
    ∧ ∀ d z, s.config.catalog[operand s 0]? = some d →
      (operand s 3 = 0 → EndsWith (exec .frameSize s) s 9)
      ∧ (operand s 3 ≠ 0 →
          z = (d.planes.map fun q =>
            ((operand s 1 + q.ppg - 1) / q.ppg * q.bpg + operand s 3 - 1) / operand s 3 * operand s 3
              * ((operand s 2 + q.vs - 1) / q.vs)).sum →
          (z < 2 ^ 32 → Returns (exec .frameSize s) s (BitVec.ofNat 32 z) 0 0 0)
          ∧ (2 ^ 32 ≤ z → EndsWith (exec .frameSize s) s 9))

/-- R77: (a) to (d), the case where align is a multiple of bpg, and the example that stride is not monotone in
align. -/
def Obligations.GeometryKeepsItsProperties : Prop :=
  (∀ (d : Descriptor) (w h align : Nat),
    frameSizeOf d w h align = ∑ p ∈ Finset.range (nplanes d), planeSizeOf d (strideOf d w p align) h p)
  ∧ (∀ (d : Descriptor) (w p align k : Nat), 1 ≤ align →
      strideOf d w p align % align = 0 ∧ naturalStride d w p ≤ strideOf d w p align
        ∧ (1 ≤ k → strideOf d w p align ≤ strideOf d w p (k * align))
        ∧ (plane d p).bpg ∣ naturalStride d w p
        ∧ ((plane d p).bpg ∣ align → (plane d p).bpg ∣ strideOf d w p align))
  ∧ ∃ d, defaultCatalog[0]? = some d ∧ strideOf d 1 0 2 = 4 ∧ strideOf d 1 0 3 = 3

/-- R79 (with R78's packing): FOURCC_ENC. -/
def Obligations.FourccEncPacksFourBytes : Prop :=
  ∀ (s : State) (a : Nat), a = operand s 0 →
    (operand s 1 ≠ 4 → EndsWith (exec .fourccEnc s) s 2)
    ∧ (operand s 1 = 4 → 2 ^ 32 < a + 4 → EndsWith (exec .fourccEnc s) s 9)
    ∧ (operand s 1 = 4 → a + 4 ≤ 2 ^ 32 → ¬ BusAccepts s .read a 4 →
        ∃ t, exec .fourccEnc s = .next t ∧ Failed s t 11 ∧ t.mem = s.mem)
    ∧ (operand s 1 = 4 → a + 4 ≤ 2 ^ 32 → BusAccepts s .read a 4 → NoRace s →
        Returns (exec .fourccEnc s) s
          (BitVec.ofNat 32 ((s.mem.read a).toNat ||| (s.mem.read (a + 1)).toNat <<< 8
            ||| (s.mem.read (a + 2)).toNat <<< 16 ||| (s.mem.read (a + 3)).toNat <<< 24)) 0 0 0)

/-- R80: FOURCC_DEC writes byte i of the code at A[1] + i and nothing else. -/
def Obligations.FourccDecWritesFourBytes : Prop :=
  ∀ (s : State) (a : Nat), a = operand s 1 → s.mem.wf = true →
    (2 ^ 32 < a + 4 → EndsWith (exec .fourccDec s) s 9)
    ∧ (a + 4 ≤ 2 ^ 32 → ¬ BusAccepts s .write a 4 →
        ∃ t, exec .fourccDec s = .next t ∧ Failed s t 11 ∧ OnlyWrote s t a 4)
    ∧ (a + 4 ≤ 2 ^ 32 → BusAccepts s .write a 4 → NoRace s →
        ∃ t, exec .fourccDec s = .next t ∧ Succeeded s t 4 0 0 0 false ∧ OnlyWrote s t a 4
          ∧ ∀ k, k < 4 → t.mem.read (a + k) = s.snapA[0].extractLsb' (8 * k) 8)

/-- R80's round trips: FOURCC_DEC then FOURCC_ENC gives the code back, FOURCC_ENC then FOURCC_DEC the four bytes. -/
def Obligations.FourccCodecRoundTrips : Prop :=
  (∀ (s t u : State), s.mem.wf = true → NoRace s → operand s 1 + 4 ≤ 2 ^ 32 → BusAccepts s .write (operand s 1) 4 →
    exec .fourccDec s = .next t → u.mem = t.mem → NoRace u → operand u 0 = operand s 1 → operand u 1 = 4 →
    BusAccepts u .read (operand u 0) 4 →
    ∃ v, exec .fourccEnc u = .next v ∧ v.errcode = 0 ∧ v.results[0] = s.snapA[0])
  ∧ (∀ (s t u : State), NoRace s → operand s 1 = 4 → operand s 0 + 4 ≤ 2 ^ 32 → BusAccepts s .read (operand s 0) 4 →
    exec .fourccEnc s = .next t → u.mem.wf = true → NoRace u → u.snapA[0] = t.results[0] → operand u 1 + 4 ≤ 2 ^ 32 →
    BusAccepts u .write (operand u 1) 4 →
    ∃ v, exec .fourccDec u = .next v ∧ v.mem.bytes (operand u 1) 4 = s.mem.bytes (operand s 0) 4)

/-! ### The bit unpacker -/

/-- R98, R99 and R100, in arithmetic, for a row of bytes. -/
def Obligations.RowFunctionTakesTheStatedBits : Prop :=
  ∀ (b : Nat → Nat) (x : Nat), (∀ i, b i < 256) →
    unpackSample .d8 b x = b x
    ∧ unpackSample .d16 b x = b (2 * x) + 256 * b (2 * x + 1)
    ∧ unpackSample .d10 b x
        = 4 * b (5 * (x / 4) + x % 4) + b (5 * (x / 4) + 4) / 4 ^ (3 - x % 4) % 4
    ∧ unpackSample .d12 b x
        = 16 * b (3 * (x / 2) + x % 2)
          + (if x % 2 = 0 then b (3 * (x / 2) + 2) / 16 else b (3 * (x / 2) + 2) % 16)

/-- R102: packing four 10-bit or two 12-bit values as it states and unpacking them gives them back, and samples are
below 2^depth. -/
def Obligations.UnpackInvertsPacking : Prop :=
  (∀ v : Fin 4 → Nat, (∀ i, v i < 1024) → ∀ b : Nat → Nat,
    (∀ i : Fin 4, b i.val = v i >>> 2) →
    b 4 = (v 0 &&& 3) <<< 6 + (v 1 &&& 3) <<< 4 + (v 2 &&& 3) <<< 2 + (v 3 &&& 3) →
    ∀ i : Fin 4, unpackSample .d10 b i.val = v i)
  ∧ (∀ v : Fin 2 → Nat, (∀ i, v i < 4096) → ∀ b : Nat → Nat,
    (∀ i : Fin 2, b i.val = v i >>> 4) → b 2 = (v 0 &&& 0xF) <<< 4 ||| (v 1 &&& 0xF) →
    ∀ i : Fin 2, unpackSample .d12 b i.val = v i)
  ∧ ∀ (b : Nat → Nat) (x : Nat), (∀ i, b i < 256) →
    unpackSample .d8 b x < 2 ^ 8 ∧ unpackSample .d10 b x < 2 ^ 10 ∧ unpackSample .d12 b x < 2 ^ 12
      ∧ unpackSample .d16 b x < 2 ^ 16

/-- R101: UNPACK on operands that pass its checks. -/
def Obligations.UnpackWritesEverySample : Prop :=
  ∀ (s : State) (depth : Depth) (w h st rb : Nat), w = operand s 4 → h = operand s 5 →
    (operand s 7 = 8 ∧ depth = .d8 ∧ rb = w ∨ operand s 7 = 10 ∧ depth = .d10 ∧ rb = (w + 3) / 4 * 5
      ∨ operand s 7 = 12 ∧ depth = .d12 ∧ rb = (w + 1) / 2 * 3 ∨ operand s 7 = 16 ∧ depth = .d16 ∧ rb = 2 * w) →
    st = (if operand s 6 = 0 then rb else operand s 6) → rb ≤ st → BuffersReady s (st * h) (2 * w * h) →
    ∃ t, exec .unpack s = .next t ∧ Succeeded s t (BitVec.ofNat 32 (2 * w * h)) 0 0 0 false
      ∧ OnlyWrote s t (operand s 2) (2 * w * h)
      ∧ ∀ x y, x < w → y < h →
          t.mem.readLE (operand s 2 + 2 * (y * w + x)) 2
            = unpackSample depth (fun i => (s.mem.read (operand s 0 + y * st + i)).toNat) x

/-- R101: UNPACK reports the first of its checks that fails. -/
def Obligations.UnpackReportsTheFirstFailingCheck : Prop :=
  ∀ (s : State) (w h st rb : Nat), w = operand s 4 → h = operand s 5 →
    (operand s 7 ≠ 8 → operand s 7 ≠ 10 → operand s 7 ≠ 12 → operand s 7 ≠ 16 → EndsWith (exec .unpack s) s 6)
    ∧ ((operand s 7 = 8 ∧ rb = w ∨ operand s 7 = 10 ∧ rb = (w + 3) / 4 * 5
        ∨ operand s 7 = 12 ∧ rb = (w + 1) / 2 * 3 ∨ operand s 7 = 16 ∧ rb = 2 * w) →
      st = (if operand s 6 = 0 then rb else operand s 6) →
      (st < rb → EndsWith (exec .unpack s) s 4)
      ∧ (rb ≤ st →
        (2 ^ 32 < operand s 0 + operand s 1 ∨ 2 ^ 32 < operand s 2 + operand s 3 → EndsWith (exec .unpack s) s 9)
        ∧ (operand s 0 + operand s 1 ≤ 2 ^ 32 → operand s 2 + operand s 3 ≤ 2 ^ 32 →
          (2 ^ 32 ≤ st * h ∨ 2 ^ 32 ≤ 2 * w * h → EndsWith (exec .unpack s) s 9)
          ∧ (st * h < 2 ^ 32 → 2 * w * h < 2 ^ 32 →
            (operand s 1 < st * h ∨ operand s 3 < 2 * w * h → EndsWith (exec .unpack s) s 5)
            ∧ (st * h ≤ operand s 1 → 2 * w * h ≤ operand s 3 → ∀ a,
              inRange ⟨operand s 0, st * h⟩ a = true → inRange ⟨operand s 2, 2 * w * h⟩ a = true →
              EndsWith (exec .unpack s) s 9)))))

/-! ### The demosaic engine -/

/-- R105: the 3x3 method is the sum over the in-grid pixels at most one row and one column away that hold the channel,
divided by their number clamped to at least 1. -/
def Obligations.WindowAverageFollowsItsDefinition : Prop :=
  ∀ (p : Pattern) (S : Nat → Nat → Nat) (w h : Nat) (c : Channel) (x y : Nat), x < w → y < h →
    demosaicAt .window3x3 p S w h c x y
      = (∑ i ∈ Finset.range w, ∑ j ∈ Finset.range h,
          if i ≤ x + 1 ∧ x ≤ i + 1 ∧ j ≤ y + 1 ∧ y ≤ j + 1 ∧ channelAt p i j = c then S i j else 0)
        / max (∑ i ∈ Finset.range w, ∑ j ∈ Finset.range h,
          if i ≤ x + 1 ∧ x ≤ i + 1 ∧ j ≤ y + 1 ∧ y ≤ j + 1 ∧ channelAt p i j = c then 1 else 0) 1

/-- R106 and R104: the bilinear method copies a pixel's own channel; what it averages for another channel are in-grid
pixels of that channel, each at most one row and one column away, at R and B sites all such pixels. -/
def Obligations.BilinearAveragesSitesOfTheChannel : Prop :=
  ∀ (p : Pattern) (S : Nat → Nat → Nat) (w h : Nat) (c : Channel) (x y : Nat), x < w → y < h →
    (channelAt p x y = c → demosaicAt .bilinear p S w h c x y = S x y)
    ∧ (channelAt p x y ≠ c →
        demosaicAt .bilinear p S w h c x y
          = (∑ i ∈ Finset.range w, ∑ j ∈ Finset.range h,
              if i ≤ x + 1 ∧ x ≤ i + 1 ∧ j ≤ y + 1 ∧ y ≤ j + 1 ∧ channelAt p i j = c then S i j else 0)
            / max (∑ i ∈ Finset.range w, ∑ j ∈ Finset.range h,
              if i ≤ x + 1 ∧ x ≤ i + 1 ∧ j ≤ y + 1 ∧ y ≤ j + 1 ∧ channelAt p i j = c then 1 else 0) 1)
    ∧ ∀ q ∈ bilinearCells p w h c x y, q.1 < w ∧ q.2 < h ∧ channelAt p q.1 q.2 = c
        ∧ q.1 ≤ x + 1 ∧ x ≤ q.1 + 1 ∧ q.2 ≤ y + 1 ∧ y ≤ q.2 + 1

/-- R108: for every pattern and method a divisor is clamped exactly in the non-empty grids of one row or one column. -/
def Obligations.DivisorClampedExactlyInOneRowOrOneColumn : Prop :=
  ∀ (m : Method) (p : Pattern) (w h : Nat),
    demosaicClamped m p w h = true ↔ 1 ≤ w ∧ 1 ≤ h ∧ (w = 1 ∨ h = 1)

/-- R109: the two methods agree but for G at G sites; every output lies between bounds of the samples where the divisor
is not zero; so outputs stay below 2^16. -/
def Obligations.MethodsAgreeOffGreenAndStayInBounds : Prop :=
  ∀ (p : Pattern) (S : Nat → Nat → Nat) (w h : Nat) (c : Channel) (x y : Nat), x < w → y < h →
    (¬ (c = .g ∧ channelAt p x y = .g) →
      demosaicAt .window3x3 p S w h c x y = demosaicAt .bilinear p S w h c x y)
    ∧ (∀ (m : Method) (lo hi : Nat), (∀ i j, i < w → j < h → channelAt p i j = c → lo ≤ S i j ∧ S i j ≤ hi) →
        demosaicAt m p S w h c x y ≤ hi
        ∧ (demosaicDen m p w h c x y ≠ 0 → lo ≤ demosaicAt m p S w h c x y))

/-- R103's table: the channel of each tile cell in all four patterns. And R110's worked grid, both methods, and the 2 x 2
grid of spec/95_test_vectors.md 2.6 in the other three patterns, a sanity check. -/
def Obligations.WorkedGridGivesTheStatedPixels : Prop :=
  (∀ (x y i j : Nat) (r g0 g1 b : Nat × Nat) (p : Pattern), i = x % 2 → j = y % 2 →
      (p = .rggb ∧ r = (0, 0) ∧ g0 = (1, 0) ∧ g1 = (0, 1) ∧ b = (1, 1)
        ∨ p = .bggr ∧ r = (1, 1) ∧ g0 = (1, 0) ∧ g1 = (0, 1) ∧ b = (0, 0)
        ∨ p = .grbg ∧ r = (1, 0) ∧ g0 = (0, 0) ∧ g1 = (1, 1) ∧ b = (0, 1)
        ∨ p = .gbrg ∧ r = (0, 1) ∧ g0 = (0, 0) ∧ g1 = (1, 1) ∧ b = (1, 0)) →
      (channelAt p x y = .r ↔ (i, j) = r) ∧ (channelAt p x y = .g ↔ (i, j) = g0 ∨ (i, j) = g1)
        ∧ (channelAt p x y = .b ↔ (i, j) = b))
  ∧ (let T : Nat → Nat → Nat := fun x y => [200, 100, 120, 50].getD (2 * y + x) 0
    let pixels (m : Method) (p : Pattern) : List (List Nat) := [(0, 0), (1, 0), (0, 1), (1, 1)].map fun q =>
      [Channel.b, .g, .r].map fun c => demosaicAt m p T 2 2 c q.1 q.2
    pixels .window3x3 .bggr = List.replicate 4 [200, 110, 50]
      ∧ pixels .window3x3 .grbg = List.replicate 4 [120, 125, 100]
      ∧ pixels .window3x3 .gbrg = List.replicate 4 [100, 125, 120]
      ∧ pixels .bilinear .bggr = [[200, 110, 50], [200, 100, 50], [200, 120, 50], [200, 110, 50]]
      ∧ pixels .bilinear .grbg = [[120, 200, 100], [120, 125, 100], [120, 125, 100], [120, 50, 100]]
      ∧ pixels .bilinear .gbrg = [[100, 200, 120], [100, 125, 120], [100, 125, 120], [100, 50, 120]])
  ∧ let S : Nat → Nat → Nat := fun x y => 10 * (4 * y + x + 1)
  let row (m : Method) (y : Nat) : List (List Nat) := (List.range 4).map fun x =>
    [Channel.b, .g, .r].map fun c => demosaicAt m .rggb S 4 4 c x y
  row .window3x3 0 = [[60, 35, 10], [60, 46, 20], [70, 43, 30], [80, 55, 30]]
    ∧ row .window3x3 1 = [[60, 56, 50], [60, 60, 60], [70, 70, 70], [80, 76, 70]]
    ∧ row .window3x3 2 = [[100, 93, 90], [100, 100, 100], [110, 110, 110], [120, 113, 110]]
    ∧ row .window3x3 3 = [[140, 115, 90], [140, 126, 100], [150, 123, 110], [160, 135, 110]]
    ∧ row .bilinear 0 = [[60, 35, 10], [60, 20, 20], [70, 43, 30], [80, 40, 30]]
    ∧ row .bilinear 1 = [[60, 50, 50], [60, 60, 60], [70, 70, 70], [80, 76, 70]]
    ∧ row .bilinear 2 = [[100, 93, 90], [100, 100, 100], [110, 110, 110], [120, 120, 110]]
    ∧ row .bilinear 3 = [[140, 130, 90], [140, 126, 100], [150, 150, 110], [160, 135, 110]]

/-- R111 with R107 and R108: DEMOSAIC on operands that pass its checks. -/
def Obligations.DemosaicWritesEveryPixel : Prop :=
  ∀ (s : State) (dmm : DmmField) (m : Method) (p : Pattern) (w h : Nat), w = operand s 4 → h = operand s 5 →
    (dmm = .window3x3 ∧ m = .window3x3 ∨ dmm = .bilinear ∧ m = .bilinear) →
    (operand s 6 = 0 ∧ p = .rggb ∨ operand s 6 = 1 ∧ p = .bggr ∨ operand s 6 = 2 ∧ p = .grbg
      ∨ operand s 6 = 3 ∧ p = .gbrg) →
    BuffersReady s (2 * w * h) (6 * w * h) →
    ∃ t, exec (.demosaic dmm) s = .next t
      ∧ Succeeded s t (BitVec.ofNat 32 (6 * w * h)) 0 0 0 (decide (1 ≤ w ∧ 1 ≤ h ∧ (w = 1 ∨ h = 1)))
      ∧ OnlyWrote s t (operand s 2) (6 * w * h)
      ∧ ∀ x y, x < w → y < h → ∀ j c, (j, c) ∈ [(0, Channel.b), (1, .g), (2, .r)] →
          t.mem.readLE (operand s 2 + 6 * (y * w + x) + 2 * j) 2
            = demosaicAt m p (fun i k => s.mem.readLE (operand s 0 + 2 * (k * w + i)) 2) w h c x y

/-- R111: DEMOSAIC reports the first of its checks that fails. -/
def Obligations.DemosaicReportsTheFirstFailingCheck : Prop :=
  ∀ (s : State) (dmm : DmmField) (w h : Nat), w = operand s 4 → h = operand s 5 →
    (dmm = .reserved2 ∨ dmm = .reserved3 → EndsWith (exec (.demosaic dmm) s) s 8)
    ∧ (dmm = .window3x3 ∨ dmm = .bilinear →
      (3 < operand s 6 → EndsWith (exec (.demosaic dmm) s) s 9)
      ∧ (operand s 6 ≤ 3 →
        (2 ^ 32 < operand s 0 + operand s 1 ∨ 2 ^ 32 < operand s 2 + operand s 3 ∨ 2 ^ 32 ≤ 6 * w * h →
          EndsWith (exec (.demosaic dmm) s) s 9)
        ∧ (operand s 0 + operand s 1 ≤ 2 ^ 32 → operand s 2 + operand s 3 ≤ 2 ^ 32 → 6 * w * h < 2 ^ 32 →
          (operand s 1 < 2 * w * h ∨ operand s 3 < 6 * w * h → EndsWith (exec (.demosaic dmm) s) s 5)
          ∧ (2 * w * h ≤ operand s 1 → 6 * w * h ≤ operand s 3 → ∀ a,
            inRange ⟨operand s 0, 2 * w * h⟩ a = true → inRange ⟨operand s 2, 6 * w * h⟩ a = true →
            EndsWith (exec (.demosaic dmm) s) s 9))))

/-! ### The colorspace converter -/

/-- R115 (with R112's offsets): the default arithmetic is the floor of the clipped exact sum, for every matrix with
positive denominators. -/
def Obligations.ExactTransformIsTheFloorOfTheClippedSum : Prop :=
  ∀ (c : Config) (e : Standard) (r : VideoRange) (ch : Channel) (y cb cr : Byte) (k : Column),
    c.cscEval = .exact → k = columnFor (matrixFor c.cscCoef e r) ch → 0 < k.ky.den → 0 < k.ku.den → 0 < k.kv.den →
    (cscChannel c e r ch y cb cr : Int)
      = ⌊max 0 (min 255
          ((k.ky.num : ℚ) / k.ky.den * ((y.toNat : ℚ) - (if r = .limited then 16 else 0))
            + (k.ku.num : ℚ) / k.ku.den * ((cb.toNat : ℚ) - 128)
            + (k.kv.num : ℚ) / k.kv.den * ((cr.toNat : ℚ) - 128)))⌋

/-- R113 and R114: the default coefficients are those the standard derivation gives. -/
def Obligations.DefaultMatricesFollowTheDerivation : Prop :=
  ∀ (e : Standard) (r : VideoRange) (Kr Kb ys cs : ℚ),
    (e = .bt601 ∧ Kr = 299 / 1000 ∧ Kb = 114 / 1000 ∨ e = .bt709 ∧ Kr = 2126 / 10000 ∧ Kb = 722 / 10000
      ∨ e = .bt2020 ∧ Kr = 2627 / 10000 ∧ Kb = 593 / 10000) →
    (r = .limited ∧ ys = 255 / 219 ∧ cs = 255 / 224 ∨ r = .full ∧ ys = 1 ∧ cs = 1) →
    ∀ q : Ratio → ℚ, (∀ x, q x = (x.num : ℚ) / x.den) →
      let m := matrixFor defaultCoef e r
      q m.r.ky = ys ∧ q m.r.ku = 0 ∧ q m.r.kv = 2 * (1 - Kr) * cs
        ∧ q m.g.ky = ys ∧ q m.g.ku = -(2 * Kb * (1 - Kb) / (1 - Kr - Kb)) * cs
        ∧ q m.g.kv = -(2 * Kr * (1 - Kr) / (1 - Kr - Kb)) * cs
        ∧ q m.b.ky = ys ∧ q m.b.ku = 2 * (1 - Kb) * cs ∧ q m.b.kv = 0

/-- R117: the luma-only path. -/
def Obligations.LumaOnlyRescalesLimitedRange : Prop :=
  ∀ y : Byte, lumaOnly .full y = y.toNat
    ∧ (lumaOnly .limited y : Int) = ⌊max 0 (min 255 (((y.toNat : ℚ) - 16) * 255 / 219))⌋

/-- R119: (a) neutral chroma is the luma-only result in every encoding, (b) outputs do not fall as Y rises, (c) R does
not depend on Cb and B does not depend on Cr, (d) the extremes. -/
def Obligations.DefaultTransformKeepsItsProperties : Prop :=
  (∀ (c : Config) (e : Standard) (r : VideoRange) (y y' cb cb' cr cr' : Byte), c.cscEval = .exact →
    c.cscCoef = defaultCoef →
    (∀ ch, cscChannel c e r ch y 128 128 = lumaOnly r y)
    ∧ (y.toNat ≤ y'.toNat → ∀ ch, cscChannel c e r ch y cb cr ≤ cscChannel c e r ch y' cb cr)
    ∧ cscChannel c e r .r y cb cr = cscChannel c e r .r y cb' cr
    ∧ cscChannel c e r .b y cb cr = cscChannel c e r .b y cb cr')
  ∧ [Channel.b, .g, .r].map (fun ch => cscChannel defaultConfig .bt601 .limited ch 0 0 0) = [0, 135, 0]
  ∧ [Channel.b, .g, .r].map (fun ch => cscChannel defaultConfig .bt601 .limited ch 255 255 255) = [255, 125, 255]
  ∧ [Channel.b, .g, .r].map (fun ch => cscChannel defaultConfig .bt601 .full ch 0 0 0) = [0, 135, 0]
  ∧ [Channel.b, .g, .r].map (fun ch => cscChannel defaultConfig .bt601 .full ch 255 255 255) = [255, 120, 255]

/-- R118: CSC on operands that pass its checks, in the default arithmetic and in any other. -/
def Obligations.CscConvertsEveryTriple : Prop :=
  ∀ (s : State) (rng : RngField) (enc : EncField) (r : VideoRange) (e : Standard) (n : Nat), n = operand s 4 →
    (rng = .limited ∧ r = .limited ∨ rng = .full ∧ r = .full) →
    (enc = .bt601 ∧ e = .bt601 ∨ enc = .bt709 ∧ e = .bt709 ∨ enc = .bt2020 ∧ e = .bt2020) →
    BuffersReady s (3 * n) (3 * n) →
    ∃ t, exec (.csc rng enc) s = .next t ∧ Succeeded s t (BitVec.ofNat 32 (3 * n)) 0 0 0 false
      ∧ OnlyWrote s t (operand s 2) (3 * n)
      ∧ ∀ i, i < n → ∀ j ch, (j, ch) ∈ [(0, Channel.b), (1, .g), (2, .r)] →
          t.mem.read (operand s 2 + 3 * i + j)
            = BitVec.ofNat 8 (cscChannel s.config e r ch (s.mem.read (operand s 0 + 3 * i))
                (s.mem.read (operand s 0 + 3 * i + 1)) (s.mem.read (operand s 0 + 3 * i + 2)))

/-- R118: CSC reports the first of its checks that fails. -/
def Obligations.CscReportsTheFirstFailingCheck : Prop :=
  ∀ (s : State) (rng : RngField) (enc : EncField) (n : Nat), n = operand s 4 →
    (rng = .reserved2 ∨ rng = .reserved3 ∨ enc = .reserved3 → EndsWith (exec (.csc rng enc) s) s 9)
    ∧ (rng = .limited ∨ rng = .full → enc ≠ .reserved3 →
      (2 ^ 32 < operand s 0 + operand s 1 ∨ 2 ^ 32 < operand s 2 + operand s 3 ∨ 2 ^ 32 ≤ 3 * n →
        EndsWith (exec (.csc rng enc) s) s 9)
      ∧ (operand s 0 + operand s 1 ≤ 2 ^ 32 → operand s 2 + operand s 3 ≤ 2 ^ 32 → 3 * n < 2 ^ 32 →
        (operand s 1 < 3 * n ∨ operand s 3 < 3 * n → EndsWith (exec (.csc rng enc) s) s 5)
        ∧ (3 * n ≤ operand s 1 → 3 * n ≤ operand s 3 → ∀ a,
          inRange ⟨operand s 0, 3 * n⟩ a = true → inRange ⟨operand s 2, 3 * n⟩ a = true →
          EndsWith (exec (.csc rng enc) s) s 9)))

/-! ### CONVERT -/

/-- R123 with R85 to R89: CONVERT of an RGB format whose rows hold what its handler reads. With b = A[0] + y st the start
of source row y, byte j of output pixel (x, y) is source byte 3x + j, 3x + 2 - j, 4x + j, 4x + 2 - j, or the high 8 bits
of the 10-bit field at 20 - 10j. -/
def Obligations.ConvertRgbMovesTheComponents : Prop :=
  ∀ (s : State) (rng : RngField) (enc : EncField) (dmm : DmmField) (d : Descriptor) (n w h st : Nat),
    w = operand s 5 → h = operand s 6 → ConvertReady s d st → d.colour = .rgb → (plane d 0).vs = 1 →
    (d.handler = .rgbCopy3 ∧ n = 3 ∨ d.handler = .rgbRev3 ∧ n = 3 ∨ d.handler = .rgbDrop4 ∧ n = 4
      ∨ d.handler = .rgbDrop4Rev ∧ n = 4 ∨ d.handler = .rgb2101010 ∧ n = 4) →
    n * w ≤ naturalStride d w 0 →
    ∃ t, exec (.convert rng enc dmm) s = .next t ∧ Succeeded s t (BitVec.ofNat 32 (3 * w * h)) 0 0 0 false
      ∧ OnlyWrote s t (operand s 2) (3 * w * h)
      ∧ ∀ x y j b, x < w → y < h → j < 3 → b = operand s 0 + y * st →
          (d.handler = .rgbCopy3 → t.mem.read (operand s 2 + 3 * (y * w + x) + j) = s.mem.read (b + 3 * x + j))
          ∧ (d.handler = .rgbRev3 →
              t.mem.read (operand s 2 + 3 * (y * w + x) + j) = s.mem.read (b + 3 * x + (2 - j)))
          ∧ (d.handler = .rgbDrop4 → t.mem.read (operand s 2 + 3 * (y * w + x) + j) = s.mem.read (b + 4 * x + j))
          ∧ (d.handler = .rgbDrop4Rev →
              t.mem.read (operand s 2 + 3 * (y * w + x) + j) = s.mem.read (b + 4 * x + (2 - j)))
          ∧ (d.handler = .rgb2101010 →
              (t.mem.read (operand s 2 + 3 * (y * w + x) + j)).toNat
                = s.mem.readLE (b + 4 * x) 4 / 2 ^ (20 - 10 * j) % 1024 / 4)

/-- R124 with R90 to R93: CONVERT of a YUV format whose rows hold what its handler reads. -/
def Obligations.ConvertYuvExtractsAndTransforms : Prop :=
  ∀ (s : State) (rng : RngField) (enc : EncField) (dmm : DmmField) (r : VideoRange) (d : Descriptor)
    (w h st : Nat), w = operand s 5 → h = operand s 6 → ConvertReady s d st → d.colour = .yuv → (plane d 0).vs = 1 →
    (rng = .limited ∧ r = .limited ∨ rng = .full ∧ r = .full) →
    (d.handler = .luma → w ≤ naturalStride d w 0 →
      ∃ t, exec (.convert rng enc dmm) s = .next t ∧ Succeeded s t (BitVec.ofNat 32 (3 * w * h)) 0 0 0 false
        ∧ OnlyWrote s t (operand s 2) (3 * w * h)
        ∧ ∀ x y j, x < w → y < h → j < 3 →
            (t.mem.read (operand s 2 + 3 * (y * w + x) + j)).toNat
              = lumaOnly r (s.mem.read (operand s 0 + y * st + x)))
    ∧ ∀ e : Standard, (enc = .bt601 ∧ e = .bt601 ∨ enc = .bt709 ∧ e = .bt709 ∨ enc = .bt2020 ∧ e = .bt2020) →
      (∀ (o : Nat), (d.handler = .p422Yuyv ∧ o = 0 ∨ d.handler = .p422Uyvy ∧ o = 1) →
        (w + 1) / 2 * 4 ≤ naturalStride d w 0 →
        ∃ t, exec (.convert rng enc dmm) s = .next t ∧ Succeeded s t (BitVec.ofNat 32 (3 * w * h)) 0 0 0 false
          ∧ OnlyWrote s t (operand s 2) (3 * w * h)
          ∧ ∀ x y g, x < w → y < h → g = operand s 0 + y * st + 4 * (x / 2) →
            ∀ j ch, (j, ch) ∈ [(0, Channel.b), (1, .g), (2, .r)] →
              t.mem.read (operand s 2 + 3 * (y * w + x) + j)
                = BitVec.ofNat 8 (cscChannel s.config e r ch (s.mem.read (g + o + 2 * (x % 2)))
                    (s.mem.read (g + 1 - o)) (s.mem.read (g + 3 - o))))
      ∧ (∀ hs vs, d.handler = .spCbcr → 2 ≤ nplanes d → hs = (plane d 1).hs → vs = (plane d 1).vs → 1 ≤ vs →
        w ≤ naturalStride d w 0 → (∀ x, x < w → 2 * (x / hs) + 1 < naturalStride d w 1) →
        ∃ t, exec (.convert rng enc dmm) s = .next t ∧ Succeeded s t (BitVec.ofNat 32 (3 * w * h)) 0 0 0 false
          ∧ OnlyWrote s t (operand s 2) (3 * w * h)
          ∧ ∀ x y q, x < w → y < h →
            q = operand s 0 + st * h + (y / vs) * naturalStride d w 1 + 2 * (x / hs) →
            ∀ j ch, (j, ch) ∈ [(0, Channel.b), (1, .g), (2, .r)] →
              t.mem.read (operand s 2 + 3 * (y * w + x) + j)
                = BitVec.ofNat 8 (cscChannel s.config e r ch (s.mem.read (operand s 0 + y * st + x))
                    (s.mem.read q) (s.mem.read (q + 1))))

/-- R125 with R95: CONVERT of a RAW format whose rows hold w samples of its depth. DZC is set exactly for grids of one
row or one column (R108). -/
def Obligations.ConvertRawUnpacksDemosaicsAndShifts : Prop :=
  ∀ (s : State) (rng : RngField) (enc : EncField) (dmm : DmmField) (m : Method) (d : Descriptor) (p : Pattern)
    (depth : Depth) (w h st : Nat), w = operand s 5 → h = operand s 6 → ConvertReady s d st → d.colour = .raw →
    d.handler = .raw → d.pattern = some p → nplanes d = 1 → (plane d 0).vs = 1 →
    d.bits ∈ [8, 10, 12, 16] →
    (d.packed = true ∧ d.bits = 10 ∧ (plane d 0).bpg = 5 ∧ (plane d 0).ppg = 4 ∧ depth = .d10
      ∨ d.packed = true ∧ d.bits = 12 ∧ (plane d 0).bpg = 3 ∧ (plane d 0).ppg = 2 ∧ depth = .d12
      ∨ d.packed = false ∧ 1 ≤ (plane d 0).ppg ∧ (plane d 0).bpg = (plane d 0).ppg ∧ depth = .d8
      ∨ d.packed = false ∧ 1 ≤ (plane d 0).ppg ∧ (plane d 0).bpg = 2 * (plane d 0).ppg ∧ depth = .d16) →
    (dmm = .window3x3 ∧ m = .window3x3 ∨ dmm = .bilinear ∧ m = .bilinear) →
    ∃ t, exec (.convert rng enc dmm) s = .next t
      ∧ Succeeded s t (BitVec.ofNat 32 (3 * w * h)) 0 0 0 (decide (1 ≤ w ∧ 1 ≤ h ∧ (w = 1 ∨ h = 1)))
      ∧ OnlyWrote s t (operand s 2) (3 * w * h)
      ∧ ∀ x y, x < w → y < h → ∀ j c, (j, c) ∈ [(0, Channel.b), (1, .g), (2, .r)] →
          (t.mem.read (operand s 2 + 3 * (y * w + x) + j)).toNat
            = demosaicAt m p
                (fun i k => unpackSample depth (fun n => (s.mem.read (operand s 0 + k * st + n)).toNat) i) w h c x y
              / 2 ^ (d.bits - 8) % 256

/-- R122: CONVERT reports the first of its checks that fails (the buffer checks in the order of R122, the path checks
after them). -/
def Obligations.ConvertReportsTheFirstFailingCheck : Prop :=
  ∀ (s : State) (rng : RngField) (enc : EncField) (dmm : DmmField) (o : Host.Outcome State Fault Refusal),
    o = exec (.convert rng enc dmm) s →
    (s.config.catalog[operand s 4]? = none → EndsWith o s 1)
    ∧ ∀ d w h bpl ns nd, s.config.catalog[operand s 4]? = some d → w = operand s 5 → h = operand s 6 →
      bpl = operand s 7 →
      ns = (if bpl = 0 then frameSizeOf d w h 1 else bpl * (h / (plane d 0).vs)) → nd = 3 * w * h →
      (1 < nplanes d ∧ bpl ≠ 0 → EndsWith o s 3)
      ∧ (¬ (1 < nplanes d ∧ bpl ≠ 0) →
        (bpl ≠ 0 ∧ bpl < naturalStride d w 0 → EndsWith o s 4)
        ∧ (¬ (bpl ≠ 0 ∧ bpl < naturalStride d w 0) →
          ((∃ q ∈ d.planes, h % q.vs ≠ 0) → EndsWith o s 9)
          ∧ ((∀ q ∈ d.planes, h % q.vs = 0) →
            (2 ^ 32 < operand s 0 + operand s 1 ∨ 2 ^ 32 < operand s 2 + operand s 3 ∨ 2 ^ 32 ≤ ns ∨ 2 ^ 32 ≤ nd →
              EndsWith o s 9)
            ∧ (operand s 0 + operand s 1 ≤ 2 ^ 32 → operand s 2 + operand s 3 ≤ 2 ^ 32 → ns < 2 ^ 32 → nd < 2 ^ 32 →
              (operand s 1 < ns ∨ operand s 3 < nd → EndsWith o s 5)
              ∧ (ns ≤ operand s 1 → nd ≤ operand s 3 →
                (∀ a, inRange ⟨operand s 0, ns⟩ a = true → inRange ⟨operand s 2, nd⟩ a = true → EndsWith o s 9)
                ∧ ((∀ a, ¬ (inRange ⟨operand s 0, ns⟩ a = true ∧ inRange ⟨operand s 2, nd⟩ a = true)) →
                  (d.colour = .undefined ∨ d.handler = .none ∨ family d.handler ≠ some d.colour → EndsWith o s 3)
                  ∧ (d.colour = .yuv → d.handler = .luma → (rng = .reserved2 ∨ rng = .reserved3) → EndsWith o s 9)
                  ∧ (d.colour = .yuv → (d.handler = .p422Yuyv ∨ d.handler = .p422Uyvy ∨ d.handler = .spCbcr) →
                      (rng = .reserved2 ∨ rng = .reserved3 ∨ enc = .reserved3) → EndsWith o s 9)
                  ∧ (d.colour = .raw → d.handler = .raw →
                      (d.bits ∉ [8, 10, 12, 16] ∨ d.pattern = none ∨ nplanes d ≠ 1
                        ∨ (d.packed = true ∧ ¬ (d.bits = 10 ∧ (plane d 0).bpg = 5 ∧ (plane d 0).ppg = 4)
                            ∧ ¬ (d.bits = 12 ∧ (plane d 0).bpg = 3 ∧ (plane d 0).ppg = 2))
                        ∨ (d.packed = false ∧ (plane d 0).bpg ≠ (plane d 0).ppg
                            ∧ (plane d 0).bpg ≠ 2 * (plane d 0).ppg)) → EndsWith o s 6)
                  ∧ (d.colour = .raw → d.handler = .raw → (rawSource d).isSome = true →
                      (dmm = .reserved2 ∨ dmm = .reserved3) → EndsWith o s 8)))))))

/-! ### Races and ordering -/

/-- R43: after a host write into the read range of the running command every byte of its write range is unspecified,
and so are the results of FIND_NAME and FOURCC_ENC; after a host write into its write range the bytes written are. The
model's choices here: that a raced FOURCC_ENC succeeds, that a raced FIND_NAME ends in success or in FormatNotFound, and
that RESULT1..RESULT3 are then 0 (log entry 15); that a race takes effect at the command's completion (log entry 16). -/
def Obligations.RacesLeaveTheWriteRangeUnspecified : Prop :=
  ∀ (i : Instr) (s : State) (p : Plan) (a n : Nat), s.mem.wf = true → planOf i s = .ok p →
    BusAccepts s .read p.rd.base p.rd.len → BusAccepts s .write p.wr.base p.wr.len →
    (.wroteReadRange a n ∈ s.races → i ≠ .fmtInfo →
      ∃ t, exec i s = .next t
        ∧ (∀ k, k < p.wr.len → t.mem.read (p.wr.base + k) = Config.freeByte (s.draws + k))
        ∧ (i = .fourccEnc → Succeeded s t (Config.freeWord s.draws) 0 0 0 false)
        ∧ (i = .findName → if Config.freeBit s.draws then Succeeded s t (Config.freeWord s.draws) 0 0 0 false
            else Failed s t 1))
    ∧ (.wroteWriteRange a n ∈ s.races → i ≠ .fmtInfo →
      ∃ t, exec i s = .next t
        ∧ ∀ k, k < p.wr.len → a ≤ p.wr.base + k → p.wr.base + k < a + n →
            t.mem.read (p.wr.base + k) = Config.freeByte (s.draws + k))

/-- R43, with R63's `mw` and `mr` and R41's visibility, while IDLE and while BUSY. A host write lands, changes no other
byte, waits for a `clean` on a platform that is not coherent, and is a race exactly where it meets a range of the running
command. A host read while BUSY returns memory's bytes but for an unspecified value in the write range. The model's
choices here: a racing write lands at once and a racing read changes no byte (log entry 16); the ranges of a command
whose checks will fail are those its rule gives, as far as the memory space goes (log entry 8); the list `unseen` (log
entry 9). -/
def Obligations.HostAccessesRaceOnlyTheRunningRanges : Prop :=
  ∀ (s : State), s.mem.wf = true →
    (∀ (a : Nat) (bs : List Byte), a + bs.length ≤ 2 ^ 32 →
      ∃ t, hostOp (.mw a bs) s = .next t ∧ OnlyWrote s t a bs.length
        ∧ (∀ k (hk : k < bs.length), t.mem.read (a + k) = bs[k])
        ∧ (.wroteReadRange a bs.length ∈ t.races ↔ .wroteReadRange a bs.length ∈ s.races
            ∨ ∃ x, inRange ⟨a, bs.length⟩ x = true ∧ inRange (runningPlan s).rd x = true)
        ∧ (.wroteWriteRange a bs.length ∈ t.races ↔ .wroteWriteRange a bs.length ∈ s.races
            ∨ ∃ x, inRange ⟨a, bs.length⟩ x = true ∧ inRange (runningPlan s).wr x = true)
        ∧ (s.phase = .idle → t.races = s.races)
        ∧ t.unseen = (if s.config.coherent then s.unseen else ⟨a, bs.length⟩ :: s.unseen)
        ∧ t = { s with mem := t.mem, races := t.races, unseen := t.unseen })
    ∧ (s.phase = .busy → s.unordered = [] → s.config.readHazards = [] → ∀ (a n : Nat), a + n ≤ 2 ^ 32 →
      ∃ t, hostOp (.mr a n) s = .next t ∧ t.mem = s.mem ∧ t.lastRead.length = n
        ∧ ∀ k, k < n → t.lastRead[k]? = some
            (if inRange (runningPlan s).wr (a + k) then Config.freeByte (s.draws + k) else s.mem.read (a + k)))

/-- R42: a STATUS read that shows BUSY = 0 orders the engine's writes before the host reads that follow: a host read
then returns memory's bytes. -/
def Obligations.StatusReadOrdersEngineWrites : Prop :=
  ∀ (s t : State) (a n : Nat), s.phase = .idle → s.config.readHazards = [] → a + n ≤ 2 ^ 32 →
    hostOp (.rd .status) s = .next t →
    t.acc.getLsbD 0 = false ∧ t.mem = s.mem
      ∧ ∃ u, hostOp (.mr a n) t = .next u ∧ u.mem = t.mem ∧ u.lastRead = s.mem.bytes a n

/-! ### Decoding, steps and the host's notation -/

/-- R63: the host's control flow. A taken branch goes to the operation that is its label, the first of them where
several are (the model's choice, log entry 22); a branch not taken and a label do nothing; after `halt`, as after the
last operation, the host does nothing more. -/
def Obligations.HostControlFlowFollowsItsNotation : Prop :=
  ∀ (s : State) (m : Word) (l k : Nat), s.hostProg[k]? = some (.label l) →
    (∀ g, g < k → s.hostProg[g]? ≠ some (.label l)) →
    (s.acc &&& m ≠ 0 → hostOp (.bnz m l) s = .next { s with hostPc := k } ∧ hostOp (.bz m l) s = .next s)
    ∧ (s.acc &&& m = 0 → hostOp (.bnz m l) s = .next s ∧ hostOp (.bz m l) s = .next { s with hostPc := k })
    ∧ hostOp (.jmp l) s = .next { s with hostPc := k } ∧ hostOp (.label l) s = .next s
    ∧ ∃ t, hostOp .halt s = .next t ∧ t.mem = s.mem ∧ t.acc = s.acc ∧ t.results = s.results
        ∧ (s.phase = .idle → step t = .next t)

/-- The model's step, over R15, R20, R21, R28 and R130. Whose turn a step is, and the countdown of `wait`, are the
model's choices (log entries 23 and 5), and so is withFetchWord (log entry 6). The step at a running command whose time
has come runs the instruction its snapshot decodes to, with nothing around it; until then, and while ENGINE is IDLE, a
step is the host's next operation. withFetchWord makes a word the one the next step runs. -/
def Obligations.StepRunsTheDecodedCommand : Prop :=
  (∀ (s : State) (i : Instr), s.phase = .busy → s.wait = 0 → decode s.snapC = .ok i → step s = exec i s)
  ∧ (∀ (s : State) (o : HostOp), s.phase = .idle → s.hostProg[s.hostPc]? = some o →
      step s = hostOp o { s with hostPc := s.hostPc + 1 })
  ∧ (∀ (s : State) (o : HostOp) (n : Nat), s.phase = .busy → s.wait = n + 1 → s.hostProg[s.hostPc]? = some o →
      step s = hostOp o { s with wait := n, hostPc := s.hostPc + 1 })
  ∧ (∀ (s : State) (w : Word) (i : Instr), decode w = .ok i →
      step (s.withFetchWord 32 w.toNat) = exec i (s.withFetchWord 32 w.toNat)
        ∧ (s.withFetchWord 32 w.toNat).snapA = s.args ∧ (s.withFetchWord 32 w.toNat).mem = s.mem)

/-- Words written out from R52, R53 and the command words of spec/95_test_vectors.md. -/
def Obligations.StatedCommandWordsDecode : Prop :=
  decode 0x0000000A = .ok .frameSize ∧ decode 0x00000108 = .ok (.stride 1) ∧ decode 0x00000205 = .ok (.planeInfo 2)
    ∧ decode 0x00010012 = .ok (.demosaic .bilinear) ∧ decode 0x00005013 = .ok (.csc .full .bt709)
    ∧ decode 0x00010010 = .ok (.convert .limited .bt601 .bilinear) ∧ decode 0xFFFC0004 = .ok .fmtInfo
    ∧ decode 0x00000006 = .error (.reservedOpcode 6)

/-- R52 to R59 and R62: a word decodes to an instruction exactly when the instruction is well-formed and the word, on
the bits the instruction reads, is its encoding; so decoding inverts encoding, and no other bit matters. -/
def Obligations.DecodeInvertsEncodeOnTheBitsRead : Prop :=
  (∀ (w : Word) (i : Instr), decode w = .ok i ↔ i.wellFormed = true ∧ w &&& i.readBits = encode i)
  ∧ ∀ i : Instr, i.wellFormed = true → decode (encode i) = .ok i

/-- R20, R21 and R145: whatever the host does short of a reset, a running command keeps its snapshot and gets its turn.
That it does so after exactly `wait` steps is the model's choice (the turns of log entry 23, the times of log entry 5):
R145 says only that the time is finite. -/
def Obligations.RunningCommandGetsItsTurnUndisturbed : Prop :=
  ∀ (s t : State), s.phase = .busy → HostOp.reset ∉ s.hostProg → Sys2Proof.core.run s.wait s = .next t →
    t.phase = .busy ∧ t.wait = 0 ∧ t.snapC = s.snapC ∧ t.snapA = s.snapA ∧ t.cmd = s.cmd ∧ t.results = s.results
      ∧ t.errcode = s.errcode

/-- R27: no step changes the catalog or any other parameter. R23, R25, R130, R131 and R140: RESULT0..RESULT3 change only
at a completion or a reset, ERRCODE only there or at a start. That a completion is the step of a running command with
`wait` = 0 is the model's choice (log entry 5). -/
def Obligations.StepsKeepTheCatalogAndTheResults : Prop :=
  ∀ s t : State, step s = .next t → t.config = s.config
    ∧ (t.results ≠ s.results →
        s.phase = .busy ∧ s.wait = 0 ∧ t.phase = .idle ∨ s.hostProg[s.hostPc]? = some .reset)
    ∧ (t.errcode ≠ s.errcode →
        s.phase = .busy ∧ s.wait = 0 ∧ t.phase = .idle ∨ s.phase = .idle ∧ t.phase = .busy
          ∨ s.hostProg[s.hostPc]? = some .reset)

/-- The invariant of Safety.lean holds after every step from every state in which it holds. -/
def Obligations.EveryStepKeepsTheInvariant : Prop :=
  ∀ s t : State, Inv s → step s = .next t → Inv t
end

