-- ==== Sys2Proof/Laws/Memory.lean ====
section
/-! SUPPORT. Memory: a read after a write, the canonical form and the memory space under every operation, little-endian
reads. -/

namespace Sys2Proof.Machine

theorem Memory.read_write_same (m : Memory) (a : Nat) (b : Byte) (lo : Nat) (h : Memory.wfFrom lo m = true) :
    (m.write a b).read a = b := by
  induction m generalizing lo with
  | nil => by_cases hb : b = Memory.unlisted <;> simp [Memory.write, Memory.read, hb]
  | cons c m ih =>
    obtain ⟨k, v⟩ := c
    simp only [Memory.wfFrom, Bool.and_eq_true, decide_eq_true_eq] at h
    have key : ∀ (m : Memory) (lo : Nat), Memory.wfFrom lo m = true → ∀ x, x < lo → m.read x = Memory.unlisted := by
      intro m
      induction m with
      | nil => intros; rfl
      | cons c m ih =>
        obtain ⟨k, v⟩ := c
        intro lo h x hx
        simp only [Memory.wfFrom, Bool.and_eq_true, decide_eq_true_eq] at h
        rw [Memory.read, if_neg (by omega), ih (k + 1) h.2 x (by omega)]
    simp only [Memory.write]
    split
    · split
      · rename_i hk hb
        rw [Memory.read, if_neg (by omega), key m _ h.2 a (by omega), hb]
      · simp [Memory.read]
    · split
      · split
        · rename_i hk hb
          rw [key m _ h.2 a (by omega), hb]
        · simp [Memory.read]
      · rw [Memory.read, if_neg (by omega), ih _ h.2]

theorem Memory.read_write_other (m : Memory) (a x : Nat) (b : Byte) (h : x ≠ a) :
    (m.write a b).read x = m.read x := by
  induction m with
  | nil => by_cases hb : b = Memory.unlisted <;> simp [Memory.write, Memory.read, hb, h.symm]
  | cons c m ih =>
    obtain ⟨k, v⟩ := c
    simp only [Memory.write]
    split
    · split <;> simp [Memory.read, h.symm]
    · split
      · rename_i _ hk
        subst hk
        split <;> simp [Memory.read, h.symm]
      · simp only [Memory.read, ih]

theorem Memory.wfFrom_mono {m : Memory} {lo lo' : Nat} (hle : lo' ≤ lo) (h : Memory.wfFrom lo m = true) :
    Memory.wfFrom lo' m = true := by
  cases m with
  | nil => rfl
  | cons c m =>
    simp only [Memory.wfFrom, Bool.and_eq_true, decide_eq_true_eq] at h ⊢
    exact ⟨⟨by omega, h.1.2⟩, h.2⟩

theorem Memory.wfFrom_write (m : Memory) (a : Nat) (b : Byte) (lo : Nat) (hlo : lo ≤ a)
    (h : Memory.wfFrom lo m = true) : Memory.wfFrom lo (m.write a b) = true := by
  induction m generalizing lo with
  | nil => by_cases hb : b = Memory.unlisted <;> simp [Memory.write, Memory.wfFrom, hb, hlo]
  | cons c m ih =>
    obtain ⟨k, v⟩ := c
    have h0 := h
    simp only [Memory.wfFrom, Bool.and_eq_true, decide_eq_true_eq] at h
    obtain ⟨⟨h1, h2⟩, h3⟩ := h
    simp only [Memory.write]
    split
    · split
      · exact h0
      · simp only [Memory.wfFrom, Bool.and_eq_true, decide_eq_true_eq]
        exact ⟨⟨hlo, ‹_›⟩, ⟨by omega, h2⟩, h3⟩
    · split
      · split
        · exact Memory.wfFrom_mono (by omega) h3
        · simp only [Memory.wfFrom, Bool.and_eq_true, decide_eq_true_eq]
          refine ⟨⟨hlo, ‹_›⟩, ?_⟩
          rename_i _ hk _
          rw [hk]
          exact h3
      · simp only [Memory.wfFrom, Bool.and_eq_true, decide_eq_true_eq]
        exact ⟨⟨h1, h2⟩, ih (k + 1) (by omega) h3⟩

/-- A write keeps the canonical form. -/
theorem Memory.wf_write {m : Memory} (a : Nat) (b : Byte) (h : m.wf = true) : (m.write a b).wf = true :=
  Memory.wfFrom_write m a b 0 (Nat.zero_le a) h

theorem Memory.inSpace_write {m : Memory} {a : Nat} (b : Byte) (ha : a < limit32) (h : m.inSpace = true) :
    (m.write a b).inSpace = true := by
  induction m with
  | nil => by_cases hb : b = Memory.unlisted <;> simp [Memory.write, Memory.inSpace, hb, ha]
  | cons c m ih =>
    obtain ⟨k, v⟩ := c
    simp only [Memory.inSpace, List.all_cons, Bool.and_eq_true, decide_eq_true_eq] at h ih ⊢
    simp only [Memory.write]
    split
    · split <;> simp [h.1, h.2, ha]
    · split
      · split <;> simp [h.2, ha]
      · simp [h.1, ih h.2]

/-- A fill keeps the canonical form. -/
theorem Memory.wf_fill {m : Memory} (a n : Nat) (f : Nat → Byte) (h : m.wf = true) : (m.fill a n f).wf = true := by
  induction n with
  | zero => exact h
  | succ n ih => exact Memory.wf_write _ _ ih

theorem Memory.inSpace_fill {m : Memory} {a n : Nat} (f : Nat → Byte) (ha : a + n ≤ limit32)
    (h : m.inSpace = true) : (m.fill a n f).inSpace = true := by
  induction n with
  | zero => exact h
  | succ n ih => exact Memory.inSpace_write _ (by omega) (ih (by omega))

/-- Everything a fill does to a read, in a canonical memory. -/
theorem Memory.read_fill {m : Memory} (a n : Nat) (f : Nat → Byte) (h : m.wf = true) (x : Nat) :
    (m.fill a n f).read x = if a ≤ x ∧ x < a + n then f (x - a) else m.read x := by
  induction n with
  | zero => rw [if_neg (by omega)]; rfl
  | succ n ih =>
    rw [Memory.fill]
    by_cases hx : x = a + n
    · subst hx
      rw [Memory.read_write_same _ _ _ 0 (Memory.wf_fill a n f h), if_pos (by omega)]
      congr 1
      omega
    · rw [Memory.read_write_other _ _ _ _ hx, ih]
      by_cases hin : a ≤ x ∧ x < a + n
      · rw [if_pos hin, if_pos (by omega)]
      · rw [if_neg hin, if_neg (by omega)]

/-- A fill leaves every byte outside its range alone, in any memory. -/
theorem Memory.read_fill_outside (m : Memory) (a n : Nat) (f : Nat → Byte) (x : Nat) (hx : ¬ (a ≤ x ∧ x < a + n)) :
    (m.fill a n f).read x = m.read x := by
  induction n with
  | zero => rfl
  | succ n ih => rw [Memory.fill, Memory.read_write_other _ _ _ _ (by omega), ih (by omega)]

theorem Memory.read_fill_inside {m : Memory} {a n k : Nat} (f : Nat → Byte) (h : m.wf = true) (hk : k < n) :
    (m.fill a n f).read (a + k) = f k := by
  rw [Memory.read_fill a n f h, if_pos (by omega)]
  congr 1
  omega

theorem Memory.readLE_congr {m m' : Memory} {a n : Nat} (h : ∀ x, a ≤ x → x < a + n → m.read x = m'.read x) :
    m.readLE a n = m'.readLE a n := by
  induction n with
  | zero => rfl
  | succ n ih => rw [Memory.readLE, Memory.readLE, ih (fun x h1 h2 => h x h1 (by omega)), h (a + n) (by omega) (by omega)]

theorem Memory.readLE_two (m : Memory) (a : Nat) :
    m.readLE a 2 = (m.read a).toNat + (m.read (a + 1)).toNat * 256 := by
  simp [Memory.readLE, Nat.shiftLeft_eq]

theorem or_shiftLeft {a k : Nat} (b : Nat) (h : a < 2 ^ k) : a ||| b <<< k = a + b * 2 ^ k := by
  rw [Nat.or_comm, ← Nat.shiftLeft_add_eq_or_of_lt h, Nat.shiftLeft_eq, Nat.add_comm]

theorem shiftLeft_or {a k : Nat} (b : Nat) (h : a < 2 ^ k) : b <<< k ||| a = b * 2 ^ k + a := by
  rw [← Nat.shiftLeft_add_eq_or_of_lt h, Nat.shiftLeft_eq]

/-- A four-byte read as the fourcc packing (R11, R78). -/
theorem Memory.readLE_four (m : Memory) (a : Nat) :
    m.readLE a 4 = (m.read a).toNat ||| (m.read (a + 1)).toNat <<< 8 ||| (m.read (a + 2)).toNat <<< 16
      ||| (m.read (a + 3)).toNat <<< 24 := by
  have h0 := (m.read a).isLt
  have h1 := (m.read (a + 1)).isLt
  have h2 := (m.read (a + 2)).isLt
  rw [or_shiftLeft _ (show _ < 2 ^ 8 by omega), or_shiftLeft _ (show _ < 2 ^ 16 by omega),
    or_shiftLeft _ (show _ < 2 ^ 24 by omega)]
  simp only [Memory.readLE, Nat.shiftLeft_eq, Nat.add_zero]
  norm_num

theorem Memory.readLE_lt (m : Memory) (a n : Nat) : m.readLE a n < 2 ^ (8 * n) := by
  induction n with
  | zero => simp [Memory.readLE]
  | succ n ih =>
    have hb := (m.read (a + n)).isLt
    rw [Memory.readLE, Nat.shiftLeft_eq, Nat.mul_add, Nat.pow_add, show 8 * 1 = 8 from rfl]
    nlinarith

theorem byteAt_toNat (v i : Nat) : (byteAt v i).toNat = v / 2 ^ (8 * i) % 256 := by
  simp [byteAt, Nat.shiftRight_eq_div_pow]

/-- Reading back a little-endian value that a fill wrote. -/
theorem Memory.readLE_of_bytes {m : Memory} {a v : Nat} (n : Nat) (h : ∀ k, k < n → m.read (a + k) = byteAt v k) :
    m.readLE a n = v % 2 ^ (8 * n) := by
  induction n with
  | zero => simp [Memory.readLE, Nat.mod_one]
  | succ n ih =>
    rw [Memory.readLE, ih (fun k hk => h k (by omega)), h n (by omega), byteAt_toNat, Nat.shiftLeft_eq, Nat.mul_add,
      Nat.pow_add, show (2 : Nat) ^ (8 * 1) = 256 from rfl, Nat.mod_mul, Nat.mul_comm (v / 2 ^ (8 * n) % 256)]

theorem Memory.bytes_congr {m m' : Memory} {a n : Nat} (h : ∀ x, a ≤ x → x < a + n → m.read x = m'.read x) :
    m.bytes a n = m'.bytes a n := by
  unfold Memory.bytes
  exact List.map_congr_left fun i hi => h _ (by omega) (by have := List.mem_range.1 hi; omega)

end Sys2Proof.Machine
end

