-- ==== Sys2Proof/Laws/State.lean ====
section
/-! SUPPORT. One lemma for each field and each named update of State, so that no proof unfolds a record update. -/

namespace Sys2Proof.Machine

@[simp] theorem complete_config (r0 r1 r2 r3 : Nat) (z : Bool) (s : State) : (complete r0 r1 r2 r3 z s).config = s.config := rfl
@[simp] theorem complete_phase (r0 r1 r2 r3 : Nat) (z : Bool) (s : State) : (complete r0 r1 r2 r3 z s).phase = .idle := rfl
@[simp] theorem complete_cmd (r0 r1 r2 r3 : Nat) (z : Bool) (s : State) : (complete r0 r1 r2 r3 z s).cmd = s.cmd := rfl
@[simp] theorem complete_done (r0 r1 r2 r3 : Nat) (z : Bool) (s : State) : (complete r0 r1 r2 r3 z s).done = true := rfl
@[simp] theorem complete_err (r0 r1 r2 r3 : Nat) (z : Bool) (s : State) : (complete r0 r1 r2 r3 z s).err = false := rfl
@[simp] theorem complete_dzc (r0 r1 r2 r3 : Nat) (z : Bool) (s : State) : (complete r0 r1 r2 r3 z s).dzc = (s.dzc || z) := rfl
@[simp] theorem complete_cmdlost (r0 r1 r2 r3 : Nat) (z : Bool) (s : State) : (complete r0 r1 r2 r3 z s).cmdlost = s.cmdlost := rfl
@[simp] theorem complete_errcode (r0 r1 r2 r3 : Nat) (z : Bool) (s : State) : (complete r0 r1 r2 r3 z s).errcode = 0 := rfl
@[simp] theorem complete_args (r0 r1 r2 r3 : Nat) (z : Bool) (s : State) : (complete r0 r1 r2 r3 z s).args = s.args := rfl
@[simp] theorem complete_results (r0 r1 r2 r3 : Nat) (z : Bool) (s : State) : (complete r0 r1 r2 r3 z s).results = resultsOf r0 r1 r2 r3 := rfl
@[simp] theorem complete_snapC (r0 r1 r2 r3 : Nat) (z : Bool) (s : State) : (complete r0 r1 r2 r3 z s).snapC = s.snapC := rfl
@[simp] theorem complete_snapA (r0 r1 r2 r3 : Nat) (z : Bool) (s : State) : (complete r0 r1 r2 r3 z s).snapA = s.snapA := rfl
@[simp] theorem complete_mem (r0 r1 r2 r3 : Nat) (z : Bool) (s : State) : (complete r0 r1 r2 r3 z s).mem = s.mem := rfl
@[simp] theorem complete_acc (r0 r1 r2 r3 : Nat) (z : Bool) (s : State) : (complete r0 r1 r2 r3 z s).acc = s.acc := rfl
@[simp] theorem complete_hostProg (r0 r1 r2 r3 : Nat) (z : Bool) (s : State) : (complete r0 r1 r2 r3 z s).hostProg = s.hostProg := rfl
@[simp] theorem complete_hostPc (r0 r1 r2 r3 : Nat) (z : Bool) (s : State) : (complete r0 r1 r2 r3 z s).hostPc = s.hostPc := rfl
@[simp] theorem complete_lastRead (r0 r1 r2 r3 : Nat) (z : Bool) (s : State) : (complete r0 r1 r2 r3 z s).lastRead = s.lastRead := rfl
@[simp] theorem complete_wait (r0 r1 r2 r3 : Nat) (z : Bool) (s : State) : (complete r0 r1 r2 r3 z s).wait = s.wait := rfl
@[simp] theorem complete_delays (r0 r1 r2 r3 : Nat) (z : Bool) (s : State) : (complete r0 r1 r2 r3 z s).delays = s.delays := rfl
@[simp] theorem complete_races (r0 r1 r2 r3 : Nat) (z : Bool) (s : State) : (complete r0 r1 r2 r3 z s).races = s.races := rfl
@[simp] theorem complete_unordered (r0 r1 r2 r3 : Nat) (z : Bool) (s : State) : (complete r0 r1 r2 r3 z s).unordered = s.unordered := rfl
@[simp] theorem complete_unseen (r0 r1 r2 r3 : Nat) (z : Bool) (s : State) : (complete r0 r1 r2 r3 z s).unseen = s.unseen := rfl
@[simp] theorem complete_draws (r0 r1 r2 r3 : Nat) (z : Bool) (s : State) : (complete r0 r1 r2 r3 z s).draws = s.draws := rfl

@[simp] theorem raiseError_config (e : CmdError) (s : State) : (raiseError e s).config = s.config := rfl
@[simp] theorem raiseError_phase (e : CmdError) (s : State) : (raiseError e s).phase = .idle := rfl
@[simp] theorem raiseError_cmd (e : CmdError) (s : State) : (raiseError e s).cmd = s.cmd := rfl
@[simp] theorem raiseError_done (e : CmdError) (s : State) : (raiseError e s).done = true := rfl
@[simp] theorem raiseError_err (e : CmdError) (s : State) : (raiseError e s).err = true := rfl
@[simp] theorem raiseError_dzc (e : CmdError) (s : State) : (raiseError e s).dzc = s.dzc := rfl
@[simp] theorem raiseError_cmdlost (e : CmdError) (s : State) : (raiseError e s).cmdlost = s.cmdlost := rfl
@[simp] theorem raiseError_errcode (e : CmdError) (s : State) : (raiseError e s).errcode = BitVec.ofNat 32 (errorCode e) := rfl
@[simp] theorem raiseError_args (e : CmdError) (s : State) : (raiseError e s).args = s.args := rfl
@[simp] theorem raiseError_results (e : CmdError) (s : State) : (raiseError e s).results = resultsOf 0 0 0 0 := rfl
@[simp] theorem raiseError_snapC (e : CmdError) (s : State) : (raiseError e s).snapC = s.snapC := rfl
@[simp] theorem raiseError_snapA (e : CmdError) (s : State) : (raiseError e s).snapA = s.snapA := rfl
@[simp] theorem raiseError_mem (e : CmdError) (s : State) : (raiseError e s).mem = s.mem := rfl
@[simp] theorem raiseError_acc (e : CmdError) (s : State) : (raiseError e s).acc = s.acc := rfl
@[simp] theorem raiseError_hostProg (e : CmdError) (s : State) : (raiseError e s).hostProg = s.hostProg := rfl
@[simp] theorem raiseError_hostPc (e : CmdError) (s : State) : (raiseError e s).hostPc = s.hostPc := rfl
@[simp] theorem raiseError_lastRead (e : CmdError) (s : State) : (raiseError e s).lastRead = s.lastRead := rfl
@[simp] theorem raiseError_wait (e : CmdError) (s : State) : (raiseError e s).wait = s.wait := rfl
@[simp] theorem raiseError_delays (e : CmdError) (s : State) : (raiseError e s).delays = s.delays := rfl
@[simp] theorem raiseError_races (e : CmdError) (s : State) : (raiseError e s).races = s.races := rfl
@[simp] theorem raiseError_unordered (e : CmdError) (s : State) : (raiseError e s).unordered = s.unordered := rfl
@[simp] theorem raiseError_unseen (e : CmdError) (s : State) : (raiseError e s).unseen = s.unseen := rfl
@[simp] theorem raiseError_draws (e : CmdError) (s : State) : (raiseError e s).draws = s.draws := rfl

@[simp] theorem writeOut_config (r : Range) (out : Nat → Byte) (s : State) : (writeOut r out s).config = s.config := rfl
@[simp] theorem writeOut_phase (r : Range) (out : Nat → Byte) (s : State) : (writeOut r out s).phase = s.phase := rfl
@[simp] theorem writeOut_cmd (r : Range) (out : Nat → Byte) (s : State) : (writeOut r out s).cmd = s.cmd := rfl
@[simp] theorem writeOut_done (r : Range) (out : Nat → Byte) (s : State) : (writeOut r out s).done = s.done := rfl
@[simp] theorem writeOut_err (r : Range) (out : Nat → Byte) (s : State) : (writeOut r out s).err = s.err := rfl
@[simp] theorem writeOut_dzc (r : Range) (out : Nat → Byte) (s : State) : (writeOut r out s).dzc = s.dzc := rfl
@[simp] theorem writeOut_cmdlost (r : Range) (out : Nat → Byte) (s : State) : (writeOut r out s).cmdlost = s.cmdlost := rfl
@[simp] theorem writeOut_errcode (r : Range) (out : Nat → Byte) (s : State) : (writeOut r out s).errcode = s.errcode := rfl
@[simp] theorem writeOut_args (r : Range) (out : Nat → Byte) (s : State) : (writeOut r out s).args = s.args := rfl
@[simp] theorem writeOut_results (r : Range) (out : Nat → Byte) (s : State) : (writeOut r out s).results = s.results := rfl
@[simp] theorem writeOut_snapC (r : Range) (out : Nat → Byte) (s : State) : (writeOut r out s).snapC = s.snapC := rfl
@[simp] theorem writeOut_snapA (r : Range) (out : Nat → Byte) (s : State) : (writeOut r out s).snapA = s.snapA := rfl
theorem writeOut_mem (r : Range) (out : Nat → Byte) (s : State) : (writeOut r out s).mem = s.mem.fill r.base r.len fun k =>
    if racedAt s (r.base + k) then Config.freeByte (s.draws + k) else out k := rfl
@[simp] theorem writeOut_acc (r : Range) (out : Nat → Byte) (s : State) : (writeOut r out s).acc = s.acc := rfl
@[simp] theorem writeOut_hostProg (r : Range) (out : Nat → Byte) (s : State) : (writeOut r out s).hostProg = s.hostProg := rfl
@[simp] theorem writeOut_hostPc (r : Range) (out : Nat → Byte) (s : State) : (writeOut r out s).hostPc = s.hostPc := rfl
@[simp] theorem writeOut_lastRead (r : Range) (out : Nat → Byte) (s : State) : (writeOut r out s).lastRead = s.lastRead := rfl
@[simp] theorem writeOut_wait (r : Range) (out : Nat → Byte) (s : State) : (writeOut r out s).wait = s.wait := rfl
@[simp] theorem writeOut_delays (r : Range) (out : Nat → Byte) (s : State) : (writeOut r out s).delays = s.delays := rfl
@[simp] theorem writeOut_races (r : Range) (out : Nat → Byte) (s : State) : (writeOut r out s).races = s.races := rfl
@[simp] theorem writeOut_unordered (r : Range) (out : Nat → Byte) (s : State) : (writeOut r out s).unordered = r :: s.unordered := rfl
@[simp] theorem writeOut_unseen (r : Range) (out : Nat → Byte) (s : State) : (writeOut r out s).unseen = s.unseen := rfl
@[simp] theorem writeOut_draws (r : Range) (out : Nat → Byte) (s : State) : (writeOut r out s).draws = (if s.races = [] then s.draws else s.draws + r.len) := rfl

@[simp] theorem spoil_config (r : Range) (s : State) : (spoil r s).config = s.config := rfl
@[simp] theorem spoil_phase (r : Range) (s : State) : (spoil r s).phase = s.phase := rfl
@[simp] theorem spoil_cmd (r : Range) (s : State) : (spoil r s).cmd = s.cmd := rfl
@[simp] theorem spoil_done (r : Range) (s : State) : (spoil r s).done = s.done := rfl
@[simp] theorem spoil_err (r : Range) (s : State) : (spoil r s).err = s.err := rfl
@[simp] theorem spoil_dzc (r : Range) (s : State) : (spoil r s).dzc = s.dzc := rfl
@[simp] theorem spoil_cmdlost (r : Range) (s : State) : (spoil r s).cmdlost = s.cmdlost := rfl
@[simp] theorem spoil_errcode (r : Range) (s : State) : (spoil r s).errcode = s.errcode := rfl
@[simp] theorem spoil_args (r : Range) (s : State) : (spoil r s).args = s.args := rfl
@[simp] theorem spoil_results (r : Range) (s : State) : (spoil r s).results = s.results := rfl
@[simp] theorem spoil_snapC (r : Range) (s : State) : (spoil r s).snapC = s.snapC := rfl
@[simp] theorem spoil_snapA (r : Range) (s : State) : (spoil r s).snapA = s.snapA := rfl
@[simp] theorem spoil_mem (r : Range) (s : State) : (spoil r s).mem = s.mem.fill r.base r.len fun k => Config.freeByte (s.draws + k) := rfl
@[simp] theorem spoil_acc (r : Range) (s : State) : (spoil r s).acc = s.acc := rfl
@[simp] theorem spoil_hostProg (r : Range) (s : State) : (spoil r s).hostProg = s.hostProg := rfl
@[simp] theorem spoil_hostPc (r : Range) (s : State) : (spoil r s).hostPc = s.hostPc := rfl
@[simp] theorem spoil_lastRead (r : Range) (s : State) : (spoil r s).lastRead = s.lastRead := rfl
@[simp] theorem spoil_wait (r : Range) (s : State) : (spoil r s).wait = s.wait := rfl
@[simp] theorem spoil_delays (r : Range) (s : State) : (spoil r s).delays = s.delays := rfl
@[simp] theorem spoil_races (r : Range) (s : State) : (spoil r s).races = s.races := rfl
@[simp] theorem spoil_unordered (r : Range) (s : State) : (spoil r s).unordered = r :: s.unordered := rfl
@[simp] theorem spoil_unseen (r : Range) (s : State) : (spoil r s).unseen = s.unseen := rfl
@[simp] theorem spoil_draws (r : Range) (s : State) : (spoil r s).draws = s.draws + r.len := rfl

@[simp] theorem begin_config (v : Word) (s : State) : (begin v s).config = s.config := rfl
@[simp] theorem begin_phase (v : Word) (s : State) : (begin v s).phase = .busy := rfl
@[simp] theorem begin_cmd (v : Word) (s : State) : (begin v s).cmd = v := rfl
@[simp] theorem begin_done (v : Word) (s : State) : (begin v s).done = false := rfl
@[simp] theorem begin_err (v : Word) (s : State) : (begin v s).err = false := rfl
@[simp] theorem begin_dzc (v : Word) (s : State) : (begin v s).dzc = false := rfl
@[simp] theorem begin_cmdlost (v : Word) (s : State) : (begin v s).cmdlost = s.cmdlost := rfl
@[simp] theorem begin_errcode (v : Word) (s : State) : (begin v s).errcode = 0 := rfl
@[simp] theorem begin_args (v : Word) (s : State) : (begin v s).args = s.args := rfl
@[simp] theorem begin_results (v : Word) (s : State) : (begin v s).results = s.results := rfl
@[simp] theorem begin_snapC (v : Word) (s : State) : (begin v s).snapC = v := rfl
@[simp] theorem begin_snapA (v : Word) (s : State) : (begin v s).snapA = s.args := rfl
@[simp] theorem begin_mem (v : Word) (s : State) : (begin v s).mem = s.mem := rfl
@[simp] theorem begin_acc (v : Word) (s : State) : (begin v s).acc = s.acc := rfl
@[simp] theorem begin_hostProg (v : Word) (s : State) : (begin v s).hostProg = s.hostProg := rfl
@[simp] theorem begin_hostPc (v : Word) (s : State) : (begin v s).hostPc = s.hostPc := rfl
@[simp] theorem begin_lastRead (v : Word) (s : State) : (begin v s).lastRead = s.lastRead := rfl
@[simp] theorem begin_wait (v : Word) (s : State) : (begin v s).wait = s.wait := rfl
@[simp] theorem begin_delays (v : Word) (s : State) : (begin v s).delays = s.delays := rfl
@[simp] theorem begin_races (v : Word) (s : State) : (begin v s).races = [] := rfl
@[simp] theorem begin_unordered (v : Word) (s : State) : (begin v s).unordered = s.unordered := rfl
@[simp] theorem begin_unseen (v : Word) (s : State) : (begin v s).unseen = s.unseen := rfl
@[simp] theorem begin_draws (v : Word) (s : State) : (begin v s).draws = s.draws + 1 := rfl

@[simp] theorem takeDelay_config (s : State) : (takeDelay s).config = s.config := rfl
@[simp] theorem takeDelay_phase (s : State) : (takeDelay s).phase = s.phase := rfl
@[simp] theorem takeDelay_cmd (s : State) : (takeDelay s).cmd = s.cmd := rfl
@[simp] theorem takeDelay_done (s : State) : (takeDelay s).done = s.done := rfl
@[simp] theorem takeDelay_err (s : State) : (takeDelay s).err = s.err := rfl
@[simp] theorem takeDelay_dzc (s : State) : (takeDelay s).dzc = s.dzc := rfl
@[simp] theorem takeDelay_cmdlost (s : State) : (takeDelay s).cmdlost = s.cmdlost := rfl
@[simp] theorem takeDelay_errcode (s : State) : (takeDelay s).errcode = s.errcode := rfl
@[simp] theorem takeDelay_args (s : State) : (takeDelay s).args = s.args := rfl
@[simp] theorem takeDelay_results (s : State) : (takeDelay s).results = s.results := rfl
@[simp] theorem takeDelay_snapC (s : State) : (takeDelay s).snapC = s.snapC := rfl
@[simp] theorem takeDelay_snapA (s : State) : (takeDelay s).snapA = s.snapA := rfl
@[simp] theorem takeDelay_mem (s : State) : (takeDelay s).mem = s.mem := rfl
@[simp] theorem takeDelay_acc (s : State) : (takeDelay s).acc = s.acc := rfl
@[simp] theorem takeDelay_hostProg (s : State) : (takeDelay s).hostProg = s.hostProg := rfl
@[simp] theorem takeDelay_hostPc (s : State) : (takeDelay s).hostPc = s.hostPc := rfl
@[simp] theorem takeDelay_lastRead (s : State) : (takeDelay s).lastRead = s.lastRead := rfl
@[simp] theorem takeDelay_wait (s : State) : (takeDelay s).wait = s.delays.headD 0 := rfl
@[simp] theorem takeDelay_delays (s : State) : (takeDelay s).delays = s.delays.tail := rfl
@[simp] theorem takeDelay_races (s : State) : (takeDelay s).races = s.races := rfl
@[simp] theorem takeDelay_unordered (s : State) : (takeDelay s).unordered = s.unordered := rfl
@[simp] theorem takeDelay_unseen (s : State) : (takeDelay s).unseen = s.unseen := rfl
@[simp] theorem takeDelay_draws (s : State) : (takeDelay s).draws = s.draws := rfl

@[simp] theorem clearStatus_config (v : Word) (s : State) : (clearStatus v s).config = s.config := rfl
@[simp] theorem clearStatus_phase (v : Word) (s : State) : (clearStatus v s).phase = s.phase := rfl
@[simp] theorem clearStatus_cmd (v : Word) (s : State) : (clearStatus v s).cmd = s.cmd := rfl
@[simp] theorem clearStatus_done (v : Word) (s : State) : (clearStatus v s).done = (s.done && !writesOne v 1) := rfl
@[simp] theorem clearStatus_err (v : Word) (s : State) : (clearStatus v s).err = (s.err && !writesOne v 2) := rfl
@[simp] theorem clearStatus_dzc (v : Word) (s : State) : (clearStatus v s).dzc = (s.dzc && !writesOne v 3) := rfl
@[simp] theorem clearStatus_cmdlost (v : Word) (s : State) : (clearStatus v s).cmdlost = (s.cmdlost && !writesOne v 4) := rfl
@[simp] theorem clearStatus_errcode (v : Word) (s : State) : (clearStatus v s).errcode = s.errcode := rfl
@[simp] theorem clearStatus_args (v : Word) (s : State) : (clearStatus v s).args = s.args := rfl
@[simp] theorem clearStatus_results (v : Word) (s : State) : (clearStatus v s).results = s.results := rfl
@[simp] theorem clearStatus_snapC (v : Word) (s : State) : (clearStatus v s).snapC = s.snapC := rfl
@[simp] theorem clearStatus_snapA (v : Word) (s : State) : (clearStatus v s).snapA = s.snapA := rfl
@[simp] theorem clearStatus_mem (v : Word) (s : State) : (clearStatus v s).mem = s.mem := rfl
@[simp] theorem clearStatus_acc (v : Word) (s : State) : (clearStatus v s).acc = s.acc := rfl
@[simp] theorem clearStatus_hostProg (v : Word) (s : State) : (clearStatus v s).hostProg = s.hostProg := rfl
@[simp] theorem clearStatus_hostPc (v : Word) (s : State) : (clearStatus v s).hostPc = s.hostPc := rfl
@[simp] theorem clearStatus_lastRead (v : Word) (s : State) : (clearStatus v s).lastRead = s.lastRead := rfl
@[simp] theorem clearStatus_wait (v : Word) (s : State) : (clearStatus v s).wait = s.wait := rfl
@[simp] theorem clearStatus_delays (v : Word) (s : State) : (clearStatus v s).delays = s.delays := rfl
@[simp] theorem clearStatus_races (v : Word) (s : State) : (clearStatus v s).races = s.races := rfl
@[simp] theorem clearStatus_unordered (v : Word) (s : State) : (clearStatus v s).unordered = s.unordered := rfl
@[simp] theorem clearStatus_unseen (v : Word) (s : State) : (clearStatus v s).unseen = s.unseen := rfl
@[simp] theorem clearStatus_draws (v : Word) (s : State) : (clearStatus v s).draws = s.draws := rfl

@[simp] theorem dropCmd_config (s : State) : (dropCmd s).config = s.config := rfl
@[simp] theorem dropCmd_phase (s : State) : (dropCmd s).phase = s.phase := rfl
@[simp] theorem dropCmd_cmd (s : State) : (dropCmd s).cmd = s.cmd := rfl
@[simp] theorem dropCmd_done (s : State) : (dropCmd s).done = s.done := rfl
@[simp] theorem dropCmd_err (s : State) : (dropCmd s).err = s.err := rfl
@[simp] theorem dropCmd_dzc (s : State) : (dropCmd s).dzc = s.dzc := rfl
@[simp] theorem dropCmd_cmdlost (s : State) : (dropCmd s).cmdlost = true := rfl
@[simp] theorem dropCmd_errcode (s : State) : (dropCmd s).errcode = s.errcode := rfl
@[simp] theorem dropCmd_args (s : State) : (dropCmd s).args = s.args := rfl
@[simp] theorem dropCmd_results (s : State) : (dropCmd s).results = s.results := rfl
@[simp] theorem dropCmd_snapC (s : State) : (dropCmd s).snapC = s.snapC := rfl
@[simp] theorem dropCmd_snapA (s : State) : (dropCmd s).snapA = s.snapA := rfl
@[simp] theorem dropCmd_mem (s : State) : (dropCmd s).mem = s.mem := rfl
@[simp] theorem dropCmd_acc (s : State) : (dropCmd s).acc = s.acc := rfl
@[simp] theorem dropCmd_hostProg (s : State) : (dropCmd s).hostProg = s.hostProg := rfl
@[simp] theorem dropCmd_hostPc (s : State) : (dropCmd s).hostPc = s.hostPc := rfl
@[simp] theorem dropCmd_lastRead (s : State) : (dropCmd s).lastRead = s.lastRead := rfl
@[simp] theorem dropCmd_wait (s : State) : (dropCmd s).wait = s.wait := rfl
@[simp] theorem dropCmd_delays (s : State) : (dropCmd s).delays = s.delays := rfl
@[simp] theorem dropCmd_races (s : State) : (dropCmd s).races = s.races := rfl
@[simp] theorem dropCmd_unordered (s : State) : (dropCmd s).unordered = s.unordered := rfl
@[simp] theorem dropCmd_unseen (s : State) : (dropCmd s).unseen = s.unseen := rfl
@[simp] theorem dropCmd_draws (s : State) : (dropCmd s).draws = s.draws := rfl

@[simp] theorem advance_config (s : State) : (advance s).config = s.config := rfl
@[simp] theorem advance_phase (s : State) : (advance s).phase = s.phase := rfl
@[simp] theorem advance_cmd (s : State) : (advance s).cmd = s.cmd := rfl
@[simp] theorem advance_done (s : State) : (advance s).done = s.done := rfl
@[simp] theorem advance_err (s : State) : (advance s).err = s.err := rfl
@[simp] theorem advance_dzc (s : State) : (advance s).dzc = s.dzc := rfl
@[simp] theorem advance_cmdlost (s : State) : (advance s).cmdlost = s.cmdlost := rfl
@[simp] theorem advance_errcode (s : State) : (advance s).errcode = s.errcode := rfl
@[simp] theorem advance_args (s : State) : (advance s).args = s.args := rfl
@[simp] theorem advance_results (s : State) : (advance s).results = s.results := rfl
@[simp] theorem advance_snapC (s : State) : (advance s).snapC = s.snapC := rfl
@[simp] theorem advance_snapA (s : State) : (advance s).snapA = s.snapA := rfl
@[simp] theorem advance_mem (s : State) : (advance s).mem = s.mem := rfl
@[simp] theorem advance_acc (s : State) : (advance s).acc = s.acc := rfl
@[simp] theorem advance_hostProg (s : State) : (advance s).hostProg = s.hostProg := rfl
@[simp] theorem advance_hostPc (s : State) : (advance s).hostPc = s.hostPc + 1 := rfl
@[simp] theorem advance_lastRead (s : State) : (advance s).lastRead = s.lastRead := rfl
@[simp] theorem advance_wait (s : State) : (advance s).wait = s.wait := rfl
@[simp] theorem advance_delays (s : State) : (advance s).delays = s.delays := rfl
@[simp] theorem advance_races (s : State) : (advance s).races = s.races := rfl
@[simp] theorem advance_unordered (s : State) : (advance s).unordered = s.unordered := rfl
@[simp] theorem advance_unseen (s : State) : (advance s).unseen = s.unseen := rfl
@[simp] theorem advance_draws (s : State) : (advance s).draws = s.draws := rfl

@[simp] theorem fetched_config (w : Word) (s : State) : (fetched w s).config = s.config := rfl
@[simp] theorem fetched_phase (w : Word) (s : State) : (fetched w s).phase = .busy := rfl
@[simp] theorem fetched_cmd (w : Word) (s : State) : (fetched w s).cmd = w := rfl
@[simp] theorem fetched_done (w : Word) (s : State) : (fetched w s).done = false := rfl
@[simp] theorem fetched_err (w : Word) (s : State) : (fetched w s).err = false := rfl
@[simp] theorem fetched_dzc (w : Word) (s : State) : (fetched w s).dzc = false := rfl
@[simp] theorem fetched_cmdlost (w : Word) (s : State) : (fetched w s).cmdlost = s.cmdlost := rfl
@[simp] theorem fetched_errcode (w : Word) (s : State) : (fetched w s).errcode = 0 := rfl
@[simp] theorem fetched_args (w : Word) (s : State) : (fetched w s).args = s.args := rfl
@[simp] theorem fetched_results (w : Word) (s : State) : (fetched w s).results = s.results := rfl
@[simp] theorem fetched_snapC (w : Word) (s : State) : (fetched w s).snapC = w := rfl
@[simp] theorem fetched_snapA (w : Word) (s : State) : (fetched w s).snapA = s.args := rfl
@[simp] theorem fetched_mem (w : Word) (s : State) : (fetched w s).mem = s.mem := rfl
@[simp] theorem fetched_acc (w : Word) (s : State) : (fetched w s).acc = s.acc := rfl
@[simp] theorem fetched_hostProg (w : Word) (s : State) : (fetched w s).hostProg = s.hostProg := rfl
@[simp] theorem fetched_hostPc (w : Word) (s : State) : (fetched w s).hostPc = s.hostPc := rfl
@[simp] theorem fetched_lastRead (w : Word) (s : State) : (fetched w s).lastRead = s.lastRead := rfl
@[simp] theorem fetched_wait (w : Word) (s : State) : (fetched w s).wait = 0 := rfl
@[simp] theorem fetched_delays (w : Word) (s : State) : (fetched w s).delays = s.delays := rfl
@[simp] theorem fetched_races (w : Word) (s : State) : (fetched w s).races = [] := rfl
@[simp] theorem fetched_unordered (w : Word) (s : State) : (fetched w s).unordered = s.unordered := rfl
@[simp] theorem fetched_unseen (w : Word) (s : State) : (fetched w s).unseen = s.unseen := rfl
@[simp] theorem fetched_draws (w : Word) (s : State) : (fetched w s).draws = s.draws + 1 := rfl

@[simp] theorem withMem_config (s : State) (m : Memory) : (s.withMem m).config = s.config := rfl
@[simp] theorem withMem_phase (s : State) (m : Memory) : (s.withMem m).phase = s.phase := rfl
@[simp] theorem withMem_cmd (s : State) (m : Memory) : (s.withMem m).cmd = s.cmd := rfl
@[simp] theorem withMem_done (s : State) (m : Memory) : (s.withMem m).done = s.done := rfl
@[simp] theorem withMem_err (s : State) (m : Memory) : (s.withMem m).err = s.err := rfl
@[simp] theorem withMem_dzc (s : State) (m : Memory) : (s.withMem m).dzc = s.dzc := rfl
@[simp] theorem withMem_cmdlost (s : State) (m : Memory) : (s.withMem m).cmdlost = s.cmdlost := rfl
@[simp] theorem withMem_errcode (s : State) (m : Memory) : (s.withMem m).errcode = s.errcode := rfl
@[simp] theorem withMem_args (s : State) (m : Memory) : (s.withMem m).args = s.args := rfl
@[simp] theorem withMem_results (s : State) (m : Memory) : (s.withMem m).results = s.results := rfl
@[simp] theorem withMem_snapC (s : State) (m : Memory) : (s.withMem m).snapC = s.snapC := rfl
@[simp] theorem withMem_snapA (s : State) (m : Memory) : (s.withMem m).snapA = s.snapA := rfl
@[simp] theorem withMem_mem (s : State) (m : Memory) : (s.withMem m).mem = m := rfl
@[simp] theorem withMem_acc (s : State) (m : Memory) : (s.withMem m).acc = s.acc := rfl
@[simp] theorem withMem_hostProg (s : State) (m : Memory) : (s.withMem m).hostProg = s.hostProg := rfl
@[simp] theorem withMem_hostPc (s : State) (m : Memory) : (s.withMem m).hostPc = s.hostPc := rfl
@[simp] theorem withMem_lastRead (s : State) (m : Memory) : (s.withMem m).lastRead = s.lastRead := rfl
@[simp] theorem withMem_wait (s : State) (m : Memory) : (s.withMem m).wait = s.wait := rfl
@[simp] theorem withMem_delays (s : State) (m : Memory) : (s.withMem m).delays = s.delays := rfl
@[simp] theorem withMem_races (s : State) (m : Memory) : (s.withMem m).races = s.races := rfl
@[simp] theorem withMem_unordered (s : State) (m : Memory) : (s.withMem m).unordered = s.unordered := rfl
@[simp] theorem withMem_unseen (s : State) (m : Memory) : (s.withMem m).unseen = s.unseen := rfl
@[simp] theorem withMem_draws (s : State) (m : Memory) : (s.withMem m).draws = s.draws := rfl
@[simp] theorem withLive_config (s : State) (c : Word) (as : Vector Word 8) : (s.withLive c as).config = s.config := rfl
@[simp] theorem withLive_phase (s : State) (c : Word) (as : Vector Word 8) : (s.withLive c as).phase = s.phase := rfl
@[simp] theorem withLive_cmd (s : State) (c : Word) (as : Vector Word 8) : (s.withLive c as).cmd = c := rfl
@[simp] theorem withLive_done (s : State) (c : Word) (as : Vector Word 8) : (s.withLive c as).done = s.done := rfl
@[simp] theorem withLive_err (s : State) (c : Word) (as : Vector Word 8) : (s.withLive c as).err = s.err := rfl
@[simp] theorem withLive_dzc (s : State) (c : Word) (as : Vector Word 8) : (s.withLive c as).dzc = s.dzc := rfl
@[simp] theorem withLive_cmdlost (s : State) (c : Word) (as : Vector Word 8) : (s.withLive c as).cmdlost = s.cmdlost := rfl
@[simp] theorem withLive_errcode (s : State) (c : Word) (as : Vector Word 8) : (s.withLive c as).errcode = s.errcode := rfl
@[simp] theorem withLive_args (s : State) (c : Word) (as : Vector Word 8) : (s.withLive c as).args = as := rfl
@[simp] theorem withLive_results (s : State) (c : Word) (as : Vector Word 8) : (s.withLive c as).results = s.results := rfl
@[simp] theorem withLive_snapC (s : State) (c : Word) (as : Vector Word 8) : (s.withLive c as).snapC = s.snapC := rfl
@[simp] theorem withLive_snapA (s : State) (c : Word) (as : Vector Word 8) : (s.withLive c as).snapA = s.snapA := rfl
@[simp] theorem withLive_mem (s : State) (c : Word) (as : Vector Word 8) : (s.withLive c as).mem = s.mem := rfl
@[simp] theorem withLive_acc (s : State) (c : Word) (as : Vector Word 8) : (s.withLive c as).acc = s.acc := rfl
@[simp] theorem withLive_hostProg (s : State) (c : Word) (as : Vector Word 8) : (s.withLive c as).hostProg = s.hostProg := rfl
@[simp] theorem withLive_hostPc (s : State) (c : Word) (as : Vector Word 8) : (s.withLive c as).hostPc = s.hostPc := rfl
@[simp] theorem withLive_lastRead (s : State) (c : Word) (as : Vector Word 8) : (s.withLive c as).lastRead = s.lastRead := rfl
@[simp] theorem withLive_wait (s : State) (c : Word) (as : Vector Word 8) : (s.withLive c as).wait = s.wait := rfl
@[simp] theorem withLive_delays (s : State) (c : Word) (as : Vector Word 8) : (s.withLive c as).delays = s.delays := rfl
@[simp] theorem withLive_races (s : State) (c : Word) (as : Vector Word 8) : (s.withLive c as).races = s.races := rfl
@[simp] theorem withLive_unordered (s : State) (c : Word) (as : Vector Word 8) : (s.withLive c as).unordered = s.unordered := rfl
@[simp] theorem withLive_unseen (s : State) (c : Word) (as : Vector Word 8) : (s.withLive c as).unseen = s.unseen := rfl
@[simp] theorem withLive_draws (s : State) (c : Word) (as : Vector Word 8) : (s.withLive c as).draws = s.draws := rfl

/-- Operands are read from the snapshot alone (R21). -/
theorem operand_congr {s t : State} (h : t.snapA = s.snapA) (n : Fin 8) : operand t n = operand s n := by
  simp only [operand, h]

@[simp] theorem withMem_operand (s : State) (m : Memory) (n : Fin 8) : operand (s.withMem m) n = operand s n := rfl

end Sys2Proof.Machine
end

