-- ==== Sys2Proof/Laws/Ops.lean ====
section
/-! SUPPORT. What each shared operation can do, said once: ranges and `P_BUS_OK`, the checks, completion, the write
range, and the frame every memory command shares. -/

namespace Sys2Proof.Machine

/-! ### Ranges -/

theorem inRange_iff (r : Range) (a : Nat) : inRange r a = true ↔ r.base ≤ a ∧ a < r.base + r.len := by
  simp [inRange]

/-- Two ranges meet exactly when they share a byte (R40). -/
theorem rangesMeet_iff (r q : Range) :
    rangesMeet r q = true ↔ ∃ a, inRange r a = true ∧ inRange q a = true := by
  simp only [rangesMeet, decide_eq_true_eq, inRange_iff]
  constructor
  · rintro ⟨h1, h2, h3, h4⟩
    exact ⟨max r.base q.base, by omega, by omega⟩
  · rintro ⟨a, h1, h2⟩
    omega

theorem rangesMeet_false_iff (r q : Range) :
    rangesMeet r q = false ↔ ∀ a, ¬ (inRange r a = true ∧ inRange q a = true) := by
  rw [← Bool.not_eq_true, rangesMeet_iff]
  exact not_exists

theorem wraps_iff (a n : Nat) : wraps a n = true ↔ 2 ^ 32 < a + n := decide_eq_true_iff

theorem wraps_false_iff (a n : Nat) : wraps a n = false ↔ a + n ≤ 2 ^ 32 :=
  decide_eq_false_iff_not.trans Nat.not_lt

/-- `P_BUS_OK` over a range is `P_BUS_OK` of each of its bytes (R38). -/
theorem rangeOk_iff (c : Config) (r : Range) (k : AccessKind) :
    rangeOk c r k = true ↔ ∀ a, inRange r a = true → busOk c a k = true := by
  simp only [rangeOk, busOk, List.all_eq_true, Bool.or_eq_true, decide_eq_true_eq, Bool.not_eq_true']
  constructor
  · intro h a ha x hx
    refine (h x hx).imp_right fun hm => ?_
    rw [rangesMeet_false_iff] at hm
    exact Bool.eq_false_iff.2 fun hxa => hm a ⟨hxa, ha⟩
  · intro h x hx
    by_cases hk : x.kind = k
    · right
      rw [rangesMeet_false_iff]
      rintro a ⟨h1, h2⟩
      rcases h a h2 x hx with h3 | h3
      · exact h3 hk
      · simp [h3] at h1
    · exact .inl hk

theorem busAccepts_iff (s : State) (k : AccessKind) (a n : Nat) :
    BusAccepts s k a n ↔ rangeOk s.config ⟨a, n⟩ k = true := by
  simp only [rangeOk_iff, inRange_iff, BusAccepts, and_imp]

theorem busOkOver_iff (s : State) (p : Plan) :
    busOkOver s.config p = true ↔
      BusAccepts s .read p.rd.base p.rd.len ∧ BusAccepts s .write p.wr.base p.wr.len := by
  simp only [busOkOver, Bool.and_eq_true, busAccepts_iff]

theorem busAccepts_empty (s : State) (k : AccessKind) (a : Nat) : BusAccepts s k a 0 :=
  fun b h1 h2 => absurd h2 (by omega)

/-! ### The buffer checks -/

/-- Everything checkBuffers can answer when it lets the command pass. -/
theorem checkBuffers_ok {α : Type} {s : State} {ns nd : Nat} {info : α} {r : Plan × α}
    (h : checkBuffers s ns nd info = .ok r) :
    r = (⟨⟨operand s 0, ns⟩, ⟨operand s 2, nd⟩⟩, info) ∧ operand s 0 + operand s 1 ≤ 2 ^ 32
      ∧ operand s 2 + operand s 3 ≤ 2 ^ 32 ∧ ns < 2 ^ 32 ∧ nd < 2 ^ 32 ∧ ns ≤ operand s 1 ∧ nd ≤ operand s 3
      ∧ rangesMeet ⟨operand s 0, ns⟩ ⟨operand s 2, nd⟩ = false := by
  unfold checkBuffers at h
  split at h
  · cases h
  split at h
  · cases h
  split at h
  · cases h
  split at h
  · cases h
  split at h
  · cases h
  rename_i h1 h2 h3 h4 h5
  cases h
  simp only [Bool.or_eq_true, wraps_iff, not_or, limit32, Nat.not_le, Nat.not_lt, Bool.not_eq_true]
    at h1 h2 h3 h4 h5
  exact ⟨rfl, h1.1, h1.2, h2.1, h2.2, h3, h4, h5⟩

/-! The outcomes of checkBuffers, one for each check. -/

section
variable {α : Type} {s : State} {ns nd : Nat} {info : α}

theorem checkBuffers_wraps (h : 2 ^ 32 < operand s 0 + operand s 1 ∨ 2 ^ 32 < operand s 2 + operand s 3) :
    checkBuffers s ns nd info = .error .invalidArgument := by
  unfold checkBuffers
  rw [if_pos]
  rw [Bool.or_eq_true, wraps_iff, wraps_iff]
  exact h

theorem checkBuffers_large (h0 : operand s 0 + operand s 1 ≤ 2 ^ 32) (h2 : operand s 2 + operand s 3 ≤ 2 ^ 32)
    (h : 2 ^ 32 ≤ ns ∨ 2 ^ 32 ≤ nd) : checkBuffers s ns nd info = .error .invalidArgument := by
  unfold checkBuffers limit32
  rw [if_neg, if_pos h]
  rw [Bool.or_eq_true, wraps_iff, wraps_iff]
  omega

theorem checkBuffers_short (h0 : operand s 0 + operand s 1 ≤ 2 ^ 32) (h2 : operand s 2 + operand s 3 ≤ 2 ^ 32)
    (hs : ns < 2 ^ 32) (hd : nd < 2 ^ 32) (h : operand s 1 < ns ∨ operand s 3 < nd) :
    checkBuffers s ns nd info = .error .bufferTooSmall := by
  unfold checkBuffers limit32
  rw [if_neg, if_neg (by omega)]
  · split
    · rfl
    · rw [if_pos (by omega)]
  · rw [Bool.or_eq_true, wraps_iff, wraps_iff]
    omega

theorem checkBuffers_meet (h0 : operand s 0 + operand s 1 ≤ 2 ^ 32) (h2 : operand s 2 + operand s 3 ≤ 2 ^ 32)
    (hs : ns < 2 ^ 32) (hd : nd < 2 ^ 32) (h1 : ns ≤ operand s 1) (h3 : nd ≤ operand s 3) {a : Nat}
    (hr : inRange ⟨operand s 0, ns⟩ a = true) (hw : inRange ⟨operand s 2, nd⟩ a = true) :
    checkBuffers s ns nd info = .error .invalidArgument := by
  unfold checkBuffers limit32
  rw [if_neg, if_neg (by omega), if_neg (by omega), if_neg (by omega), if_pos ((rangesMeet_iff _ _).2 ⟨a, hr, hw⟩)]
  rw [Bool.or_eq_true, wraps_iff, wraps_iff]
  omega

theorem checkBuffers_pass (h0 : operand s 0 + operand s 1 ≤ 2 ^ 32) (h2 : operand s 2 + operand s 3 ≤ 2 ^ 32)
    (hs : ns < 2 ^ 32) (hd : nd < 2 ^ 32) (h1 : ns ≤ operand s 1) (h3 : nd ≤ operand s 3)
    (ha : ∀ a, ¬ (inRange ⟨operand s 0, ns⟩ a = true ∧ inRange ⟨operand s 2, nd⟩ a = true)) :
    checkBuffers s ns nd info = .ok (⟨⟨operand s 0, ns⟩, ⟨operand s 2, nd⟩⟩, info) := by
  unfold checkBuffers limit32
  rw [if_neg, if_neg (by omega), if_neg (by omega), if_neg (by omega), if_neg]
  · rw [(rangesMeet_false_iff _ _).2 ha]
    exact Bool.false_ne_true
  · rw [Bool.or_eq_true, wraps_iff, wraps_iff]
    omega

end

/-- Buffers that are ready pass the checks. -/
theorem BuffersReady.checkBuffers {α : Type} {s : State} {ns nd : Nat} (h : BuffersReady s ns nd) (info : α) :
    checkBuffers s ns nd info = .ok (⟨⟨operand s 0, ns⟩, ⟨operand s 2, nd⟩⟩, info) := by
  have h1 := h.source
  have h2 := h.dest
  have h3 := h.readFits
  have h4 := h.wrFits
  have h5 := h.srcLong
  have h6 := h.dstLong
  have h7 := h.apart
  have hm : rangesMeet ⟨operand s 0, ns⟩ ⟨operand s 2, nd⟩ = false := by
    rw [rangesMeet_false_iff]
    intro a
    simp only [inRange_iff]
    omega
  have hw1 := (wraps_false_iff (operand s 0) (operand s 1)).2 h1
  have hw2 := (wraps_false_iff (operand s 2) (operand s 3)).2 h2
  simp only [Machine.checkBuffers, hw1, hw2, hm, limit32]
  rw [if_neg (by simp), if_neg (by omega), if_neg (by omega), if_neg (by omega), if_neg (by simp)]

theorem BuffersReady.busOkOver {s : State} {ns nd : Nat} (h : BuffersReady s ns nd) :
    busOkOver s.config ⟨⟨operand s 0, ns⟩, ⟨operand s 2, nd⟩⟩ = true :=
  (busOkOver_iff _ _).2 ⟨h.readOk, h.writeOk⟩

/-! ### Completion -/

theorem complete_frame (r0 r1 r2 r3 : Nat) (z : Bool) (s : State) : EngineFrame s (complete r0 r1 r2 r3 z s) :=
  ⟨rfl, rfl, rfl, rfl, rfl, rfl, rfl, rfl, rfl, rfl, rfl, rfl, rfl, rfl⟩

theorem writeOut_frame (r : Range) (out : Nat → Byte) (s : State) : EngineFrame s (writeOut r out s) :=
  ⟨rfl, rfl, rfl, rfl, rfl, rfl, rfl, rfl, rfl, rfl, rfl, rfl, rfl, rfl⟩

theorem complete_succeeded (r0 r1 r2 r3 : Nat) (z : Bool) (s : State) :
    Succeeded s (complete r0 r1 r2 r3 z s) (BitVec.ofNat 32 r0) (BitVec.ofNat 32 r1) (BitVec.ofNat 32 r2)
      (BitVec.ofNat 32 r3) z :=
  ⟨rfl, rfl, rfl, rfl, rfl, rfl, complete_frame ..⟩

theorem raiseError_failed (e : CmdError) (s : State) :
    Failed s (raiseError e s) (BitVec.ofNat 32 (errorCode e)) :=
  ⟨rfl, rfl, rfl, rfl, rfl, rfl, ⟨rfl, rfl, rfl, rfl, rfl, rfl, rfl, rfl, rfl, rfl, rfl, rfl, rfl, rfl⟩⟩

theorem writeOut_succeeded (r : Range) (out : Nat → Byte) (n : Nat) (z : Bool) (s : State) :
    Succeeded s (complete n 0 0 0 z (writeOut r out s)) (BitVec.ofNat 32 n) 0 0 0 z :=
  ⟨rfl, rfl, rfl, rfl, rfl, rfl, ⟨rfl, rfl, rfl, rfl, rfl, rfl, rfl, rfl, rfl, rfl, rfl, rfl, rfl, rfl⟩⟩

theorem spoil_failed (e : CmdError) (r : Range) (s : State) :
    Failed s (raiseError e (spoil r s)) (BitVec.ofNat 32 (errorCode e)) :=
  ⟨rfl, rfl, rfl, rfl, rfl, rfl, ⟨rfl, rfl, rfl, rfl, rfl, rfl, rfl, rfl, rfl, rfl, rfl, rfl, rfl, rfl⟩⟩

theorem errorCode_pos (e : CmdError) : 1 ≤ errorCode e ∧ errorCode e ≤ 11 := by cases e <;> decide

theorem errorCode_toNat (e : CmdError) : (BitVec.ofNat 32 (errorCode e)).toNat = errorCode e := by
  cases e <;> rfl

theorem endsWith_raise (e : CmdError) (s : State) :
    EndsWith (.next (raiseError e s)) s (BitVec.ofNat 32 (errorCode e)) :=
  ⟨_, rfl, raiseError_failed e s, ⟨rfl, rfl, rfl⟩⟩

theorem returns_complete (r0 r1 r2 r3 : Nat) (s : State) :
    Returns (.next (complete r0 r1 r2 r3 false s)) s (BitVec.ofNat 32 r0) (BitVec.ofNat 32 r1) (BitVec.ofNat 32 r2)
      (BitVec.ofNat 32 r3) :=
  ⟨_, rfl, complete_succeeded r0 r1 r2 r3 false s, ⟨rfl, rfl, rfl⟩⟩

/-! ### The write range -/

theorem writeOut_read_outside (r : Range) (out : Nat → Byte) (s : State) (a : Nat)
    (h : ¬ (r.base ≤ a ∧ a < r.base + r.len)) : (writeOut r out s).mem.read a = s.mem.read a :=
  Memory.read_fill_outside _ _ _ _ _ h

theorem spoil_read_outside (r : Range) (s : State) (a : Nat) (h : ¬ (r.base ≤ a ∧ a < r.base + r.len)) :
    (spoil r s).mem.read a = s.mem.read a :=
  Memory.read_fill_outside _ _ _ _ _ h

theorem racedAt_noRace {s : State} (h : NoRace s) (a : Nat) : racedAt s a = false := by
  have h' : s.races = [] := h
  simp [racedAt, h']

theorem racedResults_noRace {s : State} (h : NoRace s) : racedResults s = false := by
  have h' : s.races = [] := h
  simp [racedResults, h']

/-- Without a race the write range holds the bytes the command's rule gives (R36). -/
theorem writeOut_read_inside {s : State} (r : Range) (out : Nat → Byte) (hwf : s.mem.wf = true) (hr : NoRace s)
    {k : Nat} (hk : k < r.len) : (writeOut r out s).mem.read (r.base + k) = out k := by
  rw [writeOut_mem, Memory.read_fill_inside _ hwf hk, racedAt_noRace hr]
  rfl

theorem spoil_read_inside {s : State} (r : Range) (hwf : s.mem.wf = true) {k : Nat} (hk : k < r.len) :
    (spoil r s).mem.read (r.base + k) = Config.freeByte (s.draws + k) :=
  Memory.read_fill_inside _ hwf hk

/-! ### The frame of the memory commands -/

theorem runCommand_error {α : Type} {c : Except CmdError (Plan × α)} {eff : Plan → α → State → State} {s : State}
    {e : CmdError} (h : c = .error e) : runCommand c eff s = raiseError e s := by
  rw [h]
  rfl

theorem runCommand_ok {α : Type} {c : Except CmdError (Plan × α)} {eff : Plan → α → State → State} {s : State}
    {p : Plan} {info : α} (h : c = .ok (p, info)) (hb : busOkOver s.config p = true) :
    runCommand c eff s = eff p info s := by
  rw [h]
  simp [runCommand, hb]

theorem runCommand_bus {α : Type} {c : Except CmdError (Plan × α)} {eff : Plan → α → State → State} {s : State}
    {p : Plan} {info : α} (h : c = .ok (p, info)) (hb : busOkOver s.config p = false) :
    runCommand c eff s = raiseError .busError (spoil p.wr s) := by
  rw [h]
  simp [runCommand, hb]

/-- Everything runCommand can do. -/
theorem runCommand_cases {α : Type} (c : Except CmdError (Plan × α)) (eff : Plan → α → State → State) (s : State) :
    (∃ e, c = .error e ∧ runCommand c eff s = raiseError e s)
    ∨ (∃ p info, c = .ok (p, info) ∧ busOkOver s.config p = true ∧ runCommand c eff s = eff p info s)
    ∨ (∃ p info, c = .ok (p, info) ∧ busOkOver s.config p = false
        ∧ runCommand c eff s = raiseError .busError (spoil p.wr s)) := by
  rcases c with e | ⟨p, info⟩
  · exact .inl ⟨e, rfl, rfl⟩
  · cases hb : busOkOver s.config p
    · exact .inr (.inr ⟨p, info, rfl, hb, runCommand_bus rfl hb⟩)
    · exact .inr (.inl ⟨p, info, rfl, hb, runCommand_ok rfl hb⟩)

/-- Everything a completion that writes its write range leaves behind, when the buffers are ready (R36, R131). -/
theorem BuffersReady.written {s : State} {ns nd : Nat} (h : BuffersReady s ns nd) (out : Nat → Byte) (z : Bool)
    {t : State} (ht : t = complete nd 0 0 0 z (writeOut ⟨operand s 2, nd⟩ out s)) :
    Succeeded s t (BitVec.ofNat 32 nd) 0 0 0 z ∧ OnlyWrote s t (operand s 2) nd
      ∧ ∀ k, k < nd → t.mem.read (operand s 2 + k) = out k := by
  subst ht
  exact ⟨writeOut_succeeded .., fun b hb => writeOut_read_outside _ _ _ _ hb,
    fun k hk => writeOut_read_inside ⟨operand s 2, nd⟩ out h.memWf h.noRace hk⟩

end Sys2Proof.Machine
end

