-- ==== Sys2Proof/Laws/Exec.lean ====
section
/-! SUPPORT. What running a command can do, said once for all fourteen: what its ranges depend on, where they lie, and
the ways it ends. -/

namespace Sys2Proof.Machine

/-! ### The ranges of a command -/

/-- The ranges of a command depend on the parameters and the snapshot alone (R21, R36). -/
theorem planOf_congr {s t : State} (hc : t.config = s.config) (ha : t.snapA = s.snapA) (i : Instr) :
    planOf i t = planOf i s := by
  obtain ⟨c, _, _, _, _, _, _, _, _, _, _, a, _⟩ := s
  obtain ⟨c', _, _, _, _, _, _, _, _, _, _, a', _⟩ := t
  simp only at hc ha
  subst hc ha
  cases i <;> rfl

theorem accessPlan_congr {s t : State} (hc : t.config = s.config) (hC : t.snapC = s.snapC)
    (ha : t.snapA = s.snapA) : accessPlan t = accessPlan s := by
  unfold accessPlan
  rw [hC]
  split
  · rfl
  · rw [planOf_congr hc ha]

theorem accessPlan_ok {s : State} {i : Instr} {p : Plan} (hd : decode s.snapC = .ok i) (hp : planOf i s = .ok p) :
    accessPlan s = p := by
  simp [accessPlan, hd, hp]

theorem runningPlan_idle {s : State} (h : s.phase = .idle) : runningPlan s = Plan.none := by
  simp [runningPlan, h]

theorem runningPlan_reserved {s : State} {e : DecodeError} (hd : decode s.snapC = .error e) :
    runningPlan s = Plan.none := by
  cases h : s.phase <;> simp [runningPlan, h, hd]

theorem runningPlan_busy {s : State} {i : Instr} (h : s.phase = .busy) (hd : decode s.snapC = .ok i) :
    runningPlan s = rangesOf i s := by
  simp [runningPlan, h, hd]

/-- The ranges of a command that passes its checks lie in the memory space and do not meet (R39, R40). -/
def Plan.fits (p : Plan) : Prop :=
  p.rd.base + p.rd.len ≤ limit32 ∧ p.wr.base + p.wr.len ≤ limit32 ∧ rangesMeet p.rd p.wr = false

theorem Plan.none_fits : Plan.none.fits := ⟨by decide, by decide, by decide⟩

theorem checkBuffers_fits {α : Type} {s : State} {ns nd : Nat} {info : α} {p : Plan} {x : α}
    (h : checkBuffers s ns nd info = .ok (p, x)) : p.fits := by
  obtain ⟨he, h1, h2, -, -, h5, h6, h7⟩ := checkBuffers_ok h
  cases he
  exact ⟨by simp only [limit32]; omega, by simp only [limit32]; omega, h7⟩

theorem checkFindName_ok {s : State} {p : Plan} {x : Unit} (h : checkFindName s = .ok (p, x)) :
    p = ⟨⟨operand s 0, operand s 1⟩, emptyRange⟩ ∧ operand s 1 ≠ 0 ∧ operand s 1 ≤ 32
      ∧ operand s 0 + operand s 1 ≤ 2 ^ 32 := by
  unfold checkFindName at h
  split at h
  · cases h
  split at h
  · cases h
  rename_i h1 h2
  cases h
  rw [wraps_iff] at h2
  exact ⟨rfl, by omega, by omega, by omega⟩

theorem checkFourccEnc_ok {s : State} {p : Plan} {x : Unit} (h : checkFourccEnc s = .ok (p, x)) :
    p = ⟨⟨operand s 0, 4⟩, emptyRange⟩ ∧ operand s 1 = 4 ∧ operand s 0 + 4 ≤ 2 ^ 32 := by
  unfold checkFourccEnc at h
  split at h
  · cases h
  split at h
  · cases h
  rename_i h1 h2
  cases h
  rw [wraps_iff] at h2
  exact ⟨rfl, by omega, by omega⟩

theorem checkFourccDec_ok {s : State} {p : Plan} {x : Unit} (h : checkFourccDec s = .ok (p, x)) :
    p = ⟨emptyRange, ⟨operand s 1, 4⟩⟩ ∧ operand s 1 + 4 ≤ 2 ^ 32 := by
  unfold checkFourccDec at h
  split at h
  · cases h
  rename_i h2
  cases h
  rw [wraps_iff] at h2
  exact ⟨rfl, by omega⟩

theorem checkUnpack_ok {s : State} {p : Plan} {depth : Depth} (h : checkUnpack s = .ok (p, depth)) :
    depthOf (operand s 7) = some depth
      ∧ checkBuffers s (unpackStride depth s * operand s 5) (2 * operand s 4 * operand s 5) depth = .ok (p, depth) := by
  unfold checkUnpack at h
  split at h
  · cases h
  split at h
  · cases h
  rename_i d hd _
  obtain ⟨he, -⟩ := checkBuffers_ok h
  cases he
  exact ⟨hd, h⟩

theorem checkDemosaic_ok {dmm : DmmField} {s : State} {p : Plan} {mp : Method × Pattern}
    (h : checkDemosaic dmm s = .ok (p, mp)) :
    dmmValue dmm = some mp.1 ∧ patternOf (operand s 6) = some mp.2
      ∧ checkBuffers s (2 * operand s 4 * operand s 5) (6 * operand s 4 * operand s 5) mp = .ok (p, mp) := by
  unfold checkDemosaic at h
  split at h
  · cases h
  split at h
  · cases h
  rename_i m hm _ q hq
  obtain ⟨he, -⟩ := checkBuffers_ok h
  cases he
  exact ⟨hm, hq, h⟩

theorem checkCsc_ok {rng : RngField} {enc : EncField} {s : State} {p : Plan} {re : VideoRange × Standard}
    (h : checkCsc rng enc s = .ok (p, re)) :
    rngValue rng = some re.1 ∧ encValue enc = some re.2
      ∧ checkBuffers s (3 * operand s 4) (3 * operand s 4) re = .ok (p, re) := by
  unfold checkCsc at h
  split at h
  · rename_i r e hr he
    obtain ⟨hh, -⟩ := checkBuffers_ok h
    cases hh
    exact ⟨hr, he, h⟩
  · cases h

theorem checkConvert_ok {rng : RngField} {enc : EncField} {dmm : DmmField} {s : State} {p : Plan}
    {fp : Source × Pipeline} (h : checkConvert rng enc dmm s = .ok (p, fp)) :
    ∃ d, format s (operand s 4) = some d ∧ fp.1 = convertSource d s ∧ ¬ (1 < nplanes d ∧ fp.1.bpl ≠ 0)
      ∧ ¬ (fp.1.bpl ≠ 0 ∧ fp.1.bpl < naturalStride d fp.1.w 0) ∧ (∀ q ∈ d.planes, fp.1.h % q.vs = 0)
      ∧ checkBuffers s (convertReads fp.1) (convertWrites fp.1) fp.1 = .ok (p, fp.1)
      ∧ pipelineOf d rng enc dmm = .ok fp.2 := by
  unfold checkConvert at h
  split at h
  · cases h
  rename_i d hd
  simp only at h
  split at h
  · cases h
  split at h
  · cases h
  split at h
  · cases h
  split at h
  · cases h
  rename_i h1 h2 h3 _ p' f' hb
  split at h
  · cases h
  rename_i pipe hpipe
  cases h
  obtain ⟨he, -⟩ := checkBuffers_ok hb
  cases he
  refine ⟨d, hd, rfl, h1, h2, ?_, hb, hpipe⟩
  simpa using h3

theorem map_fst_ok {α : Type} {c : Except CmdError (Plan × α)} {p : Plan} (h : c.map Prod.fst = .ok p) :
    ∃ x, c = .ok (p, x) := by
  rcases c with e | ⟨q, x⟩
  · cases h
  · cases h
    exact ⟨x, rfl⟩

/-- Everything the checks of a command promise about its ranges (R36, R39, R40). -/
theorem planOf_fits {i : Instr} {s : State} {p : Plan} (h : planOf i s = .ok p) : p.fits := by
  have none_case : (Except.ok Plan.none : Except CmdError Plan) = .ok p → p.fits := fun h => by
    cases h
    exact Plan.none_fits
  cases i <;> simp only [planOf] at h
  case findName =>
    obtain ⟨x, hx⟩ := map_fst_ok h
    obtain ⟨rfl, -, -, hl⟩ := checkFindName_ok hx
    exact ⟨hl, Nat.zero_le limit32, by simp [rangesMeet, emptyRange]⟩
  case fourccEnc =>
    obtain ⟨x, hx⟩ := map_fst_ok h
    obtain ⟨rfl, -, hl⟩ := checkFourccEnc_ok hx
    exact ⟨hl, Nat.zero_le limit32, by simp [rangesMeet, emptyRange]⟩
  case fourccDec =>
    obtain ⟨x, hx⟩ := map_fst_ok h
    obtain ⟨rfl, hl⟩ := checkFourccDec_ok hx
    exact ⟨Nat.zero_le limit32, hl, by simp [rangesMeet, emptyRange]⟩
  case convert =>
    obtain ⟨x, hx⟩ := map_fst_ok h
    obtain ⟨_, -, -, -, -, -, hb, -⟩ := checkConvert_ok hx
    exact checkBuffers_fits hb
  case unpack =>
    obtain ⟨x, hx⟩ := map_fst_ok h
    exact checkBuffers_fits (checkUnpack_ok hx).2
  case demosaic =>
    obtain ⟨x, hx⟩ := map_fst_ok h
    exact checkBuffers_fits (checkDemosaic_ok hx).2.2
  case csc =>
    obtain ⟨x, hx⟩ := map_fst_ok h
    exact checkBuffers_fits (checkCsc_ok hx).2.2
  all_goals exact none_case h

theorem clipped_eq {a n : Nat} (h : a + n ≤ limit32) : clipped a n = ⟨a, n⟩ := by
  simp only [clipped, Range.mk.injEq, true_and]
  omega

/-- A command that passes its checks accesses the ranges its rule gives it (R36). -/
theorem rangesOf_planOf {i : Instr} {s : State} {p : Plan} (h : planOf i s = .ok p) : rangesOf i s = p := by
  have buffers : ∀ {α : Type} {ns nd : Nat} {info x : α}, checkBuffers s ns nd info = .ok (p, x) →
      (⟨clipped (operand s 0) ns, clipped (operand s 2) nd⟩ : Plan) = p := by
    intro α ns nd info x hb
    have hf := checkBuffers_fits hb
    obtain ⟨he, -⟩ := checkBuffers_ok hb
    cases he
    rw [clipped_eq hf.1, clipped_eq hf.2.1]
  cases i <;> simp only [planOf] at h
  case findName =>
    obtain ⟨x, hx⟩ := map_fst_ok h
    obtain ⟨rfl, h1, h2, hl⟩ := checkFindName_ok hx
    have h3 : 1 ≤ operand s 1 ∧ operand s 1 ≤ 32 := ⟨by omega, h2⟩
    simp [rangesOf, h3, clipped_eq (by simpa only [limit32] using hl)]
  case fourccEnc =>
    obtain ⟨x, hx⟩ := map_fst_ok h
    obtain ⟨rfl, h1, hl⟩ := checkFourccEnc_ok hx
    simp [rangesOf, h1, clipped_eq (by simpa only [limit32] using hl)]
  case fourccDec =>
    obtain ⟨x, hx⟩ := map_fst_ok h
    obtain ⟨rfl, hl⟩ := checkFourccDec_ok hx
    simp [rangesOf, clipped_eq (by simpa only [limit32] using hl)]
  case convert =>
    obtain ⟨⟨f, pipe⟩, hx⟩ := map_fst_ok h
    obtain ⟨d, hd, hf, -, -, -, hb, -⟩ := checkConvert_ok hx
    simp only at hf
    subst hf
    simpa only [rangesOf, convertReadsOf, hd, convertWrites, convertSource] using buffers hb
  case unpack =>
    obtain ⟨depth, hx⟩ := map_fst_ok h
    obtain ⟨hd, hb⟩ := checkUnpack_ok hx
    simpa only [rangesOf, unpackReads, hd] using buffers hb
  case demosaic =>
    obtain ⟨x, hx⟩ := map_fst_ok h
    exact buffers (checkDemosaic_ok hx).2.2
  case csc =>
    obtain ⟨x, hx⟩ := map_fst_ok h
    exact buffers (checkCsc_ok hx).2.2
  all_goals
    cases h
    rfl

/-- The ranges of any command lie in the memory space (R33). -/
theorem rangesOf_space (i : Instr) (s : State) :
    (rangesOf i s).rd.base + (rangesOf i s).rd.len ≤ limit32
      ∧ (rangesOf i s).wr.base + (rangesOf i s).wr.len ≤ limit32 := by
  have clip : ∀ (k : Fin 8) (n : Nat), (clipped (operand s k) n).base + (clipped (operand s k) n).len ≤ limit32 := by
    intro k n
    have hk : operand s k < limit32 := (s.snapA[k]).isLt
    simp only [clipped]
    omega
  have none : Plan.none.rd.base + Plan.none.rd.len ≤ limit32 ∧ Plan.none.wr.base + Plan.none.wr.len ≤ limit32 := by
    decide
  cases i <;> simp only [rangesOf]
  case findName =>
    split
    · exact ⟨clip _ _, none.2⟩
    · exact none
  case fourccEnc =>
    split
    · exact ⟨clip _ _, none.2⟩
    · exact none
  case fourccDec => exact ⟨by decide, clip _ _⟩
  case convert => exact ⟨clip _ _, clip _ _⟩
  case unpack => exact ⟨clip _ _, clip _ _⟩
  case demosaic => exact ⟨clip _ _, clip _ _⟩
  case csc => exact ⟨clip _ _, clip _ _⟩
  all_goals exact none

/-! ### The ways a command ends -/

/-- A registry command that touches no memory ends with a result or with an error (R33, R131). -/
def EndsPlainly (s t : State) : Prop :=
  (∃ r0 r1 r2 r3, t = complete r0 r1 r2 r3 false s) ∨ ∃ e, t = raiseError e s

theorem findFormat_cases (opc : Nat) (test : Descriptor → Bool) (s : State) : EndsPlainly s (findFormat opc test s) := by
  unfold findFormat
  split
  · exact .inl ⟨_, _, _, _, rfl⟩
  · exact .inr ⟨_, rfl⟩

theorem completeSize_cases (z : Nat) (s : State) : EndsPlainly s (completeSize z s) := by
  unfold completeSize
  split
  · exact .inr ⟨_, rfl⟩
  · exact .inl ⟨_, _, _, _, rfl⟩

/-- Everything a running command can do: end with the error of a check; end with BusError, its write range
unspecified; end plainly; or write its write range and succeed. -/
theorem exec_cases {i : Instr} {s t : State} (h : exec i s = .next t) :
    (∃ e, planOf i s = .error e ∧ t = raiseError e s)
    ∨ ∃ p, planOf i s = .ok p
      ∧ (busOkOver s.config p = false ∧ t = raiseError .busError (spoil p.wr s)
        ∨ busOkOver s.config p = true
          ∧ (EndsPlainly s t ∧ p.wr = emptyRange ∨ ∃ n z out, t = complete n 0 0 0 z (writeOut p.wr out s))) := by
  have none_case : (planOf i s = .ok Plan.none) → EndsPlainly s t →
      (∃ e, planOf i s = .error e ∧ t = raiseError e s)
      ∨ ∃ p, planOf i s = .ok p
        ∧ (busOkOver s.config p = false ∧ t = raiseError .busError (spoil p.wr s)
          ∨ busOkOver s.config p = true
            ∧ (EndsPlainly s t ∧ p.wr = emptyRange ∨ ∃ n z out, t = complete n 0 0 0 z (writeOut p.wr out s))) := by
    intro hp ht
    refine .inr ⟨_, hp, .inr ⟨?_, .inl ⟨ht, rfl⟩⟩⟩
    exact (busOkOver_iff _ _).2 ⟨busAccepts_empty _ _ _, busAccepts_empty _ _ _⟩
  have mem_case : ∀ {α : Type} (c : Except CmdError (Plan × α)) (eff : Plan → α → State → State),
      planOf i s = c.map Prod.fst → t = runCommand c eff s →
      (∀ p x, c = .ok (p, x) → EndsPlainly s (eff p x s) ∧ p.wr = emptyRange
        ∨ ∃ n z out, eff p x s = complete n 0 0 0 z (writeOut p.wr out s)) →
      (∃ e, planOf i s = .error e ∧ t = raiseError e s)
      ∨ ∃ p, planOf i s = .ok p
        ∧ (busOkOver s.config p = false ∧ t = raiseError .busError (spoil p.wr s)
          ∨ busOkOver s.config p = true
            ∧ (EndsPlainly s t ∧ p.wr = emptyRange ∨ ∃ n z out, t = complete n 0 0 0 z (writeOut p.wr out s))) := by
    intro α c eff hp ht hall
    rcases runCommand_cases c eff s with ⟨e, hc, hr⟩ | ⟨p, x, hc, hb, hr⟩ | ⟨p, x, hc, hb, hr⟩
    · exact .inl ⟨e, by rw [hp, hc]; rfl, by rw [ht, hr]⟩
    · exact .inr ⟨p, by rw [hp, hc]; rfl, .inr ⟨hb, by rw [ht, hr]; exact hall p x hc⟩⟩
    · exact .inr ⟨p, by rw [hp, hc]; rfl, .inl ⟨hb, by rw [ht, hr]⟩⟩
  cases i <;> simp only [exec] at h
  case findName =>
    cases h
    refine mem_case _ _ rfl rfl fun p x hc => .inl ⟨?_, by rw [(checkFindName_ok hc).1]⟩
    split
    · unfold findNameRaced
      split
      · exact .inl ⟨_, _, _, _, rfl⟩
      · exact .inr ⟨_, rfl⟩
    · exact findFormat_cases _ _ _
  case findDrm =>
    cases h
    exact none_case rfl (findFormat_cases _ _ _)
  case findV4l2 =>
    cases h
    exact none_case rfl (findFormat_cases _ _ _)
  case fmtInfo =>
    refine none_case rfl ?_
    unfold execFmtInfo at h
    split at h
    · cases h
      exact .inr ⟨_, rfl⟩
    · split at h
      · cases h
        exact .inl ⟨_, _, _, _, rfl⟩
      · cases h
  case planeInfo =>
    refine none_case rfl ?_
    unfold execPlaneInfo at h
    split at h
    · cases h
      exact .inr ⟨_, rfl⟩
    · cases h
      exact .inl ⟨_, _, _, _, rfl⟩
  case stride =>
    refine none_case rfl ?_
    unfold execStride at h
    split at h
    · cases h
      exact .inr ⟨_, rfl⟩
    · split at h
      · cases h
        exact .inr ⟨_, rfl⟩
      · cases h
        exact completeSize_cases _ _
  case planeSize =>
    refine none_case rfl ?_
    unfold execPlaneSize at h
    split at h
    · cases h
      exact .inr ⟨_, rfl⟩
    · cases h
      exact completeSize_cases _ _
  case frameSize =>
    refine none_case rfl ?_
    unfold execFrameSize at h
    split at h
    · cases h
      exact .inr ⟨_, rfl⟩
    · split at h
      · cases h
        exact .inr ⟨_, rfl⟩
      · cases h
        exact completeSize_cases _ _
  case fourccEnc =>
    cases h
    refine mem_case _ _ rfl rfl fun p x hc => .inl ⟨?_, by rw [(checkFourccEnc_ok hc).1]⟩
    split
    · exact .inl ⟨_, _, _, _, rfl⟩
    · exact .inl ⟨_, _, _, _, rfl⟩
  case fourccDec =>
    cases h
    exact mem_case _ _ rfl rfl fun p x hc => .inr ⟨_, _, _, rfl⟩
  case convert =>
    cases h
    exact mem_case _ _ rfl rfl fun p x hc => .inr ⟨_, _, _, rfl⟩
  case unpack =>
    cases h
    exact mem_case _ _ rfl rfl fun p x hc => .inr ⟨_, _, _, rfl⟩
  case demosaic =>
    cases h
    exact mem_case _ _ rfl rfl fun p x hc => .inr ⟨_, _, _, rfl⟩
  case csc =>
    cases h
    exact mem_case _ _ rfl rfl fun p x hc => .inr ⟨_, _, _, rfl⟩

/-- A command whose checks fail ends with their error (R133). -/
theorem exec_error {i : Instr} {s : State} {e : CmdError} (h : planOf i s = .error e) :
    exec i s = .next (raiseError e s) := by
  have key : ∀ {α : Type} (c : Except CmdError (Plan × α)) (eff : Plan → α → State → State),
      c.map Prod.fst = .error e → runCommand c eff s = raiseError e s := by
    intro α c eff hc
    rcases c with e' | x
    · cases hc
      rfl
    · cases hc
  cases i <;> simp only [planOf] at h
  case findName => exact congrArg _ (key _ _ h)
  case fourccEnc => exact congrArg _ (key _ _ h)
  case fourccDec => exact congrArg _ (key _ _ h)
  case convert => exact congrArg _ (key _ _ h)
  case unpack => exact congrArg _ (key _ _ h)
  case demosaic => exact congrArg _ (key _ _ h)
  case csc => exact congrArg _ (key _ _ h)
  all_goals cases h

/-- A command that meets a refused access ends with BusError (R38). -/
theorem exec_bus {i : Instr} {s : State} {p : Plan} (h : planOf i s = .ok p) (hb : busOkOver s.config p = false) :
    exec i s = .next (raiseError .busError (spoil p.wr s)) := by
  have key : ∀ {α : Type} (c : Except CmdError (Plan × α)) (eff : Plan → α → State → State),
      c.map Prod.fst = .ok p → runCommand c eff s = raiseError .busError (spoil p.wr s) := by
    intro α c eff hc
    rcases c with e' | ⟨q, x⟩
    · cases hc
    · cases hc
      exact runCommand_bus rfl hb
  have no : (Except.ok Plan.none : Except CmdError Plan) ≠ .ok p := by
    intro h
    cases h
    have hok : busOkOver s.config Plan.none = true :=
      (busOkOver_iff _ _).2 ⟨busAccepts_empty _ _ _, busAccepts_empty _ _ _⟩
    rw [hok] at hb
    cases hb
  cases i <;> simp only [planOf] at h
  case findName => exact congrArg _ (key _ _ h)
  case fourccEnc => exact congrArg _ (key _ _ h)
  case fourccDec => exact congrArg _ (key _ _ h)
  case convert => exact congrArg _ (key _ _ h)
  case unpack => exact congrArg _ (key _ _ h)
  case demosaic => exact congrArg _ (key _ _ h)
  case csc => exact congrArg _ (key _ _ h)
  all_goals exact absurd h no

/-! ### Turns -/

/-- Everything a step can do: the running command completes, or the host takes its turn. -/
theorem step_cases (s : State) :
    (s.phase = .busy ∧ s.wait = 0 ∧ step s = engineTurn s)
    ∨ (∃ n, s.phase = .busy ∧ s.wait = n + 1 ∧ step s = hostTurn { s with wait := n })
    ∨ (s.phase = .idle ∧ step s = hostTurn s) := by
  unfold step turn
  cases hp : s.phase
  · exact .inr (.inr ⟨rfl, rfl⟩)
  · cases hw : s.wait with
    | zero => exact .inl ⟨rfl, rfl, rfl⟩
    | succ n => exact .inr (.inl ⟨n, rfl, rfl, rfl⟩)

end Sys2Proof.Machine
end

