-- ==== Sys2Proof/Laws/Grid.lean ====
section
/-! SUPPORT. The row function and the grid of the demosaic engine: which bytes a sample reads, which pixels a pixel's
neighbours are, and that samples outside the grid are never read. -/

namespace Sys2Proof.Machine

/-! ### The row function -/

/-- Sample x of a row of w samples reads only the row's bytes (R97). -/
theorem unpackSample_congr (depth : Depth) {b b' : Nat → Nat} {x w : Nat} (hx : x < w)
    (h : ∀ i, i < rowBytes depth w → b i = b' i) : unpackSample depth b x = unpackSample depth b' x := by
  cases depth <;> simp only [unpackSample, rowBytes, ceilDiv] at h ⊢
  · exact h _ hx
  · rw [h _ (by omega), h _ (by omega)]
  · split
    · rw [h _ (by omega), h _ (by omega)]
    · rw [h _ (by omega), h _ (by omega)]
  · rw [h _ (by omega), h _ (by omega)]

/-- A byte of one of h rows of rb bytes, st apart, lies in the st * h bytes of the plane. -/
theorem row_lt_plane {y h st i rb : Nat} (hy : y < h) (hi : i < rb) (hs : rb ≤ st) : y * st + i < st * h := by
  have : y * st + st ≤ h * st := by nlinarith
  rw [Nat.mul_comm st h]
  omega

/-- The row of the k-th of w * h elements. -/
theorem div_lt_rows {k w h : Nat} (hk : k < w * h) : k / w < h := by
  rw [Nat.div_lt_iff_lt_mul (by rcases Nat.eq_zero_or_pos w with rfl | hw; · simp at hk
                                · exact hw), Nat.mul_comm]
  exact hk

/-- Element (x, y) of w * h elements in row-major order (R14). -/
theorem rowMajor {x y w : Nat} (hx : x < w) : (y * w + x) % w = x ∧ (y * w + x) / w = y := by
  rw [Nat.mul_comm y w, Nat.mul_add_mod, Nat.mod_eq_of_lt hx, Nat.mul_add_div (by omega), Nat.div_eq_of_lt hx]
  exact ⟨rfl, rfl⟩

theorem rowMajor_lt {x y w h : Nat} (hx : x < w) (hy : y < h) : y * w + x < w * h :=
  row_lt_plane hy hx le_rfl

/-! ### Neighbours -/

theorem moved_iff (n : Nat) (d : Int) (bound i : Nat) :
    moved n d bound = some i ↔ i < bound ∧ (i : Int) = n + d := by
  unfold moved
  split
  · rw [Option.some.injEq]
    omega
  · simp only [reduceCtorEq, false_iff]
    omega

theorem neighbour_iff (w h x y : Nat) (o : Int × Int) (q : Nat × Nat) :
    neighbour w h x y o = some q ↔ q.1 < w ∧ q.2 < h ∧ (q.1 : Int) = x + o.1 ∧ (q.2 : Int) = y + o.2 := by
  obtain ⟨i, j⟩ := q
  unfold neighbour
  cases hi : moved x o.1 w with
  | none =>
    simp only [reduceCtorEq, false_iff]
    intro hq
    have := (moved_iff x o.1 w i).2 ⟨hq.1, hq.2.2.1⟩
    rw [hi] at this
    cases this
  | some i' =>
    have hi' := (moved_iff _ _ _ _).1 hi
    cases hj : moved y o.2 h with
    | none =>
      simp only [reduceCtorEq, false_iff]
      intro hq
      have := (moved_iff y o.2 h j).2 ⟨hq.2.1, hq.2.2.2⟩
      rw [hj] at this
      cases this
    | some j' =>
      have hj' := (moved_iff _ _ _ _).1 hj
      simp only [Option.some.injEq, Prod.mk.injEq]
      omega

theorem mem_neighbours_iff (w h x y : Nat) (os : List (Int × Int)) (q : Nat × Nat) :
    q ∈ neighbours w h x y os ↔ q.1 < w ∧ q.2 < h ∧ ((q.1 : Int) - x, (q.2 : Int) - y) ∈ os := by
  unfold neighbours
  rw [List.mem_filterMap]
  constructor
  · rintro ⟨⟨a, b⟩, ho, hq⟩
    obtain ⟨h1, h2, h3, h4⟩ := (neighbour_iff _ _ _ _ _ _).1 hq
    refine ⟨h1, h2, ?_⟩
    simp only at h3 h4
    rwa [show (q.1 : Int) - x = a by omega, show (q.2 : Int) - y = b by omega]
  · rintro ⟨h1, h2, h3⟩
    exact ⟨_, h3, (neighbour_iff _ _ _ _ _ _).2 ⟨h1, h2, by simp, by simp⟩⟩

/-- The window holds in-grid pixels. -/
theorem window_inGrid {w h x y : Nat} {q : Nat × Nat} (hq : q ∈ window w h x y) : q.1 < w ∧ q.2 < h :=
  have := (mem_neighbours_iff w h x y windowOffsets q).1 hq
  ⟨this.1, this.2.1⟩

/-- The bilinear method averages in-grid pixels. -/
theorem bilinearCells_inGrid {p : Pattern} {w h : Nat} {c : Channel} {x y : Nat} (hx : x < w) (hy : y < h)
    {q : Nat × Nat} (hq : q ∈ bilinearCells p w h c x y) : q.1 < w ∧ q.2 < h := by
  unfold bilinearCells at hq
  split at hq
  · rw [List.mem_singleton] at hq
    subst hq
    exact ⟨hx, hy⟩
  · have := (mem_neighbours_iff w h x y _ q).1 hq
    exact ⟨this.1, this.2.1⟩

/-- An output depends only on the samples of the grid (R105, R106). -/
theorem demosaicAt_congr (m : Method) (p : Pattern) {S S' : Nat → Nat → Nat} {w h : Nat} (c : Channel) {x y : Nat}
    (hx : x < w) (hy : y < h) (hS : ∀ i j, i < w → j < h → S i j = S' i j) :
    demosaicAt m p S w h c x y = demosaicAt m p S' w h c x y := by
  unfold demosaicAt
  congr 1
  cases m <;> simp only [demosaicNum] <;> congr 1 <;> refine List.map_congr_left fun q hq => ?_
  · rw [hS _ _ (window_inGrid hq).1 (window_inGrid hq).2]
  · rw [hS _ _ (bilinearCells_inGrid hx hy hq).1 (bilinearCells_inGrid hx hy hq).2]

/-! ### Windows as sets of pixels -/

theorem neighbours_nodup (w h x y : Nat) {os : List (Int × Int)} (ho : os.Nodup) : (neighbours w h x y os).Nodup := by
  unfold neighbours
  refine ho.filterMap fun a b q ha hb => ?_
  have h1 := (neighbour_iff w h x y a q).1 ha
  have h2 := (neighbour_iff w h x y b q).1 hb
  ext <;> omega

theorem window_nodup (w h x y : Nat) : (window w h x y).Nodup := neighbours_nodup _ _ _ _ (by decide)

/-- The window of R105: the in-grid pixels at most one column and one row away. -/
theorem mem_window_iff (w h x y : Nat) (q : Nat × Nat) :
    q ∈ window w h x y ↔ q.1 < w ∧ q.2 < h ∧ q.1 ≤ x + 1 ∧ x ≤ q.1 + 1 ∧ q.2 ≤ y + 1 ∧ y ≤ q.2 + 1 := by
  unfold window
  rw [mem_neighbours_iff]
  simp only [windowOffsets, List.mem_cons, Prod.mk.injEq, List.not_mem_nil, or_false]
  omega

/-- A sum over a list of distinct pixels, as a sum over the grid. -/
theorem sum_pixels {l : List (Nat × Nat)} (hl : l.Nodup) (w h : Nat) (P : Nat → Nat → Prop)
    [∀ i j, Decidable (P i j)] (hm : ∀ q, q ∈ l ↔ q.1 < w ∧ q.2 < h ∧ P q.1 q.2) (f : Nat → Nat → Nat) :
    (l.map fun q => f q.1 q.2).sum
      = ∑ i ∈ Finset.range w, ∑ j ∈ Finset.range h, if P i j then f i j else 0 := by
  rw [← Finset.sum_product',
    ← Finset.sum_filter (p := fun q : Nat × Nat => P q.1 q.2) (f := fun q : Nat × Nat => f q.1 q.2),
    ← List.sum_toFinset _ hl]
  refine Finset.sum_congr ?_ fun _ _ => rfl
  ext q
  simp [hm, and_assoc]

/-! ### Sites (R103, R104, R106) -/

/-- Roles repeat with period two (R104). -/
theorem channelAt_parity (p : Pattern) (x y : Nat) : channelAt p x y = channelAt p (x % 2) (y % 2) := by
  unfold channelAt role
  simp

theorem bilinearOffsets_parity (p : Pattern) (c : Channel) (x y : Nat) :
    bilinearOffsets p c x y = bilinearOffsets p c (x % 2) (y % 2) := by
  unfold bilinearOffsets
  rw [channelAt_parity p x y]
  simp

theorem bilinearOffsets_nodup (p : Pattern) (c : Channel) (x y : Nat) : (bilinearOffsets p c x y).Nodup := by
  unfold bilinearOffsets
  repeat' split
  all_goals decide

theorem bilinearOffsets_sub (p : Pattern) (c : Channel) (x y : Nat) :
    ∀ o ∈ bilinearOffsets p c x y, o ∈ windowOffsets := by
  unfold bilinearOffsets
  repeat' split
  all_goals decide

/-- In one tile the offsets of R106 are those that lead to a site of the channel. -/
theorem bilinearOffsets_tile : ∀ p ∈ [Pattern.rggb, .bggr, .grbg, .gbrg], ∀ ch ∈ [Channel.b, .g, .r],
    ∀ u ∈ [0, 1], ∀ v ∈ [0, 1], ∀ o ∈ windowOffsets, channelAt p u v ≠ ch →
      (o ∈ bilinearOffsets p ch u v
        ↔ channelAt p (((u : Int) + o.1) % 2).toNat (((v : Int) + o.2) % 2).toNat = ch) := by
  decide

/-- The offsets of R106 are those of the window that lead to a site of the channel. -/
theorem mem_bilinearOffsets_iff {p : Pattern} {c : Channel} {x y i j : Nat} (hc : channelAt p x y ≠ c) :
    ((i : Int) - x, (j : Int) - y) ∈ bilinearOffsets p c x y
      ↔ ((i : Int) - x, (j : Int) - y) ∈ windowOffsets ∧ channelAt p i j = c := by
  have hi : i % 2 = ((((x % 2 : Nat) : Int) + ((i : Int) - x)) % 2).toNat := by omega
  have hj : j % 2 = ((((y % 2 : Nat) : Int) + ((j : Int) - y)) % 2).toNat := by omega
  rw [channelAt_parity p i j, hi, hj]
  by_cases hw : ((i : Int) - x, (j : Int) - y) ∈ windowOffsets
  · have hp : p ∈ [Pattern.rggb, .bggr, .grbg, .gbrg] := by cases p <;> decide
    have hch : c ∈ [Channel.b, .g, .r] := by cases c <;> decide
    have hx2 : x % 2 ∈ [0, 1] := by
      simp only [List.mem_cons, List.not_mem_nil, or_false]
      omega
    have hy2 : y % 2 ∈ [0, 1] := by
      simp only [List.mem_cons, List.not_mem_nil, or_false]
      omega
    rw [bilinearOffsets_parity, bilinearOffsets_tile p hp c hch _ hx2 _ hy2 _ hw (by rw [← channelAt_parity]; exact hc)]
    exact (and_iff_right hw).symm
  · exact ⟨fun h => absurd (bilinearOffsets_sub _ _ _ _ _ h) hw, fun h => absurd h.1 hw⟩

end Sys2Proof.Machine
end

