-- ==== Sys2Proof/Laws/Source.lean ====
section
/-! SUPPORT. Geometry and the source frame: the rows of a conversion's planes lie in the bytes CONVERT counts (R82,
R83, R121). -/

namespace Sys2Proof.Machine

theorem ceilDiv_of_dvd {n m : Nat} (h : n % m = 0) : ceilDiv n m = n / m := by
  rcases Nat.eq_zero_or_pos m with rfl | hm
  · simp [ceilDiv]
  · obtain ⟨k, rfl⟩ := Nat.dvd_of_mod_eq_zero h
    unfold ceilDiv
    rw [Nat.mul_div_cancel_left _ hm, show m * k + m - 1 = (m - 1) + m * k by omega, Nat.add_mul_div_left _ _ hm,
      Nat.div_eq_of_lt (by omega), Nat.zero_add]

theorem roundUp_one (n : Nat) : roundUp n 1 = n := by simp [roundUp, ceilDiv]

/-- The natural stride of a plane is its row length (R73). -/
theorem naturalStride_eq (d : Descriptor) (w p : Nat) :
    naturalStride d w p = ceilDiv w (plane d p).ppg * (plane d p).bpg := roundUp_one _

theorem plane_mem {d : Descriptor} {p : Nat} (h : p < nplanes d) : plane d p ∈ d.planes := by
  unfold plane
  rw [List.getD_eq_getElem _ _ h]
  exact List.getElem_mem h

/-- Where a plane starts: behind the planes before it (R82). -/
theorem planeBase_eq_sum (f : Source) (n : Nat) :
    planeBase f n = f.addr + ((List.range n).map fun p => planeStride f p * planeRows f p).sum := by
  induction n with
  | zero => rfl
  | succ n ih =>
    rw [planeBase, ih, List.range_succ]
    simp
    omega

theorem addr_le_planeBase (f : Source) (n : Nat) : f.addr ≤ planeBase f n := by
  rw [planeBase_eq_sum]
  exact Nat.le_add_right _ _

/-- A plane ends where the planes behind it start, or before. -/
theorem planeEnd_le_planeBase (f : Source) {n p : Nat} (h : p < n) :
    planeBase f p + planeStride f p * planeRows f p ≤ planeBase f n := by
  induction n with
  | zero => omega
  | succ n ih =>
    rcases Nat.lt_or_ge p n with h' | h'
    · exact (ih h').trans (Nat.le_add_right _ _)
    · have : p = n := by omega
      subst this
      exact le_rfl

/-- The planes of a conversion that passes its checks lie in the ns bytes of R121. -/
theorem planes_le_convertReads {f : Source} (h1 : ¬ (1 < nplanes f.desc ∧ f.bpl ≠ 0))
    (hmod : ∀ q ∈ f.desc.planes, f.h % q.vs = 0) :
    planeBase f (nplanes f.desc) ≤ f.addr + convertReads f := by
  rw [planeBase_eq_sum]
  unfold convertReads
  split
  · rename_i h0
    refine Nat.add_le_add_left (le_of_eq ?_) _
    unfold frameSizeOf
    congr 1
    refine List.map_congr_left fun p hp => ?_
    simp only [planeStride, h0, if_true, planeRows, planeSizeOf,
      ceilDiv_of_dvd (hmod _ (plane_mem (List.mem_range.1 hp))), naturalStride]
  · rename_i h0
    have : nplanes f.desc ≤ 1 := by
      by_contra hh
      exact h1 ⟨by omega, h0⟩
    interval_cases hn : nplanes f.desc
    · simp
    · simp [planeStride, h0, planeRows]

/-- A row of a plane is no longer than the plane's stride (R122). -/
theorem naturalStride_le_planeStride {f : Source} (h1 : ¬ (1 < nplanes f.desc ∧ f.bpl ≠ 0))
    (h2 : ¬ (f.bpl ≠ 0 ∧ f.bpl < naturalStride f.desc f.w 0)) {p : Nat} (hp : p < nplanes f.desc) :
    naturalStride f.desc f.w p ≤ planeStride f p := by
  unfold planeStride
  split
  · exact le_rfl
  · rename_i h0
    have hq : p = 0 := by
      by_contra hq
      exact h1 ⟨by omega, h0⟩
    subst hq
    by_contra hlt
    exact h2 ⟨h0, by omega⟩

/-- Every byte Bp(i, r) of R83 lies in CONVERT's read range. -/
theorem rowHolds_inRange {f : Source} (h1 : ¬ (1 < nplanes f.desc ∧ f.bpl ≠ 0))
    (h2 : ¬ (f.bpl ≠ 0 ∧ f.bpl < naturalStride f.desc f.w 0)) (hmod : ∀ q ∈ f.desc.planes, f.h % q.vs = 0)
    {p i r : Nat} (h : rowHolds f p i r = true) :
    f.addr ≤ planeBase f p + r * planeStride f p + i
      ∧ planeBase f p + r * planeStride f p + i < f.addr + convertReads f := by
  simp only [rowHolds, decide_eq_true_eq] at h
  obtain ⟨hp, hi, hr⟩ := h
  have ha := addr_le_planeBase f p
  have he := planeEnd_le_planeBase f hp
  have hc := planes_le_convertReads h1 hmod
  have hs := naturalStride_le_planeStride h1 h2 hp
  have hrow : r * planeStride f p + planeStride f p ≤ planeStride f p * planeRows f p := by nlinarith
  omega

end Sys2Proof.Machine
end

