-- ==== Sys2Proof/Laws/Convert.lean ====
section
/-! SUPPORT. CONVERT on buffers that are ready: the source its operands describe, the rows of a single plane, and the
byte of each output pixel. -/

namespace Sys2Proof.Machine

theorem convertSource_desc (d : Descriptor) (s : State) : (convertSource d s).desc = d := rfl
theorem convertSource_w (d : Descriptor) (s : State) : (convertSource d s).w = operand s 5 := rfl
theorem convertSource_h (d : Descriptor) (s : State) : (convertSource d s).h = operand s 6 := rfl
theorem convertSource_bpl (d : Descriptor) (s : State) : (convertSource d s).bpl = operand s 7 := rfl
theorem convertSource_addr (d : Descriptor) (s : State) : (convertSource d s).addr = operand s 0 := rfl

theorem ceilDiv_one (n : Nat) : ceilDiv n 1 = n := by simp [ceilDiv]

/-- CONVERT when its checks pass and its buffers are ready (R122). -/
theorem ConvertReady.exec {rng : RngField} {enc : EncField} {dmm : DmmField} {s : State} {d : Descriptor} {st : Nat}
    {pipe : Pipeline} (h : ConvertReady s d st) (hp : pipelineOf d rng enc dmm = .ok pipe) :
    exec (.convert rng enc dmm) s = .next
      (complete (3 * operand s 5 * operand s 6) 0 0 0 (convertClamped (convertSource d s) pipe)
        (writeOut ⟨operand s 2, 3 * operand s 5 * operand s 6⟩ (convertByte s (convertSource d s) pipe) s)) := by
  have hB := h.buffers
  have hbpl := h.bpl
  have hst := h.stride
  have hrow := h.rowFits
  have hns : convertReads (convertSource d s) = if operand s 7 = 0 then frameSizeOf d (operand s 5) (operand s 6) 1
      else operand s 7 * (operand s 6 / (plane d 0).vs) := rfl
  have hnd : convertWrites (convertSource d s) = 3 * operand s 5 * operand s 6 := rfl
  rw [← hns] at hB
  have h1 : ¬ (1 < nplanes d ∧ (convertSource d s).bpl ≠ 0) := by
    rw [convertSource_bpl]
    omega
  have h2 : ¬ ((convertSource d s).bpl ≠ 0 ∧ (convertSource d s).bpl < naturalStride d (convertSource d s).w 0) := by
    rw [convertSource_bpl, convertSource_w]
    rintro ⟨h0, hlt⟩
    rw [if_neg h0] at hst
    omega
  have h3 : ¬ (d.planes.any fun p => decide ((convertSource d s).h % p.vs ≠ 0)) = true := by
    intro hh
    obtain ⟨q, hq, hne⟩ := List.any_eq_true.1 hh
    exact of_decide_eq_true hne (h.heights q hq)
  have hc : checkConvert rng enc dmm s
      = .ok (⟨⟨operand s 0, convertReads (convertSource d s)⟩, ⟨operand s 2, 3 * operand s 5 * operand s 6⟩⟩,
          convertSource d s, pipe) := by
    simp only [checkConvert, format, h.formatId]
    rw [hnd, if_neg h1, if_neg h2, if_neg h3, hB.checkBuffers, hp]
  simp only [Machine.exec, execConvert]
  rw [runCommand_ok hc hB.busOkOver]

/-- Byte j of output pixel (x, y) (R126). -/
theorem convertByte_pixel {s : State} {f : Source} {pipe : Pipeline} {w x y j : Nat} (hw : f.w = w) (hx : x < w)
    (hj : j < 3) :
    convertByte s f pipe (3 * (y * w + x) + j) = BitVec.ofNat 8 (convertSample s f pipe (channelOf j) x y) := by
  subst hw
  obtain ⟨m1, m2⟩ := rowMajor (y := y) hx
  unfold convertByte
  rw [show (3 * (y * f.w + x) + j) % 3 = j by omega, show (3 * (y * f.w + x) + j) / 3 = y * f.w + x by omega, m1, m2]

theorem pixelByte_lt {x y j w h : Nat} (hx : x < w) (hy : y < h) (hj : j < 3) :
    3 * (y * w + x) + j < 3 * w * h := by
  have := rowMajor_lt hx hy
  rw [Nat.mul_assoc]
  omega

/-- The stride of plane 0 (R82). -/
theorem ConvertReady.planeStride_zero {s : State} {d : Descriptor} {st : Nat} (h : ConvertReady s d st) :
    planeStride (convertSource d s) 0 = st := h.stride.symm

/-- A byte of a row of plane 0, where that plane has a row for each row of pixels (R82, R83). -/
theorem ConvertReady.rowByte_zero {s : State} {d : Descriptor} {st : Nat} (h : ConvertReady s d st)
    (hvs : (plane d 0).vs = 1) {i y : Nat} (hi : i < naturalStride d (operand s 5) 0) (hy : y < operand s 6) :
    rowByte s (convertSource d s) 0 i y = s.mem.read (operand s 0 + y * st + i) := by
  have hrows : planeRows (convertSource d s) 0 = operand s 6 := by
    unfold planeRows
    rw [convertSource_desc, convertSource_h, hvs, Nat.div_one]
  have hp := h.planes
  have hh : rowHolds (convertSource d s) 0 i y = true := by
    simp only [rowHolds, decide_eq_true_eq, convertSource_desc, convertSource_w, hrows]
    exact ⟨hp, hi, hy⟩
  simp only [rowByte, hh, if_true, h.planeStride_zero]
  rfl

/-- A byte of a conversion's source depends on the bytes of its read range alone, whether or not its rows hold it (R5,
R36, R83). -/
theorem rowByte_congr {s t : State} {f : Source} (h1 : ¬ (1 < nplanes f.desc ∧ f.bpl ≠ 0))
    (h2 : ¬ (f.bpl ≠ 0 ∧ f.bpl < naturalStride f.desc f.w 0)) (hmod : ∀ q ∈ f.desc.planes, f.h % q.vs = 0)
    (hm : ∀ a, f.addr ≤ a → a < f.addr + convertReads f → t.mem.read a = s.mem.read a) (p i r : Nat) :
    rowByte t f p i r = rowByte s f p i r := by
  unfold rowByte
  split
  · have hr := rowHolds_inRange h1 h2 hmod ‹_›
    exact hm _ hr.1 hr.2
  · rw [Memory.bytes_congr hm]

end Sys2Proof.Machine
end

