-- ==== Sys2Proof/Laws/Csc.lean ====
section
/-! SUPPORT. The clip and floor of the colorspace converter, as they stand in R115 and R117. -/

namespace Sys2Proof.Machine

/-- floor(clip(n / d, 0, 255)) of R115. -/
theorem clipFloor_eq_floor (n : Int) {d : Nat} (hd : 0 < d) :
    (clipFloor n d : Int) = ⌊max 0 (min 255 ((n : ℚ) / d))⌋ := by
  have hd' : (0 : ℚ) < d := by exact_mod_cast hd
  unfold clipFloor
  split
  · rename_i h
    have hn : (n : ℚ) / d ≤ 0 := div_nonpos_of_nonpos_of_nonneg (by exact_mod_cast h.le) hd'.le
    rw [max_eq_left ((min_le_right _ _).trans hn)]
    simp
  · rename_i h
    split
    · rename_i h2
      have hn : (255 : ℚ) ≤ (n : ℚ) / d := by
        rw [le_div_iff₀ hd']
        exact_mod_cast h2.le
      rw [min_eq_left hn]
      norm_num
    · rename_i h2
      have h3 : (n : ℚ) / d ≤ 255 := by
        rw [div_le_iff₀ hd']
        exact_mod_cast not_lt.1 h2
      have h4 : 0 ≤ (n : ℚ) / d := div_nonneg (by exact_mod_cast not_lt.1 h) hd'.le
      rw [min_eq_right h3, max_eq_right h4, Int.toNat_of_nonneg (Int.ediv_nonneg (not_lt.1 h) (by positivity))]
      exact (Rat.floor_intCast_div_natCast n d).symm

end Sys2Proof.Machine
end

