-- ==== Sys2Proof/Laws/Host.lean ====
section
/-! SUPPORT. Everything the host can do to the machine, said once: a start, the reset input, or an act that leaves the
engine as it is. -/

namespace Sys2Proof.Machine

/-- What the host leaves alone unless it starts a command or resets the engine: it can only clear status bits, write
ARG registers and write memory within the memory space. -/
structure HostKeeps (s t : State) : Prop where
  config   : t.config = s.config
  phase    : t.phase = s.phase
  cmd      : t.cmd = s.cmd
  errcode  : t.errcode = s.errcode
  results  : t.results = s.results
  snapC    : t.snapC = s.snapC
  snapA    : t.snapA = s.snapA
  hostProg : t.hostProg = s.hostProg
  wait     : t.wait = s.wait
  done     : t.done = true → s.done = true
  err      : t.err = true → s.err = true
  dzc      : t.dzc = true → s.dzc = true
  memWf    : s.mem.wf = true → t.mem.wf = true
  memSpace : s.mem.inSpace = true → t.mem.inSpace = true

theorem HostKeeps.refl (s : State) : HostKeeps s s :=
  ⟨rfl, rfl, rfl, rfl, rfl, rfl, rfl, rfl, rfl, id, id, id, id, id⟩

theorem writesOne_eq (v : Word) (i : Nat) : writesOne v i = v.getLsbD i := by
  rw [BitVec.getLsbD, Nat.testBit_eq_decide_div_mod_eq, ← Nat.shiftRight_eq_div_pow]
  rfl

theorem readReg_keeps (r : Reg) (s : State) : HostKeeps s (readReg r s) := by
  unfold readReg
  split <;> exact ⟨rfl, rfl, rfl, rfl, rfl, rfl, rfl, rfl, rfl, id, id, id, id, id⟩

theorem clearStatus_keeps (v : Word) (s : State) : HostKeeps s (clearStatus v s) :=
  ⟨rfl, rfl, rfl, rfl, rfl, rfl, rfl, rfl, rfl, fun h => (Bool.and_eq_true_iff.1 h).1,
    fun h => (Bool.and_eq_true_iff.1 h).1, fun h => (Bool.and_eq_true_iff.1 h).1, id, id⟩

/-- A CMD write: dropped while BUSY, a start or a refusal while IDLE (R20). -/
theorem writeReg_cases {r : Reg} {v : Word} {s t : State} (h : writeReg r v s = .next t) :
    HostKeeps s t ∨ s.phase = .idle ∧ t = takeDelay (begin v s) := by
  cases r
  case cmd =>
    simp only [writeReg] at h
    split at h
    · cases h
      exact .inl ⟨rfl, rfl, rfl, rfl, rfl, rfl, rfl, rfl, rfl, id, id, id, id, id⟩
    · rename_i hb
      simp only [acceptCmd] at h
      split at h
      · cases h
      · cases h
        refine .inr ⟨?_, rfl⟩
        cases hp : s.phase
        · rfl
        · exact absurd hp hb
  case status =>
    cases h
    exact .inl (clearStatus_keeps v s)
  case arg =>
    cases h
    exact .inl ⟨rfl, rfl, rfl, rfl, rfl, rfl, rfl, rfl, rfl, id, id, id, id, id⟩
  all_goals
    cases h
    exact .inl (.refl s)

theorem jump_keeps {l : Nat} {s t : State} (h : jump l s = .next t) : HostKeeps s t := by
  unfold jump at h
  split at h
  · cases h
    exact ⟨rfl, rfl, rfl, rfl, rfl, rfl, rfl, rfl, rfl, id, id, id, id, id⟩
  · cases h

theorem hostWrite_keeps {a : Nat} {bs : List Byte} {s t : State} (h : hostWrite a bs s = .next t) : HostKeeps s t := by
  unfold hostWrite at h
  split at h
  · cases h
  · rename_i hw
    cases h
    rw [wraps_iff] at hw
    exact ⟨rfl, rfl, rfl, rfl, rfl, rfl, rfl, rfl, rfl, id, id, id, fun hm => Memory.wf_fill _ _ _ hm,
      fun hm => Memory.inSpace_fill _ (Nat.not_lt.1 hw) hm⟩

theorem hostRead_keeps {a n : Nat} {s t : State} (h : hostRead a n s = .next t) : HostKeeps s t := by
  unfold hostRead at h
  split at h
  · cases h
  · split at h
    · cases h
    · cases h
      exact ⟨rfl, rfl, rfl, rfl, rfl, rfl, rfl, rfl, rfl, id, id, id, id, id⟩

/-- Everything an operation of the host can do. -/
theorem hostOp_cases {o : HostOp} {s t : State} (h : hostOp o s = .next t) :
    HostKeeps s t ∨ (s.phase = .idle ∧ ∃ v, t = takeDelay (begin v s)) ∨ o = .reset ∧ t = engineReset s := by
  have start : ∀ {r v}, writeReg r v s = .next t →
      HostKeeps s t ∨ (s.phase = .idle ∧ ∃ v, t = takeDelay (begin v s)) ∨ o = .reset ∧ t = engineReset s := by
    intro r v hw
    rcases writeReg_cases hw with hk | ⟨hi, ht⟩
    · exact .inl hk
    · exact .inr (.inl ⟨hi, v, ht⟩)
  cases o <;> simp only [hostOp] at h
  case wr => exact start h
  case rd =>
    cases h
    exact .inl (readReg_keeps _ _)
  case busWrite =>
    split at h
    · exact start h
    · cases h
  case busRead =>
    split at h
    · cases h
      exact .inl (readReg_keeps _ _)
    · cases h
  case bnz =>
    split at h
    · exact .inl (jump_keeps h)
    · cases h
      exact .inl (.refl s)
  case bz =>
    split at h
    · exact .inl (jump_keeps h)
    · cases h
      exact .inl (.refl s)
  case jmp => exact .inl (jump_keeps h)
  case label =>
    cases h
    exact .inl (.refl s)
  case mw => exact .inl (hostWrite_keeps h)
  case mr => exact .inl (hostRead_keeps h)
  case clean =>
    cases h
    exact .inl ⟨rfl, rfl, rfl, rfl, rfl, rfl, rfl, rfl, rfl, id, id, id, id, id⟩
  case reset =>
    cases h
    exact .inr (.inr ⟨rfl, rfl⟩)
  case halt =>
    cases h
    exact .inl ⟨rfl, rfl, rfl, rfl, rfl, rfl, rfl, rfl, rfl, id, id, id, id, id⟩

/-- Everything a turn of the host can do: nothing after the end of its program, else its next operation. -/
theorem hostTurn_cases {s t : State} (h : hostTurn s = .next t) :
    t = s ∨ ∃ o, s.hostProg[s.hostPc]? = some o ∧ hostOp o (advance s) = .next t := by
  unfold hostTurn at h
  split at h
  · cases h
    exact .inl rfl
  · rename_i o ho
    exact .inr ⟨o, ho, h⟩

/-- The ranges of the running command lie in the memory space (R33). -/
theorem runningPlan_space (s : State) :
    (runningPlan s).rd.base + (runningPlan s).rd.len ≤ limit32
      ∧ (runningPlan s).wr.base + (runningPlan s).wr.len ≤ limit32 := by
  unfold runningPlan
  split
  · exact rangesOf_space _ _
  · decide
  · decide

/-- The register at a register's offset is that register (R16). -/
theorem regAt_regOffset (r : Reg) : regAt (regOffset r) = r := by
  cases r <;> first | rfl | (rename_i n; revert n; decide)

/-- Every register stands in the block, at an aligned offset (R16, R51). -/
theorem regOffset_aligned (r : Reg) : regOffset r < 0x100 ∧ regOffset r % 4 = 0 := by
  cases r <;> first | decide | (rename_i n; revert n; decide)

/-- What the reset input keeps, beside what its rule says it changes (R140). -/
theorem engineReset_keeps (s : State) :
    (engineReset s).config = s.config ∧ (s.mem.wf = true → (engineReset s).mem.wf = true)
      ∧ (s.mem.inSpace = true → (engineReset s).mem.inSpace = true) := by
  unfold engineReset
  by_cases hb : s.phase = .busy
  · simp only [hb, if_true]
    exact ⟨spoil_config .., fun h => Memory.wf_fill _ _ _ h,
      fun h => Memory.inSpace_fill _ (runningPlan_space s).2 h⟩
  · simp only [hb, if_false]
    exact ⟨trivial, id, id⟩

end Sys2Proof.Machine
end

