-- ==== Sys2Proof/Laws/PerInstr.lean ====
section
/-! SUPPORT. Statements made of every instruction, one lemma for each constructor. -/

namespace Sys2Proof.Laws.OpcodeByte

/-- The low byte of an instruction's word is its OPC, whatever its fields (R52, R53). -/
def Statement (i : Instr) : Prop := i.wellFormed = true → (encode i).toNat % 256 = i.opcode

theorem findName : Statement .findName := by unfold Statement; decide
theorem findDrm : Statement .findDrm := by unfold Statement; decide
theorem findV4l2 : Statement .findV4l2 := by unfold Statement; decide
theorem fmtInfo : Statement .fmtInfo := by unfold Statement; decide

theorem plane_word (opc plane : Nat) (h : opc < 256) (hp : plane < 16) :
    (commandWord opc plane 0 0 0).toNat % 256 = opc := by
  interval_cases plane <;> simp [commandWord, Nat.or_mod_two_pow (n := 8), Nat.shiftLeft_eq] <;> omega

theorem planeInfo (plane : Nat) : Statement (.planeInfo plane) := fun h =>
  plane_word 0x05 plane (by decide) (by simpa [Instr.wellFormed, planeFits] using h)

theorem stride (plane : Nat) : Statement (.stride plane) := fun h =>
  plane_word 0x08 plane (by decide) (by simpa [Instr.wellFormed, planeFits] using h)

theorem planeSize (plane : Nat) : Statement (.planeSize plane) := fun h =>
  plane_word 0x09 plane (by decide) (by simpa [Instr.wellFormed, planeFits] using h)

theorem frameSize : Statement .frameSize := by unfold Statement; decide
theorem fourccEnc : Statement .fourccEnc := by unfold Statement; decide
theorem fourccDec : Statement .fourccDec := by unfold Statement; decide

theorem convert (rng : RngField) (enc : EncField) (dmm : DmmField) : Statement (.convert rng enc dmm) := by
  cases rng <;> cases enc <;> cases dmm <;> unfold Statement <;> decide

theorem unpack : Statement .unpack := by unfold Statement; decide

theorem demosaic (dmm : DmmField) : Statement (.demosaic dmm) := by
  cases dmm <;> unfold Statement <;> decide

theorem csc (rng : RngField) (enc : EncField) : Statement (.csc rng enc) := by
  cases rng <;> cases enc <;> unfold Statement <;> decide

end Sys2Proof.Laws.OpcodeByte
end

