-- ==== Sys2Proof/Laws/Registry.lean ====
section
/-! SUPPORT. The functions the registry commands share: lookups, plane selection, sizes, and rounding up. -/

namespace Sys2Proof.Machine

/-- The lookup when a first entry passes the test (R68 to R70). -/
theorem findFormat_first {s : State} {opc : Nat} {test : Descriptor → Bool} {f : Nat} {d : Descriptor}
    (h : s.config.catalog[f]? = some d) (hd : test d = true)
    (hg : ∀ g e, g < f → s.config.catalog[g]? = some e → test e = false) :
    findFormat opc test s = complete (reported s opc f 0 0 f) 0 0 0 false s := by
  obtain ⟨hf, rfl⟩ := List.getElem?_eq_some_iff.1 h
  have hi : s.config.catalog.findIdx? test = some f := by
    rw [List.findIdx?_eq_some_iff_getElem]
    refine ⟨hf, hd, fun j hj => ?_⟩
    rw [hg j _ hj (List.getElem?_eq_getElem (by omega))]
    exact Bool.false_ne_true
  unfold findFormat
  rw [hi]

/-- The lookup when no entry passes the test. -/
theorem findFormat_none {s : State} {opc : Nat} {test : Descriptor → Bool} (hg : ∀ d ∈ s.config.catalog, test d = false) :
    findFormat opc test s = raiseError .formatNotFound s := by
  unfold findFormat
  rw [List.findIdx?_eq_none_iff.2 hg]

theorem formatPlane_none {s : State} {p : Nat} (h : s.config.catalog[operand s 0]? = none) :
    formatPlane s p = .error .formatNotFound := by
  simp [formatPlane, format, h]

theorem formatPlane_invalid {s : State} {p : Nat} {d : Descriptor} (h : s.config.catalog[operand s 0]? = some d)
    (hp : d.planes.length ≤ p) : formatPlane s p = .error .invalidPlane := by
  have hn : ¬ p < nplanes d := Nat.not_lt.2 hp
  simp [formatPlane, format, h, hn]

theorem formatPlane_ok {s : State} {p : Nat} {d : Descriptor} {q : PlaneInfo}
    (h : s.config.catalog[operand s 0]? = some d) (hp : d.planes[p]? = some q) :
    formatPlane s p = .ok d ∧ plane d p = q := by
  obtain ⟨hl, rfl⟩ := List.getElem?_eq_some_iff.1 hp
  have hn : p < nplanes d := hl
  exact ⟨by simp [formatPlane, format, h, hn], List.getD_eq_getElem _ _ hl⟩

theorem infoFits_iff (d : Descriptor) :
    infoFits d = true ↔ d.pgx ≤ 255 ∧ d.pgy ≤ 255 ∧ d.bits ≤ 255 := decide_eq_true_iff

theorem reported_small {s : State} {opc f p k v : Nat} (h : v < 2 ^ 32) : reported s opc f p k v = v := if_pos h

/-- What a result register shows depends on the catalog, never on the counter of draws (R5). -/
theorem reported_congr {s t : State} (h : t.config = s.config) (opc f p k v : Nat) :
    reported t opc f p k v = reported s opc f p k v := by
  simp [reported, h]

theorem planesField_small {s : State} {d : Descriptor} (h : d.planes.length ≤ 15) :
    planesField s d = d.planes.length := if_pos h

/-- The nplanes field never leaves its four bits (R71). -/
theorem planesField_lt (s : State) (d : Descriptor) : planesField s d < 16 := by
  unfold planesField
  split <;> omega

theorem codeOrZero_word (o : Option Word) : BitVec.ofNat 32 (codeOrZero o) = o.getD 0 := by
  cases o <;> simp [codeOrZero]

theorem completeSize_small {z : Nat} {s : State} (h : z < 2 ^ 32) : completeSize z s = complete z 0 0 0 false s :=
  if_neg (Nat.not_le.2 h)

theorem completeSize_large {z : Nat} {s : State} (h : 2 ^ 32 ≤ z) : completeSize z s = raiseError .invalidArgument s :=
  if_pos h

/-- roundUp gives the least multiple of m that is not below a (R10). -/
theorem roundUp_spec (a : Nat) {m : Nat} (hm : m ≠ 0) : m ∣ roundUp a m ∧ a ≤ roundUp a m ∧ roundUp a m < a + m := by
  unfold roundUp ceilDiv
  have h1 := Nat.div_add_mod (a + m - 1) m
  have h2 := Nat.mod_lt (a + m - 1) (Nat.pos_of_ne_zero hm)
  rw [Nat.mul_comm] at h1
  exact ⟨Nat.dvd_mul_left _ _, by omega, by omega⟩

/-- The catalog entries that hold one code of a kind are one entry, when that kind's codes are unique (R81). -/
theorem allDistinct_filterMap {α β : Type} [DecidableEq β] (g : α → Option β) (l : List α)
    (h : allDistinct (l.filterMap g) = true) {i j : Nat} (hi : i < l.length) (hj : j < l.length) {b : β}
    (h1 : g (l[i]) = some b) (h2 : g (l[j]) = some b) : i = j := by
  induction l generalizing i j with
  | nil => simp at hi
  | cons x xs ih =>
    have tail : allDistinct (xs.filterMap g) = true := by
      rw [List.filterMap_cons] at h
      split at h
      · exact h
      · simp only [allDistinct, Bool.and_eq_true] at h
        exact h.2
    have head : ∀ k (hk : k < xs.length), g x = some b → g (xs[k]) = some b → False := by
      intro k hk hx hxk
      rw [List.filterMap_cons, hx] at h
      simp only [allDistinct, Bool.and_eq_true, decide_eq_true_eq] at h
      exact h.1 (List.mem_filterMap.2 ⟨xs[k], List.getElem_mem hk, hxk⟩)
    rcases i with _ | i <;> rcases j with _ | j
    · rfl
    · exact (head j (by simpa using hj) h1 h2).elim
    · exact (head i (by simpa using hi) h2 h1).elim
    · rw [ih tail (by simpa using hi) (by simpa using hj) h1 h2]

end Sys2Proof.Machine
end

