-- ==== Sys2Proof/Tests/Slice0.lean ====
section
/-! SUPPORT. The model's own tests: the well-formedness smoke test, words written out from spec/30_encoding.md, one or
two vectors of spec/95_test_vectors.md for each command, and for every obligation a state and operands that meet its
hypotheses, clause by clause. -/

namespace Sys2Proof.Machine.Tests

/-! ### Helpers -/

/-- A memory that holds the bytes `bs` at `a`. -/
def put (a : Nat) (bs : List Nat) (m : Memory) : Memory := m.fill a bs.length fun i => BitVec.ofNat 8 (bs.getD i 0)

/-- The reset state with a command running whose snapshot is A[0..7] = `as` and C = `w`. -/
def running (w : Nat) (as : List Nat) (m : Memory) : State :=
  { State.reset with
    phase := .busy
    cmd := BitVec.ofNat 32 w
    snapC := BitVec.ofNat 32 w
    snapA := Vector.ofFn fun n => BitVec.ofNat 32 (as.getD n 0)
    mem := m }

/-- RESULT0..3, ERRCODE and STATUS after a next state. -/
def ends : Host.Outcome State Fault Refusal → Option (List Nat × Nat × Nat)
  | .next t => some (t.results.toList.map (·.toNat), t.errcode.toNat, (statusWord t).toNat)
  | .fault _ => none
  | .refused _ => none

/-- The n bytes at a after a next state. -/
def bytesAfter (a n : Nat) : Host.Outcome State Fault Refusal → Option (List Nat)
  | .next t => some ((t.mem.bytes a n).map (·.toNat))
  | .fault _ => none
  | .refused _ => none

/-! ### Well-formedness: PLANE has four bits (R54) -/

theorem test_planeInfo_16_refused : Instr.wellFormed (.planeInfo 16) = false := by decide
theorem test_stride_16_refused : Instr.wellFormed (.stride 16) = false := by decide
theorem test_planeSize_16_refused : Instr.wellFormed (.planeSize 16) = false := by decide
theorem test_plane_15_accepted : Instr.wellFormed (.planeInfo 15) = true := by decide

/-! ### Words written out from R52 to R57: DMM [17:16], ENC [15:14], RNG [13:12], PLANE [11:8], OPC [7:0] -/

theorem test_decode_findName : decode 0b00000000000000_00_00_00_0000_00000001 = .ok .findName := by decide
theorem test_decode_findDrm : decode 0b00000000000000_00_00_00_0000_00000010 = .ok .findDrm := by decide
theorem test_decode_findV4l2 : decode 0b00000000000000_00_00_00_0000_00000011 = .ok .findV4l2 := by decide
theorem test_decode_fmtInfo : decode 0b11111111111111_11_11_11_1111_00000100 = .ok .fmtInfo := by decide
theorem test_decode_planeInfo : decode 0b00000000000000_11_11_11_1010_00000101 = .ok (.planeInfo 10) := by decide
theorem test_decode_stride : decode 0b00000000000000_00_00_00_0001_00001000 = .ok (.stride 1) := by decide
theorem test_decode_planeSize : decode 0b00000000000000_00_00_00_1111_00001001 = .ok (.planeSize 15) := by decide
theorem test_decode_frameSize : decode 0b00000000000000_00_00_00_0000_00001010 = .ok .frameSize := by decide
theorem test_decode_fourccEnc : decode 0b00000000000000_00_00_00_0000_00001100 = .ok .fourccEnc := by decide
theorem test_decode_fourccDec : decode 0b00000000000000_00_00_00_0000_00001101 = .ok .fourccDec := by decide
theorem test_decode_convert :
    decode 0b00000000000000_01_10_01_0000_00010000 = .ok (.convert .full .bt2020 .bilinear) := by decide
theorem test_decode_unpack : decode 0b00000000000000_00_00_00_0000_00010001 = .ok .unpack := by decide
theorem test_decode_demosaic : decode 0b00000000000000_10_00_00_0000_00010010 = .ok (.demosaic .reserved2) := by decide
theorem test_decode_csc : decode 0b00000000000000_00_11_10_0000_00010011 = .ok (.csc .reserved2 .reserved3) := by decide

/-- The reserved words of spec/95_test_vectors.md 2.4. -/
theorem test_decode_reserved : ∀ w ∈ [0x00, 0x06, 0x07, 0x0B, 0x0E, 0x0F, 0x14, 0xFF],
    decode (BitVec.ofNat 32 w) = .error (.reservedOpcode w) := by decide

theorem test_tableWord_masks_to_nbits : decodeTableWord 8 0xFF05 = some (.planeInfo 0) := by decide

/-! ### Commands (the vectors of spec/95_test_vectors.md part 2) -/

theorem test_findName_nv12 :
    ends (exec .findName (running 1 [0x100, 4] (put 0x100 [0x4E, 0x56, 0x31, 0x32] [])))
      = some ([8, 0, 0, 0], 0, 0x2) := by decide +kernel

theorem test_findName_is_case_sensitive :
    ends (exec .findName (running 1 [0x100, 4] (put 0x100 [0x6E, 0x76, 0x31, 0x32] [])))
      = some ([0, 0, 0, 0], 1, 0x6) := by decide +kernel

theorem test_findDrm_xb30 : ends (exec .findDrm (running 2 [0x30334258] [])) = some ([4, 0, 0, 0], 0, 0x2) := by
  decide +kernel

theorem test_findDrm_rggb : ends (exec .findDrm (running 2 [0x42474752] [])) = some ([0, 0, 0, 0], 1, 0x6) := by
  decide +kernel

theorem test_findV4l2_praa : ends (exec .findV4l2 (running 3 [0x41415270] [])) = some ([14, 0, 0, 0], 0, 0x2) := by
  decide +kernel

theorem test_findV4l2_zero : ends (exec .findV4l2 (running 3 [0] [])) = some ([0, 0, 0, 0], 1, 0x6) := by
  decide +kernel

theorem test_fmtInfo_nv12 :
    ends (exec .fmtInfo (running 4 [8] [])) = some ([0x08020221, 0x3231564E, 0x3231564E, 0x90F], 0, 0x2) := by
  decide +kernel

theorem test_fmtInfo_csi2_12 :
    ends (exec .fmtInfo (running 4 [38] [])) = some ([0x0C01021F, 0, 0x4331434D, 0x00F], 0, 0x2) := by
  decide +kernel

theorem test_planeInfo_nv16_chroma :
    ends (exec (.planeInfo 1) (running 0x105 [9] [])) = some ([2, 2, 2, 1], 0, 0x2) := by decide +kernel

theorem test_planeInfo_past_the_last : ends (exec (.planeInfo 2) (running 0x205 [8] [])) = some ([0, 0, 0, 0], 7, 0x6) := by
  decide +kernel

theorem test_stride_rounds_up : ends (exec (.stride 1) (running 0x108 [8, 641, 64] [])) = some ([704, 0, 0, 0], 0, 0x2) := by
  decide +kernel

theorem test_stride_over_32_bits :
    ends (exec (.stride 0) (running 0x008 [0, 0x55555556, 1] [])) = some ([0, 0, 0, 0], 9, 0x6) := by decide +kernel

theorem test_planeSize_rounds_rows_up :
    ends (exec (.planeSize 1) (running 0x109 [8, 640, 481] [])) = some ([154240, 0, 0, 0], 0, 0x2) := by decide +kernel

theorem test_planeSize_of_2_32 :
    ends (exec (.planeSize 0) (running 0x009 [0, 65536, 65536] [])) = some ([0, 0, 0, 0], 9, 0x6) := by decide +kernel

theorem test_frameSize_sums_planes :
    ends (exec .frameSize (running 0x0A [8, 641, 481, 1] [])) = some ([463524, 0, 0, 0], 0, 0x2) := by decide +kernel

theorem test_frameSize_align_zero :
    ends (exec .frameSize (running 0x0A [0, 1, 1, 0] [])) = some ([0, 0, 0, 0], 9, 0x6) := by decide +kernel

theorem test_fourccEnc_praa :
    ends (exec .fourccEnc (running 0x0C [0x100, 4] (put 0x100 [0x70, 0x52, 0x41, 0x41] [])))
      = some ([0x41415270, 0, 0, 0], 0, 0x2) := by decide +kernel

theorem test_fourccEnc_wraps :
    ends (exec .fourccEnc (running 0x0C [0xFFFFFFFD, 4] [])) = some ([0, 0, 0, 0], 9, 0x6) := by decide +kernel

theorem test_fourccDec_praa :
    bytesAfter 0x200 4 (exec .fourccDec (running 0x0D [0x41415270, 0x200] [])) = some [0x70, 0x52, 0x41, 0x41] := by
  decide +kernel

theorem test_fourccDec_wraps :
    ends (exec .fourccDec (running 0x0D [0x41415270, 0xFFFFFFFD] [])) = some ([0, 0, 0, 0], 9, 0x6) := by
  decide +kernel

theorem test_unpack_10 :
    bytesAfter 0x2000 10 (exec .unpack (running 0x11 [0x1000, 10, 0x2000, 10, 5, 1, 0, 10]
      (put 0x1000 [0x12, 0x34, 0x56, 0x78, 0xE4, 0x9A, 0, 0, 0, 0xC0] [])))
      = some [0x4B, 0x00, 0xD2, 0x00, 0x59, 0x01, 0xE0, 0x01, 0x6B, 0x02] := by decide +kernel

theorem test_unpack_12_with_padding :
    bytesAfter 0x2000 8 (exec .unpack (running 0x11 [0x1000, 8, 0x2000, 8, 2, 2, 4, 12]
      (put 0x1000 [0xAB, 0xCD, 0xEF, 0x77, 0x01, 0x02, 0x34, 0x77] [])))
      = some [0xBE, 0x0A, 0xDF, 0x0C, 0x13, 0x00, 0x24, 0x00] := by decide +kernel

theorem test_demosaic_grbg_bilinear :
    bytesAfter 0x3000 24 (exec (.demosaic .bilinear) (running 0x10012 [0x1000, 8, 0x3000, 24, 2, 2, 2]
      (put 0x1000 [200, 0, 100, 0, 120, 0, 50, 0] [])))
      = some [120, 0, 200, 0, 100, 0, 120, 0, 125, 0, 100, 0, 120, 0, 125, 0, 100, 0, 120, 0, 50, 0, 100, 0] := by
  decide +kernel

theorem test_demosaic_one_row_sets_dzc :
    ends (exec (.demosaic .window3x3) (running 0x12 [0x1100, 8, 0x3000, 24, 4, 1, 0]
      (put 0x1100 [7, 0, 9, 0, 11, 0, 13, 0] []))) = some ([24, 0, 0, 0], 0, 0xA) := by decide +kernel

theorem test_csc_bt709_full :
    bytesAfter 0x2000 6 (exec (.csc .full .bt709) (running 0x5013 [0x1000, 6, 0x2000, 6, 2]
      (put 0x1000 [235, 128, 128, 81, 90, 240] []))) = some [235, 235, 235, 10, 35, 255] := by decide +kernel

/-- R116: where the exact G is an integer, the left-to-right binary64 order falls one below it. -/
theorem test_csc_evaluation_order :
    cscChannel defaultConfig .bt601 .full .g 94 28 228 = 57
      ∧ cscChannel { defaultConfig with cscEval := .binary64LeftToRight } .bt601 .full .g 94 28 228 = 56 := by
  decide +kernel

theorem test_convert_nv12 :
    bytesAfter 0x2000 18 (exec (.convert .limited .bt601 .window3x3) (running 0x10 [0x1000, 12, 0x2000, 18, 8, 3, 2, 0]
      (put 0x1000 [16, 235, 128, 0, 81, 145, 41, 0, 90, 240, 128, 128] [])))
      = some [0, 0, 178, 178, 178, 255, 130, 130, 130, 0, 0, 254, 73, 74, 255, 29, 29, 29] := by decide +kernel

theorem test_convert_srggb10p_bilinear :
    bytesAfter 0x4000 24 (exec (.convert .limited .bt601 .bilinear)
      (running 0x10010 [0x1000, 10, 0x4000, 24, 14, 4, 2, 0]
        (put 0x1000 [0xFF, 0x80, 0x00, 0x40, 0xCC, 0x19, 0x32, 0x4B, 0x64, 0x00] [])))
      = some [50, 76, 255, 50, 128, 128, 75, 89, 0, 100, 64, 0, 50, 25, 255, 50, 76, 128, 75, 75, 0, 100, 69, 0] := by
  decide +kernel

/-! ### Witnesses: what each obligation assumes is met -/

theorem accepts_everything (s : State) (k : AccessKind) (a n : Nat) (h : s.config.busHoles = []) :
    BusAccepts s k a n := by
  intro b _ _
  simp [busOk, h]

theorem first_at {P : Descriptor → Prop} {l : List Descriptor} {f : Nat} (h : ∀ e ∈ l.take f, P e) (g : Nat)
    (e : Descriptor) (hg : g < f) (he : l[g]? = some e) : P e :=
  h e (List.mem_of_getElem? (i := g) (by rw [List.getElem?_take_of_lt hg, he]))

/-- The NV12, BGR888 and SRGGB10P entries of R67. -/
def nv12 : Descriptor :=
  ⟨ascii "NV12", some 0x3231564E, some 0x3231564E, .yuv, false, 2, 2, [⟨2, 2, 1, 1⟩, ⟨2, 2, 2, 2⟩], false, 8, none,
    .spCbcr⟩

def bgr888 : Descriptor := ⟨ascii "BGR888", none, none, .rgb, false, 1, 1, [⟨3, 1, 1, 1⟩], false, 8, none, .rgbCopy3⟩

/-- A parameter catalog of one entry. -/
def only (d : Descriptor) (s : State) : State :=
  { s with config := { s.config with catalog := [d] } }

/-- The same state on a platform with one refused byte for one kind of access. -/
def holed (k : AccessKind) (a : Nat) (s : State) : State :=
  { s with config := { s.config with busHoles := [⟨⟨a, 1⟩, k⟩] } }

theorem holed_refuses (k : AccessKind) (a n b : Nat) (s : State) (h1 : a ≤ b) (h2 : b < a + n) :
    ¬ BusAccepts (holed k b s) k a n := by
  intro h
  have := h b h1 h2
  simp [busOk, holed, inRange] at this

/-- "NV12" at the top of the memory space. -/
def nv12AtTop : Memory := put 0xFFFFFFFC [0x4E, 0x56, 0x31, 0x32] []

theorem witness_ResetInputClearsRegistersAndSpoilsOnlyTheWriteRange :
    State.reset.mem.wf = true ∧ State.reset.phase = .idle
      ∧ (running 0x0D [1, 0xFFFFFFFC] nv12AtTop).mem.wf = true ∧ (running 0x0D [1, 0xFFFFFFFC] nv12AtTop).phase = .busy
      ∧ 3 < (runningPlan (running 0x0D [1, 0xFFFFFFFC] nv12AtTop)).wr.len := by decide +kernel

/-- An abandoned CSC whose checks would fail (its destination length is 0): its write range is that of R118, cut where
the memory space ends. -/
theorem test_reset_spoils_a_failing_command :
    (planOf (.csc .limited .bt601) (running 0x13 [0, 6, 0xFFFFFFFD, 0, 2] [])).toOption = none
      ∧ (runningPlan (running 0x13 [0, 6, 0xFFFFFFFD, 0, 2] [])).wr = ⟨0xFFFFFFFD, 3⟩ := by decide

theorem witness_ResetInput_failing :
    (running 0x13 [0, 6, 0x100, 0, 2] []).mem.wf = true ∧ (running 0x13 [0, 6, 0x100, 0, 2] []).phase = .busy
      ∧ decode (running 0x13 [0, 6, 0x100, 0, 2] []).snapC = .ok (.csc .limited .bt601)
      ∧ decode (running 0x14 [] []).snapC = .error (.reservedOpcode 0x14)
      ∧ decode (running 0x0C [] []).snapC = .ok .fourccEnc ∧ decode (running 0x0D [] []).snapC = .ok .fourccDec
      ∧ decode (running 0x10 [] []).snapC = .ok (.convert .limited .bt601 .window3x3)
      ∧ decode (running 0x11 [] []).snapC = .ok .unpack
      ∧ decode (running 0x12 [] []).snapC = .ok (.demosaic .window3x3) := by decide

/-- Each clause of R16's map at the ends of its range of offsets, and the two ways to miss the form of R51. -/
theorem witness_BusAccessesFollowTheRegisterMap :
    (∃ n : Fin 8, 0x20 = 0x20 + 4 * n.val ∧ Reg.arg 0 = .arg n)
      ∧ (∃ n : Fin 8, 0x3C = 0x20 + 4 * n.val ∧ Reg.arg 7 = .arg n)
      ∧ (∃ n : Fin 4, 0x40 = 0x40 + 4 * n.val ∧ Reg.result 0 = .result n)
      ∧ (∃ n : Fin 4, 0x4C = 0x40 + 4 * n.val ∧ Reg.result 3 = .result n)
      ∧ (∃ n : Fin 44, 0x50 = 0x50 + 4 * n.val ∧ Reg.reserved 0 = .reserved n)
      ∧ (∃ n : Fin 44, 0xFC = 0x50 + 4 * n.val ∧ Reg.reserved 43 = .reserved n)
      ∧ ¬ (32 = 32 ∧ 0xFF % 4 = 0) ∧ ¬ (16 = 32 ∧ 0 % 4 = 0) := by decide

theorem witness_IdentityRegistersAreConstant : State.reset.config.catalog.length < 2 ^ 32 := by decide

theorem witness_RegisterWritesSetArgsAndNothingReadOnly :
    (7 : Fin 8) ≠ 0 ∧ (HostValue.lit 7 = .lit 7) ∧ (HostValue.acc = .acc ∧ State.reset.acc = 0) := by decide

theorem witness_StatusReadsItsBitsAndClearsOnOne :
    (HostValue.lit 0x1E = .lit 0x1E) ∧ (HostValue.acc = .acc ∧ State.reset.acc = 0) := by decide

/-- FOURCC_DEC into the four bytes between an unseen host write before them and a region with read side effects after
them. -/
theorem witness_AcceptedCmdWriteStartsTheCommand :
    let s : State := { State.reset with
      args := #v[1, 0x100, 0, 0, 0, 0, 0, 0]
      acc := 0x0D
      unseen := [⟨0xFF, 1⟩]
      config := { defaultConfig with readHazards := [⟨0x104, 1⟩], coherent := false } }
    (HostValue.acc = .acc ∧ s.acc = 0x0D) ∧ s.phase = .idle
      ∧ ∀ i p a, decode 0x0D = .ok i → planOf i { s with snapA := s.args } = .ok p →
        ((∃ r ∈ s.unseen, inRange r a = true) → inRange p.rd a = false)
        ∧ ((∃ r ∈ s.config.readHazards, inRange r a = true) → inRange p.rd a = false ∧ inRange p.wr a = false) := by
  refine ⟨by decide, rfl, fun i p a hi hp => ?_⟩
  have hd : decode 0x0D = .ok .fourccDec := by decide
  rw [hd] at hi
  cases hi
  cases hp
  simp only [inRange, List.mem_singleton, exists_eq_left, decide_eq_true_eq, decide_eq_false_iff_not]
  simp only [emptyRange]
  exact ⟨fun h => by omega, fun h => ⟨by omega, by show ¬ (0x100 ≤ a ∧ a < 0x100 + 4); omega⟩⟩

theorem witness_CmdWriteWhileBusyOnlySetsCmdlost : (running 0x0A [] []).phase = .busy := by decide

/-- FOURCC_ENC of four bytes the host wrote and the platform has not made visible. -/
theorem witness_StartsThatBreakAHostDutyAreRefused_unseen :
    let s : State := { State.reset with args := #v[0x100, 4, 0, 0, 0, 0, 0, 0], unseen := [⟨0x103, 1⟩] }
    s.phase = .idle ∧ decode 0x0C = .ok .fourccEnc
      ∧ planOf .fourccEnc { s with snapA := s.args } = .ok ⟨⟨0x100, 4⟩, emptyRange⟩
      ∧ BusAccepts s .read 0x100 4 ∧ BusAccepts s .write emptyRange.base emptyRange.len
      ∧ (∃ r ∈ s.unseen, inRange r 0x103 = true) ∧ inRange ⟨0x100, 4⟩ 0x103 = true :=
  ⟨rfl, by decide, by decide, accepts_everything _ _ _ _ rfl, accepts_everything _ _ _ _ rfl, by decide, by decide⟩

/-- FOURCC_ENC of, and FOURCC_DEC into, a region whose reads have side effects. -/
theorem witness_StartsThatBreakAHostDutyAreRefused_hazard :
    let s : State := { State.reset with
      args := #v[0x100, 0x104, 0, 0, 0, 0, 0, 0]
      config := { defaultConfig with readHazards := [⟨0x104, 1⟩] } }
    s.phase = .idle ∧ decode 0x0D = .ok .fourccDec
      ∧ planOf .fourccDec { s with snapA := s.args } = .ok ⟨emptyRange, ⟨0x104, 4⟩⟩
      ∧ BusAccepts s .read emptyRange.base emptyRange.len ∧ BusAccepts s .write 0x104 4 ∧ s.unseen = []
      ∧ (∃ r ∈ s.config.readHazards, inRange r 0x104 = true) ∧ inRange ⟨0x104, 4⟩ 0x104 = true :=
  ⟨rfl, by decide, by decide, accepts_everything _ _ _ _ rfl, accepts_everything _ _ _ _ rfl, rfl, by decide, by decide⟩

theorem witness_ReservedOpcodeEndsWithIllegalCommand :
    (running 0xFFFFFF14 [] []).snapC.toNat % 256
        ∉ [0x01, 0x02, 0x03, 0x04, 0x05, 0x08, 0x09, 0x0A, 0x0C, 0x0D, 0x10, 0x11, 0x12, 0x13]
      ∧ (running 0xFFFFFF14 [] []).phase = .busy ∧ (running 0xFFFFFF14 [] []).wait = 0 := by decide

theorem witness_RunningCommandReadsOnlyTheSnapshot :
    ∃ t, exec .fourccDec (running 0x0D [1, 0x200] []) = .next t := ⟨_, rfl⟩

theorem witness_EveryCompletionSucceedsOrReportsOneError :
    (∃ t, exec .fourccDec (running 0x0D [1, 0x200] []) = .next t)
      ∧ ∃ t, exec .fourccDec (running 0x0D [1, 0xFFFFFFFD] []) = .next t := ⟨⟨_, rfl⟩, ⟨_, rfl⟩⟩

theorem witness_FailedChecksLeaveMemoryUntouched :
    planOf .fourccDec (running 0x0D [1, 0xFFFFFFFD] []) = .error .invalidArgument := by decide

/-- The last byte read is refused, and the last byte written. -/
theorem witness_RefusedAccessEndsWithBusError :
    (let s := holed .read 0xFFFFFFFF (running 0x0C [0xFFFFFFFC, 4] nv12AtTop);
      s.mem.wf = true ∧ planOf .fourccEnc s = .ok ⟨⟨0xFFFFFFFC, 4⟩, emptyRange⟩
        ∧ inRange ⟨0xFFFFFFFC, 4⟩ 0xFFFFFFFF = true ∧ busOk s.config 0xFFFFFFFF .read = false)
    ∧ (let s := holed .write 0xFFFFFFFF (running 0x0D [1, 0xFFFFFFFC] nv12AtTop);
      s.mem.wf = true ∧ planOf .fourccDec s = .ok ⟨emptyRange, ⟨0xFFFFFFFC, 4⟩⟩
        ∧ inRange ⟨0xFFFFFFFC, 4⟩ 0xFFFFFFFF = true ∧ busOk s.config 0xFFFFFFFF .write = false) := by
  decide +kernel

/-- Two adjacent ranges that do not meet, the second at the top of the memory space. -/
def cscAtTop : State := running 0x13 [0xFFFFFFFA, 3, 0xFFFFFFFD, 3, 1] (put 0xFFFFFFFA [235, 128, 128] [])

theorem witness_PlannedRangesFitMemoryAndDoNotMeet :
    planOf (.csc .limited .bt601) cscAtTop = .ok ⟨⟨0xFFFFFFFA, 3⟩, ⟨0xFFFFFFFD, 3⟩⟩ := by decide

theorem witness_CommandsWriteOnlyTheirWriteRange :
    (∃ t, exec (.csc .limited .bt601) cscAtTop = .next t)
      ∧ planOf (.csc .limited .bt601) cscAtTop = .ok ⟨⟨0xFFFFFFFA, 3⟩, ⟨0xFFFFFFFD, 3⟩⟩
      ∧ (∃ t, exec (.csc .limited .reserved3) cscAtTop = .next t)
      ∧ planOf (.csc .limited .reserved3) cscAtTop = .error .invalidArgument :=
  ⟨⟨_, rfl⟩, by decide, ⟨_, rfl⟩, by decide⟩

theorem witness_CommandsDependOnTheirInputsAlone :
    cscAtTop.mem.wf = true ∧ (put 0 [7] cscAtTop.mem).wf = true
      ∧ planOf (.csc .limited .bt601) cscAtTop = .ok ⟨⟨0xFFFFFFFA, 3⟩, ⟨0xFFFFFFFD, 3⟩⟩
      ∧ (∀ a, inRange ⟨0xFFFFFFFA, 3⟩ a = true → (put 0 [7] cscAtTop.mem).read a = cscAtTop.mem.read a)
      ∧ ∃ t, exec (.csc .limited .bt601) cscAtTop = .next t := by
  refine ⟨by decide, by decide, by decide, fun a h => ?_, _, rfl⟩
  simp only [inRange, decide_eq_true_eq] at h
  obtain ⟨h1, h2⟩ := h
  interval_cases a <;> decide

theorem witness_CommandsDependOnTheirInputsAlone_draws :
    NoRace cscAtTop ∧ (∀ p, planOf (.csc .limited .bt601) cscAtTop = .ok p →
        BusAccepts cscAtTop .read p.rd.base p.rd.len ∧ BusAccepts cscAtTop .write p.wr.base p.wr.len)
      ∧ ∃ t, exec (.csc .limited .bt601) cscAtTop = .next t :=
  ⟨rfl, fun _ _ => ⟨accepts_everything _ _ _ _ rfl, accepts_everything _ _ _ _ rfl⟩, _, rfl⟩

theorem witness_FindNameReturnsTheFirstEqualName_checks :
    (operand (running 1 [0x100, 0] []) 1 = 0 ∧ 32 < operand (running 1 [0x100, 33] []) 1)
      ∧ (let s := running 1 [0xFFFFFFE1, 32] [];
        1 ≤ operand s 1 ∧ operand s 1 ≤ 32 ∧ 2 ^ 32 < operand s 0 + operand s 1)
      ∧ (let s := holed .read 0xFFFFFFFF (running 1 [0xFFFFFFE0, 32] []);
        1 ≤ operand s 1 ∧ operand s 1 ≤ 32 ∧ operand s 0 + operand s 1 ≤ 2 ^ 32
          ∧ ¬ BusAccepts s .read 0xFFFFFFE0 32) :=
  ⟨by decide, by decide, by decide, by decide, by decide, holed_refuses _ _ _ _ _ (by decide) (by decide)⟩

theorem witness_FindNameReturnsTheFirstEqualName_found :
    let s := running 1 [0xFFFFFFFC, 4] nv12AtTop
    1 ≤ operand s 1 ∧ operand s 1 ≤ 32 ∧ operand s 0 + operand s 1 ≤ 2 ^ 32 ∧ BusAccepts s .read 0xFFFFFFFC 4
      ∧ NoRace s ∧ s.config.catalog[8]? = some nv12 ∧ nv12.name = s.mem.bytes 0xFFFFFFFC 4
      ∧ (∀ g e, g < 8 → s.config.catalog[g]? = some e → e.name ≠ s.mem.bytes 0xFFFFFFFC 4)
      ∧ ∀ d ∈ s.config.catalog, d.name ≠ s.mem.bytes 0x100 1 :=
  ⟨by decide, by decide, by decide, accepts_everything _ _ _ _ rfl, rfl, by decide, by decide,
    first_at (by decide +kernel), by decide +kernel⟩

theorem witness_FindByCodeReturnsTheFirstEqualCode :
    (let s := running 2 [0x3231564E] [];
      s.config.catalog[8]? = some nv12 ∧ nv12.drm = some s.snapA[0] ∧ nv12.v4l2 = some s.snapA[0]
        ∧ (∀ g e, g < 8 → s.config.catalog[g]? = some e → e.drm ≠ some s.snapA[0])
        ∧ ∀ g e, g < 8 → s.config.catalog[g]? = some e → e.v4l2 ≠ some s.snapA[0])
    ∧ (let s := running 2 [0] [];
      (∀ d ∈ s.config.catalog, d.drm ≠ some s.snapA[0]) ∧ ∀ d ∈ s.config.catalog, d.v4l2 ≠ some s.snapA[0]) :=
  ⟨⟨by decide, by decide, by decide, first_at (by decide +kernel), first_at (by decide +kernel)⟩, by decide +kernel⟩

theorem witness_LookupsInvertAUniqueCatalog :
    catalogOk defaultCatalog = true ∧ defaultCatalog[8]? = some nv12
      ∧ nv12.drm = some (running 2 [0x3231564E] []).snapA[0] ∧ nv12.v4l2 = some (running 2 [0x3231564E] []).snapA[0]
      ∧ (running 2 [0] []).snapA[0] = 0 := by decide +kernel

/-- More planes than the info word can hold, or a plane field past 32 bits, do not end a run (log entry 13). -/
theorem test_readouts_of_a_wide_catalog_run :
    (ends (exec .fmtInfo (only { nv12 with planes := List.replicate 16 ⟨1, 1, 1, 1⟩ } (running 4 [0] [])))).isSome = true
      ∧ (ends (exec (.planeInfo 0) (only { nv12 with planes := [⟨2 ^ 32, 1, 1, 1⟩] } (running 5 [0] [])))).isSome
        = true := ⟨rfl, rfl⟩

/-- R66: names and codes are ASCII. -/
theorem test_catalog_refuses_non_ascii :
    descriptorOk { nv12 with name := [0x80] } = false ∧ descriptorOk { nv12 with drm := some 0x32315680 } = false
      ∧ descriptorOk { nv12 with name := [0x7F] } = true := by decide

/-- An ID one past the last, fields at their widest, and one field one past it. -/
theorem witness_FmtInfoReportsTheDescriptor :
    (running 4 [39] []).config.catalog[operand (running 4 [39] []) 0]? = none
      ∧ (let d : Descriptor := { nv12 with planes := List.replicate 15 ⟨1, 1, 1, 1⟩, pgx := 255, pgy := 255, bits := 255 };
        (only d (running 4 [0] [])).config.catalog[operand (only d (running 4 [0] [])) 0]? = some d
          ∧ d.planes.length ≤ 15 ∧ d.pgx ≤ 255 ∧ d.pgy ≤ 255 ∧ d.bits ≤ 255)
      ∧ (let d : Descriptor := { nv12 with bits := 256 };
        (only d (running 4 [0] [])).config.catalog[operand (only d (running 4 [0] [])) 0]? = some d ∧ 255 < d.bits) := by
  decide +kernel

theorem witness_PlaneInfoReportsThePlane :
    (running 5 [39] []).config.catalog[operand (running 5 [39] []) 0]? = none
      ∧ (running 5 [8] []).config.catalog[operand (running 5 [8] []) 0]? = some nv12
      ∧ nv12.planes.length ≤ 2 ∧ nv12.planes[1]? = some ⟨2, 2, 2, 2⟩
      ∧ (let d : Descriptor := { nv12 with planes := [⟨2 ^ 32, 2 ^ 32 - 1, 1, 1⟩] };
        (only d (running 5 [0] [])).config.catalog[operand (only d (running 5 [0] [])) 0]? = some d
          ∧ d.planes[0]? = some ⟨2 ^ 32, 2 ^ 32 - 1, 1, 1⟩ ∧ (⟨2 ^ 32, 2 ^ 32 - 1, 1, 1⟩ : PlaneInfo).ppg < 2 ^ 32) := by
  decide +kernel

/-- The largest stride, 0xFFFFFFFF, and one group more. -/
theorem witness_StrideIsTheLeastAlignedRowLength :
    (running 8 [39] []).config.catalog[operand (running 8 [39] []) 0]? = none
      ∧ (running 8 [0, 3, 0] []).config.catalog[operand (running 8 [0, 3, 0] []) 0]? = some bgr888
      ∧ bgr888.planes.length ≤ 1 ∧ bgr888.planes[0]? = some ⟨3, 1, 1, 1⟩ ∧ operand (running 8 [0, 3, 0] []) 2 = 0
      ∧ operand (running 8 [0, 0x55555555, 1] []) 2 ≠ 0
      ∧ (operand (running 8 [0, 0x55555555, 1] []) 1 + 1 - 1) / 1 * 3 < 2 ^ 32
      ∧ 2 ^ 32 ≤ (operand (running 8 [0, 0x55555556, 1] []) 1 + 1 - 1) / 1 * 3 := by decide +kernel

theorem witness_PlaneSizeIsStrideTimesRows :
    (running 9 [39] []).config.catalog[operand (running 9 [39] []) 0]? = none
      ∧ (running 9 [0, 65536, 65535] []).config.catalog[operand (running 9 [0, 65536, 65535] []) 0]? = some bgr888
      ∧ bgr888.planes.length ≤ 1 ∧ bgr888.planes[0]? = some ⟨3, 1, 1, 1⟩
      ∧ operand (running 9 [0, 65536, 65535] []) 1 * ((operand (running 9 [0, 65536, 65535] []) 2 + 1 - 1) / 1) < 2 ^ 32
      ∧ 2 ^ 32 ≤ operand (running 9 [0, 65536, 65536] []) 1
          * ((operand (running 9 [0, 65536, 65536] []) 2 + 1 - 1) / 1) := by decide +kernel

/-- spec/95_test_vectors.md: 37837 x 37837 is the largest square BGR888 frame. -/
theorem witness_FrameSizeIsTheSumOfThePlanes :
    (running 10 [39] []).config.catalog[operand (running 10 [39] []) 0]? = none
      ∧ (let s := running 10 [0, 37837, 37837, 0] [];
        s.config.catalog[operand s 0]? = some bgr888 ∧ operand s 3 = 0)
      ∧ (let s := running 10 [0, 37837, 37837, 1] [];
        operand s 3 ≠ 0 ∧ ((operand s 1 + 1 - 1) / 1 * 3 + 1 - 1) / 1 * 1 * ((operand s 2 + 1 - 1) / 1) < 2 ^ 32)
      ∧ (let s := running 10 [0, 37838, 37838, 1] [];
        operand s 3 ≠ 0 ∧ 2 ^ 32 ≤ ((operand s 1 + 1 - 1) / 1 * 3 + 1 - 1) / 1 * 1 * ((operand s 2 + 1 - 1) / 1)) := by
  decide +kernel

theorem witness_GeometryKeepsItsProperties : 1 ≤ 1 ∧ (plane bgr888 0).bpg ∣ 3 := by decide

theorem witness_FourccEncPacksFourBytes :
    operand (running 12 [0x100, 5] []) 1 ≠ 4
      ∧ (let s := running 12 [0xFFFFFFFD, 4] [];
        operand s 1 = 4 ∧ 2 ^ 32 < operand s 0 + 4)
      ∧ (let s := holed .read 0xFFFFFFFF (running 12 [0xFFFFFFFC, 4] []);
        operand s 1 = 4 ∧ operand s 0 + 4 ≤ 2 ^ 32 ∧ ¬ BusAccepts s .read 0xFFFFFFFC 4)
      ∧ (let s := running 12 [0xFFFFFFFC, 4] nv12AtTop;
        operand s 1 = 4 ∧ operand s 0 + 4 ≤ 2 ^ 32 ∧ BusAccepts s .read 0xFFFFFFFC 4 ∧ NoRace s) :=
  ⟨by decide, by decide, ⟨by decide, by decide, holed_refuses _ _ _ _ _ (by decide) (by decide)⟩, by decide, by decide,
    accepts_everything _ _ _ _ rfl, rfl⟩

theorem witness_FourccDecWritesFourBytes :
    (let s := running 13 [1, 0xFFFFFFFD] [];
      s.mem.wf = true ∧ 2 ^ 32 < operand s 1 + 4)
    ∧ (let s := holed .write 0xFFFFFFFF (running 13 [1, 0xFFFFFFFC] []);
      s.mem.wf = true ∧ operand s 1 + 4 ≤ 2 ^ 32 ∧ ¬ BusAccepts s .write 0xFFFFFFFC 4)
    ∧ (let s := running 13 [1, 0xFFFFFFFC] nv12AtTop;
      s.mem.wf = true ∧ operand s 1 + 4 ≤ 2 ^ 32 ∧ BusAccepts s .write 0xFFFFFFFC 4 ∧ NoRace s) :=
  ⟨by decide, ⟨by decide, by decide, holed_refuses _ _ _ _ _ (by decide) (by decide)⟩, by decide, by decide,
    accepts_everything _ _ _ _ rfl, rfl⟩

theorem witness_FourccCodecRoundTrips :
    (let s := running 13 [0x41415270, 0xFFFFFFFC] [];
      ∃ t, exec .fourccDec s = .next t ∧ s.mem.wf = true ∧ NoRace s ∧ operand s 1 + 4 ≤ 2 ^ 32
        ∧ BusAccepts s .write (operand s 1) 4
        ∧ ∃ u : State, u.mem = t.mem ∧ NoRace u ∧ operand u 0 = operand s 1 ∧ operand u 1 = 4
          ∧ BusAccepts u .read (operand u 0) 4)
    ∧ (let s := running 12 [0xFFFFFFFC, 4] nv12AtTop;
      ∃ t, exec .fourccEnc s = .next t ∧ NoRace s ∧ operand s 1 = 4 ∧ operand s 0 + 4 ≤ 2 ^ 32
        ∧ BusAccepts s .read (operand s 0) 4
        ∧ ∃ u : State, u.mem.wf = true ∧ NoRace u ∧ u.snapA[0] = t.results[0] ∧ operand u 1 + 4 ≤ 2 ^ 32
          ∧ BusAccepts u .write (operand u 1) 4) :=
  ⟨⟨_, rfl, by decide, rfl, by decide, accepts_everything _ _ _ _ rfl,
      (running 12 [0xFFFFFFFC, 4] []).withMem _, rfl, rfl, by decide, by decide, accepts_everything _ _ _ _ rfl⟩,
    ⟨_, rfl, rfl, by decide, by decide, accepts_everything _ _ _ _ rfl, running 13 [0x3231564E, 0x200] [], by decide,
      rfl, by decide +kernel, by decide, accepts_everything _ _ _ _ rfl⟩⟩

theorem witness_RowFunctionTakesTheStatedBits : ∀ i : Nat, (fun _ => 255 : Nat → Nat) i < 256 := by
  intro i
  simp

/-- spec/95_test_vectors.md S11 and S16. -/
theorem witness_UnpackInvertsPacking :
    (let v : Fin 4 → Nat := ![1023, 512, 3, 256];
      let b : Nat → Nat := fun i => [0xFF, 0x80, 0x00, 0x40, 0xCC].getD i 0
      (∀ i, v i < 1024) ∧ (∀ i : Fin 4, b i.val = v i >>> 2)
        ∧ b 4 = (v 0 &&& 3) <<< 6 + (v 1 &&& 3) <<< 4 + (v 2 &&& 3) <<< 2 + (v 3 &&& 3))
    ∧ (let v : Fin 2 → Nat := ![0xABE, 0xCDF];
      let b : Nat → Nat := fun i => [0xAB, 0xCD, 0xEF].getD i 0
      (∀ i, v i < 4096) ∧ (∀ i : Fin 2, b i.val = v i >>> 4) ∧ b 2 = (v 0 &&& 0xF) <<< 4 ||| (v 1 &&& 0xF)) := by
  decide

/-- Buffers of which the destination ends where the memory space ends and starts where the source ends. -/
def touching (w ns nd : Nat) (rest : List Nat) : State :=
  running w ([0x100000000 - nd - ns, ns, 0x100000000 - nd, nd] ++ rest) []

theorem touching_ready (w ns nd : Nat) (rest : List Nat) (h : ns + nd ≤ 256) (hn : 1 ≤ ns) (hd : 1 ≤ nd) :
    BuffersReady (touching w ns nd rest) ns nd := by
  have h0 : operand (touching w ns nd rest) 0 = 0x100000000 - nd - ns := by
    simp [operand, touching, running]; omega
  have h1 : operand (touching w ns nd rest) 1 = ns := by
    simp [operand, touching, running]; omega
  have h2 : operand (touching w ns nd rest) 2 = 0x100000000 - nd := by
    simp [operand, touching, running]; omega
  have h3 : operand (touching w ns nd rest) 3 = nd := by
    simp [operand, touching, running]; omega
  exact ⟨rfl, rfl, by omega, by omega, by omega, by omega, by omega, by omega, by omega,
    accepts_everything _ _ _ _ rfl, accepts_everything _ _ _ _ rfl⟩

/-- UNPACK of one sample of each depth, and of two rows of three bytes apart. -/
theorem witness_UnpackWritesEverySample :
    (let s := touching 0x11 1 2 [1, 1, 0, 8];
      1 = operand s 4 ∧ 1 = operand s 5 ∧ operand s 7 = 8 ∧ operand s 6 = 0 ∧ BuffersReady s (1 * 1) (2 * 1 * 1))
    ∧ (let s := touching 0x11 5 2 [1, 1, 0, 10];
      1 = operand s 4 ∧ 1 = operand s 5 ∧ operand s 7 = 10 ∧ 5 = (1 + 3) / 4 * 5 ∧ operand s 6 = 0
        ∧ BuffersReady s (5 * 1) (2 * 1 * 1))
    ∧ (let s := touching 0x11 6 4 [1, 2, 3, 12];
      1 = operand s 4 ∧ 2 = operand s 5 ∧ operand s 7 = 12 ∧ 3 = (1 + 1) / 2 * 3 ∧ operand s 6 = 3
        ∧ BuffersReady s (3 * 2) (2 * 1 * 2))
    ∧ (let s := touching 0x11 6 4 [1, 2, 3, 16];
      1 = operand s 4 ∧ 2 = operand s 5 ∧ operand s 7 = 16 ∧ operand s 6 = 3 ∧ 2 * 1 ≤ 3
        ∧ BuffersReady s (3 * 2) (2 * 1 * 2)) :=
  ⟨⟨by decide, by decide, by decide, by decide, touching_ready _ 1 2 _ (by decide) (by decide) (by decide)⟩,
    ⟨by decide, by decide, by decide, by decide, by decide, touching_ready _ 5 2 _ (by decide) (by decide) (by decide)⟩,
    ⟨by decide, by decide, by decide, by decide, by decide, touching_ready _ 6 4 _ (by decide) (by decide) (by decide)⟩,
    ⟨by decide, by decide, by decide, by decide, by decide, touching_ready _ 6 4 _ (by decide) (by decide) (by decide)⟩⟩

/-- Each failing check of UNPACK, one past the last value that passes it. -/
theorem witness_UnpackReportsTheFirstFailingCheck :
    (let s := touching 0x11 1 2 [1, 1, 0, 9];
      operand s 7 ≠ 8 ∧ operand s 7 ≠ 10 ∧ operand s 7 ≠ 12 ∧ operand s 7 ≠ 16)
    ∧ (let s := touching 0x11 4 8 [4, 1, 4, 10]; operand s 7 = 10 ∧ operand s 6 ≠ 0 ∧ operand s 6 < (4 + 3) / 4 * 5)
    ∧ (let s := running 0x11 [0xFFFFFFFF, 2, 0x2000, 2, 1, 1, 0, 8]; 2 ^ 32 < operand (s []) 0 + operand (s []) 1)
    ∧ (let s := running 0x11 [0x1000, 1, 0xFFFFFFFF, 2, 1, 1, 0, 8]; 2 ^ 32 < operand (s []) 2 + operand (s []) 3)
    ∧ (let s := running 0x11 [0, 1, 0x2000, 2, 1, 0x10000, 0x10000, 8] [];
      1 ≤ operand s 6 ∧ operand s 0 + operand s 1 ≤ 2 ^ 32 ∧ 2 ^ 32 ≤ operand s 6 * operand s 5)
    ∧ (let s := running 0x11 [0, 1, 0x2000, 2, 0x8000, 0x10000, 0, 8] []; 2 ^ 32 ≤ 2 * operand s 4 * operand s 5)
    ∧ (let s := running 0x11 [0, 4, 0x2000, 8, 4, 1, 0, 10] []; operand s 1 < 5 * 1)
    ∧ (let s := running 0x11 [0, 5, 0x2000, 7, 4, 1, 0, 10] []; operand s 3 < 2 * operand s 4 * operand s 5)
    ∧ (let s := running 0x11 [0x1000, 5, 0x1004, 8, 4, 1, 0, 10] [];
      5 * 1 ≤ operand s 1 ∧ 2 * 4 * 1 ≤ operand s 3 ∧ inRange ⟨operand s 0, 5 * 1⟩ 0x1004 = true
        ∧ inRange ⟨operand s 2, 2 * 4 * 1⟩ 0x1004 = true) := by decide +kernel

theorem witness_WindowAverageFollowsItsDefinition : 0 < 1 ∧ 3 < 4 := by decide

theorem witness_BilinearAveragesSitesOfTheChannel :
    channelAt .rggb 0 0 = .r ∧ channelAt .rggb 0 0 ≠ .g ∧ (1, 0) ∈ bilinearCells .rggb 2 1 .g 0 0 := by decide

theorem witness_MethodsAgreeOffGreenAndStayInBounds :
    ¬ (Channel.r = .g ∧ channelAt .rggb 0 0 = .g) ∧ ¬ (Channel.r = .g ∧ channelAt .rggb 1 0 = .g)
      ∧ demosaicDen .window3x3 .rggb 2 2 .b 0 0 ≠ 0
      ∧ ∀ i j, i < 2 → j < 2 → channelAt .rggb i j = .b → 65535 ≤ (fun _ _ => 65535 : Nat → Nat → Nat) i j
          ∧ (fun _ _ => 65535 : Nat → Nat → Nat) i j ≤ 65535 :=
  ⟨by decide, by decide, by decide, fun _ _ _ _ _ => ⟨Nat.le_refl _, Nat.le_refl _⟩⟩

theorem witness_WorkedGridGivesTheStatedPixels :
    0 = 6 % 2 ∧ 1 = 7 % 2 ∧ (Pattern.gbrg = .gbrg ∧ ((0, 1) : Nat × Nat) = (0, 1)) := by decide

/-- DEMOSAIC of one pixel in each pattern and by each method. -/
theorem witness_DemosaicWritesEveryPixel :
    (∀ c < 4, BuffersReady (touching 0x12 2 6 [1, 1, c]) (2 * 1 * 1) (6 * 1 * 1)
      ∧ operand (touching 0x12 2 6 [1, 1, c]) 4 = 1 ∧ operand (touching 0x12 2 6 [1, 1, c]) 5 = 1
      ∧ operand (touching 0x12 2 6 [1, 1, c]) 6 = c)
    ∧ (DmmField.window3x3 = .window3x3 ∧ Method.window3x3 = .window3x3)
    ∧ (DmmField.bilinear = .bilinear ∧ Method.bilinear = .bilinear) := by
  refine ⟨fun c hc => ⟨touching_ready _ 2 6 _ (by decide) (by decide) (by decide), ?_⟩, by decide, by decide⟩
  interval_cases c <;> decide

theorem witness_DemosaicReportsTheFirstFailingCheck :
    operand (touching 0x12 2 6 [1, 1, 4]) 6 = 4 ∧ operand (touching 0x12 2 6 [1, 1, 3]) 6 ≤ 3
      ∧ (let s := running 0x12 [0xFFFFFFFF, 2, 0, 6, 1, 1, 0] []; 2 ^ 32 < operand s 0 + operand s 1)
      ∧ (let s := running 0x12 [0, 2, 0xFFFFFFFB, 6, 1, 1, 0] []; 2 ^ 32 < operand s 2 + operand s 3)
      ∧ (let s := running 0x12 [0, 2, 16, 6, 0x2AAAAAAB, 1, 0] []; 2 ^ 32 ≤ 6 * operand s 4 * operand s 5)
      ∧ (let s := running 0x12 [0, 7, 16, 24, 2, 2, 0] []; operand s 1 < 2 * operand s 4 * operand s 5)
      ∧ (let s := running 0x12 [0, 8, 16, 23, 2, 2, 0] []; operand s 3 < 6 * operand s 4 * operand s 5)
      ∧ (let s := running 0x12 [0, 8, 7, 24, 2, 2, 0] [];
        2 * 2 * 2 ≤ operand s 1 ∧ 6 * 2 * 2 ≤ operand s 3 ∧ inRange ⟨operand s 0, 2 * 2 * 2⟩ 7 = true
          ∧ inRange ⟨operand s 2, 6 * 2 * 2⟩ 7 = true) := by decide +kernel

theorem witness_ExactTransformIsTheFloorOfTheClippedSum :
    defaultConfig.cscEval = .exact ∧ ∀ e ∈ [Standard.bt601, .bt709, .bt2020], ∀ r ∈ [VideoRange.limited, .full],
      ∀ ch ∈ [Channel.b, .g, .r], 0 < (columnFor (matrixFor defaultConfig.cscCoef e r) ch).ky.den
        ∧ 0 < (columnFor (matrixFor defaultConfig.cscCoef e r) ch).ku.den
        ∧ 0 < (columnFor (matrixFor defaultConfig.cscCoef e r) ch).kv.den := by decide

/-- Every encoding and range has its constants. -/
theorem witness_DefaultMatricesFollowTheDerivation (e : Standard) (r : VideoRange) :
    (∃ Kr Kb : ℚ, e = .bt601 ∧ Kr = 299 / 1000 ∧ Kb = 114 / 1000 ∨ e = .bt709 ∧ Kr = 2126 / 10000 ∧ Kb = 722 / 10000
      ∨ e = .bt2020 ∧ Kr = 2627 / 10000 ∧ Kb = 593 / 10000)
    ∧ (∃ ys cs : ℚ, r = .limited ∧ ys = 255 / 219 ∧ cs = 255 / 224 ∨ r = .full ∧ ys = 1 ∧ cs = 1)
    ∧ ∃ q : Ratio → ℚ, ∀ x, q x = (x.num : ℚ) / x.den := by
  refine ⟨?_, ?_, _, fun _ => rfl⟩
  · cases e
    · exact ⟨_, _, .inl ⟨rfl, rfl, rfl⟩⟩
    · exact ⟨_, _, .inr (.inl ⟨rfl, rfl, rfl⟩)⟩
    · exact ⟨_, _, .inr (.inr ⟨rfl, rfl, rfl⟩)⟩
  · cases r
    · exact ⟨_, _, .inl ⟨rfl, rfl, rfl⟩⟩
    · exact ⟨_, _, .inr ⟨rfl, rfl, rfl⟩⟩

theorem witness_DefaultTransformKeepsItsProperties :
    defaultConfig.cscEval = .exact ∧ defaultConfig.cscCoef = defaultCoef ∧ (0 : Byte).toNat ≤ (255 : Byte).toNat := by
  decide

theorem witness_CscConvertsEveryTriple :
    1 = operand (touching 0x13 3 3 [1]) 4 ∧ BuffersReady (touching 0x13 3 3 [1]) (3 * 1) (3 * 1) :=
  ⟨by decide, touching_ready _ 3 3 _ (by decide) (by decide) (by decide)⟩

theorem witness_CscReportsTheFirstFailingCheck :
    (let s := running 0x13 [0xFFFFFFFE, 3, 0, 3, 1] []; 2 ^ 32 < operand s 0 + operand s 1)
      ∧ (let s := running 0x13 [0, 3, 0xFFFFFFFE, 3, 1] []; 2 ^ 32 < operand s 2 + operand s 3)
      ∧ (let s := running 0x13 [0, 3, 16, 3, 0x55555556] []; 2 ^ 32 ≤ 3 * operand s 4)
      ∧ (let s := running 0x13 [0, 2, 16, 3, 1] []; operand s 1 < 3 * operand s 4)
      ∧ (let s := running 0x13 [0, 6, 16, 5, 2] []; operand s 3 < 3 * operand s 4)
      ∧ (let s := running 0x13 [0, 6, 5, 6, 2] [];
        3 * 2 ≤ operand s 1 ∧ 3 * 2 ≤ operand s 3 ∧ inRange ⟨operand s 0, 3 * 2⟩ 5 = true
          ∧ inRange ⟨operand s 2, 3 * 2⟩ 5 = true) := by decide +kernel

/-! CONVERT of one pixel, or of the least frame its format allows, for every format the pipeline reads. -/

/-- Format f of the default catalog. -/
def entry (f : Nat) : Descriptor := defaultCatalog.getD f bgr888

/-- CONVERT of a w x h frame of format f with ns source bytes and natural strides. -/
def frameOf (f w h ns : Nat) : State := touching 0x10 ns (3 * w * h) [f, w, h, 0]

theorem frameOf_ready (f w h ns : Nat) (hd : defaultCatalog[f]? = some (entry f))
    (hf : operand (frameOf f w h ns) 4 = f) (hw : operand (frameOf f w h ns) 5 = w)
    (hh : operand (frameOf f w h ns) 6 = h) (hb : operand (frameOf f w h ns) 7 = 0)
    (hp : 1 ≤ nplanes (entry f)) (hv : ∀ q ∈ (entry f).planes, h % q.vs = 0) (hs : frameSizeOf (entry f) w h 1 = ns)
    (h1 : ns + 3 * w * h ≤ 256) (h2 : 1 ≤ ns) (h3 : 1 ≤ 3 * w * h) :
    ConvertReady (frameOf f w h ns) (entry f) (naturalStride (entry f) w 0) where
  formatId := by rw [hf]; exact hd
  planes := hp
  bpl := .inl hb
  stride := by rw [if_pos hb, hw]
  rowFits := by rw [hw]
  heights := by rw [hh]; exact hv
  buffers := by
    rw [if_pos hb, hw, hh, hs]
    exact touching_ready _ _ _ _ h1 h2 h3

theorem ready_rgb : ∀ f ∈ [(0, 3), (1, 3), (2, 4), (3, 4), (4, 4)],
    ConvertReady (frameOf f.1 1 1 f.2) (entry f.1) (naturalStride (entry f.1) 1 0) := by
  intro f hf
  fin_cases hf <;>
    exact frameOf_ready _ _ _ _ rfl (by decide) (by decide) (by decide) (by decide) (by decide) (by decide) (by decide)
      (by decide) (by decide) (by decide)

theorem witness_ConvertRgbMovesTheComponents :
    (∀ f ∈ [(0, 3), (1, 3), (2, 4), (3, 4), (4, 4)],
      ConvertReady (frameOf f.1 1 1 f.2) (entry f.1) (naturalStride (entry f.1) 1 0) ∧ (entry f.1).colour = .rgb
        ∧ (plane (entry f.1) 0).vs = 1 ∧ f.2 * 1 ≤ naturalStride (entry f.1) 1 0)
    ∧ [0, 1, 2, 3, 4].map (fun f => (entry f).handler)
        = [.rgbCopy3, .rgbRev3, .rgbDrop4, .rgbDrop4Rev, .rgb2101010] := by
  refine ⟨fun f hf => ⟨ready_rgb f hf, ?_⟩, by decide⟩
  fin_cases hf <;> decide

theorem ready_yuv : ∀ f ∈ [(5, 1, 1, 1), (6, 1, 1, 4), (7, 1, 1, 4), (8, 1, 2, 6), (9, 1, 1, 4)],
    ConvertReady (frameOf f.1 f.2.1 f.2.2.1 f.2.2.2) (entry f.1) (naturalStride (entry f.1) f.2.1 0) := by
  intro f hf
  fin_cases hf <;>
    exact frameOf_ready _ _ _ _ rfl (by decide) (by decide) (by decide) (by decide) (by decide) (by decide) (by decide)
      (by decide) (by decide) (by decide)

theorem witness_ConvertYuvExtractsAndTransforms :
    (∀ f ∈ [(5, 1, 1, 1), (6, 1, 1, 4), (7, 1, 1, 4), (8, 1, 2, 6), (9, 1, 1, 4)],
      ConvertReady (frameOf f.1 f.2.1 f.2.2.1 f.2.2.2) (entry f.1) (naturalStride (entry f.1) f.2.1 0)
        ∧ (entry f.1).colour = .yuv ∧ (plane (entry f.1) 0).vs = 1)
    ∧ [5, 6, 7, 8, 9].map (fun f => (entry f).handler) = [.luma, .p422Yuyv, .p422Uyvy, .spCbcr, .spCbcr]
    ∧ 1 ≤ naturalStride (entry 5) 1 0 ∧ (1 + 1) / 2 * 4 ≤ naturalStride (entry 6) 1 0
    ∧ (1 + 1) / 2 * 4 ≤ naturalStride (entry 7) 1 0
    ∧ (∀ f ∈ [8, 9], 2 ≤ nplanes (entry f) ∧ 1 ≤ (plane (entry f) 1).vs ∧ 1 ≤ naturalStride (entry f) 1 0
        ∧ ∀ x < 1, 2 * (x / (plane (entry f) 1).hs) + 1 < naturalStride (entry f) 1 1) := by
  refine ⟨fun f hf => ⟨ready_yuv f hf, ?_⟩, by decide +kernel⟩
  fin_cases hf <;> decide

theorem ready_raw : ∀ f ∈ [(12, 1), (13, 2), (14, 5), (15, 2), (16, 3), (17, 2)],
    ConvertReady (frameOf f.1 1 1 f.2) (entry f.1) (naturalStride (entry f.1) 1 0) := by
  intro f hf
  fin_cases hf <;>
    exact frameOf_ready _ _ _ _ rfl (by decide) (by decide) (by decide) (by decide) (by decide) (by decide) (by decide)
      (by decide) (by decide) (by decide)

theorem witness_ConvertRawUnpacksDemosaicsAndShifts :
    (∀ f ∈ [(12, 1), (13, 2), (14, 5), (15, 2), (16, 3), (17, 2)],
      ConvertReady (frameOf f.1 1 1 f.2) (entry f.1) (naturalStride (entry f.1) 1 0) ∧ (entry f.1).colour = .raw
        ∧ (entry f.1).handler = .raw ∧ (entry f.1).pattern = some .rggb ∧ nplanes (entry f.1) = 1
        ∧ (plane (entry f.1) 0).vs = 1 ∧ (entry f.1).bits ∈ [8, 10, 12, 16])
    ∧ (∀ f ∈ [12, 13, 15, 17], (entry f).packed = false ∧ (plane (entry f) 0).ppg = 1)
    ∧ [12, 13, 15, 17].map (fun f => (plane (entry f) 0).bpg) = [1, 2, 2, 2]
    ∧ [14, 16].map (fun f => ((entry f).packed, (entry f).bits, (plane (entry f) 0).bpg, (plane (entry f) 0).ppg))
        = [(true, 10, 5, 4), (true, 12, 3, 2)] := by
  refine ⟨fun f hf => ⟨ready_raw f hf, ?_⟩, by decide +kernel⟩
  fin_cases hf <;> decide

/-- The checks of CONVERT before the path checks (spec/95_test_vectors.md 2.11). -/
theorem witness_ConvertReportsTheFirstFailingCheck_frame :
    (let s := running 0x10 [0, 1, 16, 3, 39, 1, 1, 0] []; s.config.catalog[operand s 4]? = none)
    ∧ (let s := running 0x10 [0, 6, 16, 12, 8, 2, 2, 2] [];
      s.config.catalog[operand s 4]? = some nv12 ∧ 1 < nplanes nv12 ∧ operand s 7 ≠ 0)
    ∧ (let s := running 0x10 [0, 6, 16, 6, 0, 2, 1, 5] [];
      s.config.catalog[operand s 4]? = some bgr888 ∧ ¬ (1 < nplanes bgr888) ∧ operand s 7 ≠ 0
        ∧ operand s 7 < naturalStride bgr888 (operand s 5) 0)
    ∧ (let s := running 0x10 [0, 9, 16, 18, 8, 2, 3, 0] [];
      s.config.catalog[operand s 4]? = some nv12 ∧ operand s 7 = 0 ∧ ∃ q ∈ nv12.planes, operand s 6 % q.vs ≠ 0)
    ∧ (let s := running 0x10 [0xFFFFFFFE, 3, 16, 3, 0, 1, 1, 0] [];
      (∀ q ∈ bgr888.planes, operand s 6 % q.vs = 0) ∧ 2 ^ 32 < operand s 0 + operand s 1)
    ∧ (let s := running 0x10 [0, 3, 0xFFFFFFFE, 3, 0, 1, 1, 0] []; 2 ^ 32 < operand s 2 + operand s 3)
    ∧ (let s := running 0x10 [0, 3, 16, 3, 0, 1, 0x10000, 0x10000] []; 2 ^ 32 ≤ operand s 7 * (operand s 6 / 1))
    ∧ (let s := running 0x10 [0, 3, 16, 3, 5, 0x10000, 0x5556, 0] [];
      frameSizeOf (entry 5) (operand s 5) (operand s 6) 1 < 2 ^ 32 ∧ 2 ^ 32 ≤ 3 * operand s 5 * operand s 6)
    ∧ (let s := running 0x10 [0, 5, 16, 6, 0, 2, 1, 0] []; operand s 1 < frameSizeOf bgr888 2 1 1)
    ∧ (let s := running 0x10 [0, 6, 16, 5, 0, 2, 1, 0] []; operand s 3 < 3 * operand s 5 * operand s 6)
    ∧ (let s := running 0x10 [0, 6, 5, 6, 0, 2, 1, 0] [];
      inRange ⟨operand s 0, frameSizeOf bgr888 2 1 1⟩ 5 = true ∧ inRange ⟨operand s 2, 3 * 2 * 1⟩ 5 = true) := by
  decide +kernel

/-- Buffers that pass, for the path checks. -/
theorem ready_paths : ∀ f ∈ [(5, 1), (6, 4), (7, 4), (9, 4), (12, 1), (11, 3), (36, 1)],
    ConvertReady (frameOf f.1 1 1 f.2) (entry f.1) (naturalStride (entry f.1) 1 0) := by
  intro f hf
  fin_cases hf <;>
    exact frameOf_ready _ _ _ _ rfl (by decide) (by decide) (by decide) (by decide) (by decide) (by decide) (by decide)
      (by decide) (by decide) (by decide)

/-- Each path check: no colour (GENERIC_8), no handler (YUV444), a handler of another colour, the option fields a path
reads, and each way `raw_ok` fails, on an entry that differs from SRGGB8 in that one point. -/
theorem witness_ConvertReportsTheFirstFailingCheck_path :
    (∀ f ∈ [(5, 1), (6, 4), (7, 4), (9, 4), (12, 1), (11, 3), (36, 1)],
      ConvertReady (frameOf f.1 1 1 f.2) (entry f.1) (naturalStride (entry f.1) 1 0))
    ∧ (entry 36).colour = .undefined ∧ (entry 11).handler = .none
    ∧ family { entry 5 with handler := .raw }.handler ≠ some (entry 5).colour
    ∧ ((entry 5).colour = .yuv ∧ (entry 5).handler = .luma)
    ∧ (∀ f ∈ [6, 7, 9], (entry f).colour = .yuv
        ∧ ((entry f).handler = .p422Yuyv ∨ (entry f).handler = .p422Uyvy ∨ (entry f).handler = .spCbcr))
    ∧ ((entry 12).colour = .raw ∧ (entry 12).handler = .raw ∧ (rawSource (entry 12)).isSome = true)
    ∧ { entry 12 with bits := 9 }.bits ∉ [8, 10, 12, 16] ∧ { entry 12 with pattern := none }.pattern = none
    ∧ nplanes { entry 12 with planes := [⟨1, 1, 1, 1⟩, ⟨1, 1, 1, 1⟩] } ≠ 1
    ∧ (let d : Descriptor := { entry 14 with planes := [⟨4, 4, 1, 1⟩] };
      d.packed = true ∧ ¬ (d.bits = 10 ∧ (plane d 0).bpg = 5 ∧ (plane d 0).ppg = 4)
        ∧ ¬ (d.bits = 12 ∧ (plane d 0).bpg = 3 ∧ (plane d 0).ppg = 2))
    ∧ (let d : Descriptor := { entry 12 with planes := [⟨3, 1, 1, 1⟩] };
      d.packed = false ∧ (plane d 0).bpg ≠ (plane d 0).ppg ∧ (plane d 0).bpg ≠ 2 * (plane d 0).ppg) :=
  ⟨ready_paths, by decide +kernel⟩

theorem witness_RacesLeaveTheWriteRangeUnspecified :
    (let s := { cscAtTop with races := [.wroteReadRange 0xFFFFFFFA 1, .wroteWriteRange 0xFFFFFFFF 1] };
      s.mem.wf = true ∧ planOf (.csc .limited .bt601) s = .ok ⟨⟨0xFFFFFFFA, 3⟩, ⟨0xFFFFFFFD, 3⟩⟩
        ∧ BusAccepts s .read 0xFFFFFFFA 3 ∧ BusAccepts s .write 0xFFFFFFFD 3
        ∧ .wroteReadRange 0xFFFFFFFA 1 ∈ s.races ∧ .wroteWriteRange 0xFFFFFFFF 1 ∈ s.races)
    ∧ (let s := { running 0x0C [0x100, 4] [] with races := [.wroteReadRange 0x100 1] };
      planOf .fourccEnc s = .ok ⟨⟨0x100, 4⟩, emptyRange⟩ ∧ planOf .findName s = .ok ⟨⟨0x100, 4⟩, emptyRange⟩
        ∧ .wroteReadRange 0x100 1 ∈ s.races) :=
  ⟨⟨by decide, by decide, accepts_everything _ _ _ _ rfl, accepts_everything _ _ _ _ rfl, by decide, by decide⟩,
    by decide⟩

theorem witness_HostAccessesRaceOnlyTheRunningRanges :
    State.reset.mem.wf = true ∧ State.reset.phase = .idle ∧ cscAtTop.mem.wf = true ∧ cscAtTop.phase = .busy ∧ cscAtTop.unordered = [] ∧ cscAtTop.config.readHazards = []
      ∧ 0xFFFFFFFF + [(7 : Byte)].length ≤ 2 ^ 32 ∧ inRange ⟨0xFFFFFFFF, 1⟩ 0xFFFFFFFF = true
      ∧ inRange (runningPlan cscAtTop).wr 0xFFFFFFFF = true ∧ inRange (runningPlan cscAtTop).rd 0xFFFFFFFC = true := by
  decide +kernel

theorem witness_StatusReadOrdersEngineWrites :
    let s : State := { State.reset with unordered := [⟨0xFFFFFFFF, 1⟩] }
    s.phase = .idle ∧ s.config.readHazards = [] ∧ 0xFFFFFFFF + 1 ≤ 2 ^ 32 ∧ ∃ t, hostOp (.rd .status) s = .next t :=
  ⟨rfl, rfl, by decide, _, rfl⟩

theorem witness_HostControlFlowFollowsItsNotation :
    let s : State := { State.reset with hostProg := [.halt, .label 7, .label 7], acc := 4 }
    s.hostProg[1]? = some (.label 7) ∧ (∀ g, g < 1 → s.hostProg[g]? ≠ some (.label 7)) ∧ s.acc &&& 4 ≠ 0
      ∧ s.acc &&& 2 = 0 ∧ s.phase = .idle := by
  refine ⟨rfl, fun g hg => ?_, by decide, by decide, rfl⟩
  interval_cases g
  decide

theorem witness_StepRunsTheDecodedCommand :
    (let s := running 0x0A [0, 1, 1, 1] []; s.phase = .busy ∧ s.wait = 0 ∧ decode s.snapC = .ok .frameSize)
    ∧ (let s : State := { State.reset with hostProg := [.rd .id] };
      s.phase = .idle ∧ s.hostProg[s.hostPc]? = some (.rd .id))
    ∧ (let s : State := { running 0x0A [0, 1, 1, 1] [] with hostProg := [.rd .id], wait := 1 };
      s.phase = .busy ∧ s.wait = 0 + 1 ∧ s.hostProg[s.hostPc]? = some (.rd .id))
    ∧ decode 0x00000F05 = .ok (.planeInfo 15) := by decide +kernel

theorem witness_DecodeInvertsEncodeOnTheBitsRead : Instr.wellFormed (.planeSize 15) = true := by decide

/-- A running command with two host operations before its turn, one of them a dropped CMD write. -/
theorem witness_RunningCommandGetsItsTurnUndisturbed :
    let s : State := { cscAtTop with hostProg := [.wr .cmd (.lit 1), .mw 0xFFFFFFFA [7]], wait := 2 }
    s.phase = .busy ∧ HostOp.reset ∉ s.hostProg ∧ ∃ t, Sys2Proof.core.run s.wait s = .next t :=
  ⟨rfl, by decide, _, rfl⟩

theorem witness_StepsKeepTheCatalogAndTheResults :
    (∃ t, step (running 0x0A [0, 1, 1, 1] []) = .next t ∧ t.results ≠ (running 0x0A [0, 1, 1, 1] []).results)
      ∧ ∃ t, step (running 0x06 [] []) = .next t ∧ t.errcode ≠ (running 0x06 [] []).errcode :=
  ⟨⟨_, rfl, by decide⟩, ⟨_, rfl, by decide⟩⟩

theorem witness_EveryStepKeepsTheInvariant : Inv cscAtTop ∧ ∃ t, step cscAtTop = .next t :=
  ⟨⟨by decide, by decide, by decide, by decide, by decide, by decide, by decide, by decide⟩, _, rfl⟩

end Sys2Proof.Machine.Tests
end

section
/-! SUPPORT. A command's outcome as a function of its inputs (R5, R36, R43): the bytes it writes depend on its read
range alone, and two runs that differ in memory outside that range, or in the counter of draws, end alike. -/

namespace Sys2Proof.Machine

/-! ### A state with another memory and another counter of draws -/

/-- s with another memory and another counter of draws. -/
def State.withMemDraws (s : State) (m : Memory) (d : Nat) : State := { s with mem := m, draws := d }

theorem withMem_eq_withMemDraws (s : State) (m : Memory) : s.withMem m = s.withMemDraws m s.draws := rfl

theorem setDraws_eq_withMemDraws (s : State) (d : Nat) : { s with draws := d } = s.withMemDraws s.mem d := rfl

@[simp] theorem withMemDraws_mem (s : State) (m : Memory) (d : Nat) : (s.withMemDraws m d).mem = m := rfl
@[simp] theorem withMemDraws_draws (s : State) (m : Memory) (d : Nat) : (s.withMemDraws m d).draws = d := rfl
@[simp] theorem withMemDraws_config (s : State) (m : Memory) (d : Nat) : (s.withMemDraws m d).config = s.config := rfl

@[simp] theorem withMemDraws_operand (s : State) (m : Memory) (d : Nat) (n : Fin 8) :
    operand (s.withMemDraws m d) n = operand s n := rfl

@[simp] theorem withMemDraws_format (s : State) (m : Memory) (d f : Nat) :
    format (s.withMemDraws m d) f = format s f := rfl

@[simp] theorem withMemDraws_formatPlane (s : State) (m : Memory) (d p : Nat) :
    formatPlane (s.withMemDraws m d) p = formatPlane s p := rfl

@[simp] theorem withMemDraws_unpackStride (depth : Depth) (s : State) (m : Memory) (d : Nat) :
    unpackStride depth (s.withMemDraws m d) = unpackStride depth s := rfl

@[simp] theorem withMemDraws_racedResults (s : State) (m : Memory) (d : Nat) :
    racedResults (s.withMemDraws m d) = racedResults s := rfl

/-! ### The bytes of a command's output -/

/-- A fill depends on the bytes it is given for its own range alone. -/
theorem Memory.fill_congr (m : Memory) (a : Nat) {n : Nat} {f g : Nat → Byte} (h : ∀ k, k < n → f k = g k) :
    m.fill a n f = m.fill a n g := by
  induction n with
  | zero => rfl
  | succ n ih => rw [Memory.fill, Memory.fill, ih fun k hk => h k (by omega), h n (by omega)]

/-- The k-th of w * h elements in row-major order stands in the grid (R14). -/
theorem rowMajor_inGrid {k w h : Nat} (hk : k < w * h) : k % w < w ∧ k / w < h :=
  ⟨Nat.mod_lt _ (Nat.pos_of_lt_mul_right hk), div_lt_rows hk⟩

section
variable {s : State} {m : Memory} {d : Nat}

theorem cscByte_withMemDraws (r : VideoRange) (e : Standard) {k : Nat} (hk : k < 3 * operand s 4)
    (hm : ∀ a, operand s 0 ≤ a → a < operand s 0 + 3 * operand s 4 → m.read a = s.mem.read a) :
    cscByte r e (s.withMemDraws m d) k = cscByte r e s k := by
  simp only [cscByte, withMemDraws_mem, withMemDraws_config, withMemDraws_operand]
  rw [hm _ (by omega) (by omega), hm _ (by omega) (by omega), hm _ (by omega) (by omega)]

theorem demosaicByte_withMemDraws (mt : Method) (p : Pattern) {k : Nat} (hk : k < 6 * operand s 4 * operand s 5)
    (hm : ∀ a, operand s 0 ≤ a → a < operand s 0 + 2 * operand s 4 * operand s 5 → m.read a = s.mem.read a) :
    demosaicByte mt p (s.withMemDraws m d) k = demosaicByte mt p s k := by
  rw [Nat.mul_assoc] at hk hm
  obtain ⟨hx, hy⟩ := rowMajor_inGrid (show k / 6 < operand s 4 * operand s 5 by omega)
  have hS : ∀ i j, i < operand s 4 → j < operand s 5 →
      demosaicSample (s.withMemDraws m d) i j = demosaicSample s i j := by
    intro i j hi hj
    have hlt := rowMajor_lt hi hj
    simp only [demosaicSample, withMemDraws_mem, withMemDraws_operand]
    exact Memory.readLE_congr fun a h1 h2 => hm a (by omega) (by omega)
  simp only [demosaicByte, withMemDraws_operand, demosaicAt_congr mt p _ hx hy hS]

/-- Where the row stride holds a row (R101). -/
theorem unpackByte_withMemDraws (depth : Depth) {k : Nat} (hk : k < 2 * operand s 4 * operand s 5)
    (hst : rowBytes depth (operand s 4) ≤ unpackStride depth s)
    (hm : ∀ a, operand s 0 ≤ a → a < operand s 0 + unpackStride depth s * operand s 5 → m.read a = s.mem.read a) :
    unpackByte depth (s.withMemDraws m d) k = unpackByte depth s k := by
  rw [Nat.mul_assoc] at hk
  obtain ⟨hx, hy⟩ := rowMajor_inGrid (show k / 2 < operand s 4 * operand s 5 by omega)
  have hrow : unpackedAt depth (s.withMemDraws m d) (k / 2 % operand s 4) (k / 2 / operand s 4)
      = unpackedAt depth s (k / 2 % operand s 4) (k / 2 / operand s 4) := by
    simp only [unpackedAt, withMemDraws_mem, withMemDraws_operand, withMemDraws_unpackStride]
    refine unpackSample_congr depth hx fun i hi => ?_
    have hlt := row_lt_plane hy hi hst
    rw [hm _ (by omega) (by omega)]
  simp only [unpackByte, withMemDraws_operand, hrow]

/-- Every pipeline reads its source through `rowByte` alone (R123 to R125). -/
theorem convertByte_withMemDraws {f : Source} (pipe : Pipeline) (k : Nat)
    (hb : ∀ p i r, rowByte (s.withMemDraws m d) f p i r = rowByte s f p i r) :
    convertByte (s.withMemDraws m d) f pipe k = convertByte s f pipe k := by
  unfold convertByte
  congr 1
  cases pipe with
  | rgb l => simp only [convertSample, hb]
  | luma r => simp only [convertSample, hb]
  | yuv l r e => cases l <;> simp only [convertSample, yuvSample, hb, withMemDraws_config]
  | raw depth p mt =>
    have hS : rawSample depth (s.withMemDraws m d) f = rawSample depth s f := by
      funext x y
      simp only [rawSample, hb]
    simp only [convertSample, hS]

end

/-- The row stride of an UNPACK that passes its checks holds a row (R101). -/
theorem checkUnpack_stride {s : State} {p : Plan} {depth : Depth} (h : checkUnpack s = .ok (p, depth)) :
    rowBytes depth (operand s 4) ≤ unpackStride depth s := by
  have hd := (checkUnpack_ok h).1
  by_contra hlt
  simp [checkUnpack, hd, Nat.not_le.1 hlt] at h

/-! ### Runs that end alike -/

/-- Runs from s and s' of a command with write range r end alike: with the same results or the same error and no write,
with the same refusal, or with the same bytes written. -/
inductive EndsAlike (s s' : State) (r : Range) :
    Host.Outcome State Fault Refusal → Host.Outcome State Fault Refusal → Prop
  | complete (hr : r = emptyRange) (r0 r1 r2 r3 : Nat) :
      EndsAlike s s' r (.next (complete r0 r1 r2 r3 false s)) (.next (complete r0 r1 r2 r3 false s'))
  | raise (hr : r = emptyRange) (e : CmdError) :
      EndsAlike s s' r (.next (raiseError e s)) (.next (raiseError e s'))
  | refuse (q : Refusal) : EndsAlike s s' r (.refused q) (.refused q)
  | write (n : Nat) (z : Bool) {out out' : Nat → Byte} (ho : ∀ k, k < r.len → out' k = out k) :
      EndsAlike s s' r (.next (complete n 0 0 0 z (writeOut r out s)))
        (.next (complete n 0 0 0 z (writeOut r out' s')))

theorem findFormat_endsAlike (opc : Nat) (test : Descriptor → Bool) (s : State) (m : Memory) (d : Nat) {r : Range}
    (hr : r = emptyRange) :
    EndsAlike s (s.withMemDraws m d) r (.next (findFormat opc test s))
      (.next (findFormat opc test (s.withMemDraws m d))) := by
  simp only [findFormat, withMemDraws_config]
  split
  · exact .complete hr _ _ _ _
  · exact .raise hr _

theorem completeSize_endsAlike (z : Nat) (s s' : State) {r : Range} (hr : r = emptyRange) :
    EndsAlike s s' r (.next (completeSize z s)) (.next (completeSize z s')) := by
  unfold completeSize
  split
  · exact .raise hr _
  · exact .complete hr _ _ _ _

theorem findNameRaced_endsAlike {s s' : State} {r : Range} (hr : r = emptyRange) (hd : s'.draws = s.draws) :
    EndsAlike s s' r (.next (findNameRaced s)) (.next (findNameRaced s')) := by
  simp only [findNameRaced, hd]
  split
  · exact .complete hr _ _ _ _
  · exact .raise hr _

/-- The frame of the memory commands, when the checks pass and the platform accepts every access (R38). -/
theorem runCommand_endsAlike {α : Type} {c : Except CmdError (Plan × α)} {eff : Plan → α → State → State}
    {s s' : State} {p : Plan} {x : α} (hc : c = .ok (p, x)) (hb : busOkOver s.config p = true)
    (hcfg : s'.config = s.config)
    (he : EndsAlike s s' p.wr (.next (eff p x s)) (.next (eff p x s'))) :
    EndsAlike s s' p.wr (.next (runCommand c eff s)) (.next (runCommand c eff s')) := by
  rwa [runCommand_ok hc hb, runCommand_ok hc (hcfg ▸ hb)]

/-- A command that passes its checks and whose accesses the platform accepts ends alike from memories that agree on its
read range and, unless the host has raced it, from any two counters of draws (R5, R36, R43). -/
theorem exec_endsAlike {i : Instr} {s : State} {m : Memory} {d : Nat} {p : Plan} (hp : planOf i s = .ok p)
    (hb : busOkOver s.config p = true) (hd : NoRace s ∨ d = s.draws)
    (hm : ∀ a, p.rd.base ≤ a → a < p.rd.base + p.rd.len → m.read a = s.mem.read a) :
    EndsAlike s (s.withMemDraws m d) p.wr (exec i s) (exec i (s.withMemDraws m d)) := by
  have raced : racedResults s = true → d = s.draws := fun h =>
    hd.resolve_left fun hn => by simp [racedResults_noRace hn] at h
  cases i <;> simp only [planOf] at hp
  case findName =>
    obtain ⟨x, hx⟩ := map_fst_ok hp
    have hw : p.wr = emptyRange := by rw [(checkFindName_ok hx).1]
    refine runCommand_endsAlike hx hb rfl ?_
    simp only [withMemDraws_racedResults, withMemDraws_mem, Memory.bytes_congr hm]
    split
    · exact findNameRaced_endsAlike hw (raced ‹_›)
    · exact findFormat_endsAlike _ _ _ _ _ hw
  case findDrm =>
    cases hp
    exact findFormat_endsAlike _ _ _ _ _ rfl
  case findV4l2 =>
    cases hp
    exact findFormat_endsAlike _ _ _ _ _ rfl
  case fmtInfo =>
    cases hp
    simp only [exec, execFmtInfo, withMemDraws_format, withMemDraws_operand]
    split
    · exact .raise rfl _
    · split
      · exact .complete rfl _ _ _ _
      · exact .refuse _
  case planeInfo =>
    cases hp
    simp only [exec, execPlaneInfo, withMemDraws_formatPlane]
    split
    · exact .raise rfl _
    · exact .complete rfl _ _ _ _
  case stride =>
    cases hp
    simp only [exec, execStride, withMemDraws_formatPlane, withMemDraws_operand]
    split
    · exact .raise rfl _
    · by_cases h0 : operand s 2 = 0
      · simp only [h0, if_true]
        exact .raise rfl _
      · simp only [h0, if_false]
        exact completeSize_endsAlike _ _ _ rfl
  case planeSize =>
    cases hp
    simp only [exec, execPlaneSize, withMemDraws_formatPlane, withMemDraws_operand]
    split
    · exact .raise rfl _
    · exact completeSize_endsAlike _ _ _ rfl
  case frameSize =>
    cases hp
    simp only [exec, execFrameSize, withMemDraws_format, withMemDraws_operand]
    split
    · exact .raise rfl _
    · by_cases h0 : operand s 3 = 0
      · simp only [h0, if_true]
        exact .raise rfl _
      · simp only [h0, if_false]
        exact completeSize_endsAlike _ _ _ rfl
  case fourccEnc =>
    obtain ⟨x, hx⟩ := map_fst_ok hp
    obtain ⟨rfl, -, -⟩ := checkFourccEnc_ok hx
    refine runCommand_endsAlike hx hb rfl ?_
    simp only [withMemDraws_racedResults, withMemDraws_mem, withMemDraws_draws, Memory.readLE_congr hm]
    split
    · rw [raced ‹_›]
      exact .complete rfl _ _ _ _
    · exact .complete rfl _ _ _ _
  case fourccDec =>
    obtain ⟨x, hx⟩ := map_fst_ok hp
    exact runCommand_endsAlike hx hb rfl (.write _ _ fun k hk => rfl)
  case convert =>
    obtain ⟨⟨f, pipe⟩, hx⟩ := map_fst_ok hp
    obtain ⟨_, -, rfl, h1, h2, hmod, hbuf, -⟩ := checkConvert_ok hx
    obtain ⟨he, -⟩ := checkBuffers_ok hbuf
    cases he
    exact runCommand_endsAlike hx hb rfl
      (.write _ _ fun k _ => convertByte_withMemDraws pipe k (rowByte_congr h1 h2 hmod hm))
  case unpack =>
    obtain ⟨depth, hx⟩ := map_fst_ok hp
    obtain ⟨he, -⟩ := checkBuffers_ok (checkUnpack_ok hx).2
    cases he
    exact runCommand_endsAlike hx hb rfl
      (.write _ _ fun k hk => unpackByte_withMemDraws depth hk (checkUnpack_stride hx) hm)
  case demosaic =>
    obtain ⟨mp, hx⟩ := map_fst_ok hp
    obtain ⟨he, -⟩ := checkBuffers_ok (checkDemosaic_ok hx).2.2
    cases he
    exact runCommand_endsAlike hx hb rfl (.write _ _ fun k hk => demosaicByte_withMemDraws mp.1 mp.2 hk hm)
  case csc =>
    obtain ⟨re, hx⟩ := map_fst_ok hp
    obtain ⟨he, -⟩ := checkBuffers_ok (checkCsc_ok hx).2.2
    cases he
    exact runCommand_endsAlike hx hb rfl (.write _ _ fun k hk => cscByte_withMemDraws re.1 re.2 hk hm)

/-! ### What ending alike gives -/

/-- Where memory alone differs, two runs that end alike give the same results, ERRCODE and DZC, and the same bytes in
the write range; the second leaves its memory outside that range alone. -/
def SameOutputs (s : State) (m : Memory) (r : Range) (t u : State) : Prop :=
  u.results = t.results ∧ u.errcode = t.errcode ∧ u.dzc = t.dzc
    ∧ (∀ a, inRange r a = true → u.mem.read a = t.mem.read a) ∧ OnlyWrote (s.withMem m) u r.base r.len

theorem not_inRange_emptyRange (a : Nat) : ¬ inRange emptyRange a = true := by
  rw [inRange_iff]
  exact fun h => absurd h.2 (by simp [emptyRange])

/-- Fills of two canonical memories with bytes that agree read alike in the range filled. -/
theorem Memory.read_fill_congr {m m' : Memory} (hm : m.wf = true) (hm' : m'.wf = true) {r : Range} {f g : Nat → Byte}
    (h : ∀ k, k < r.len → g k = f k) {a : Nat} (ha : inRange r a = true) :
    (m'.fill r.base r.len g).read a = (m.fill r.base r.len f).read a := by
  rw [inRange_iff] at ha
  rw [Memory.read_fill _ _ _ hm', Memory.read_fill _ _ _ hm, if_pos ha, if_pos ha, h _ (by omega)]

theorem EndsAlike.sameOutputs {s : State} {m : Memory} {r : Range} {t : State}
    {o : Host.Outcome State Fault Refusal} (h : EndsAlike s (s.withMem m) r (.next t) o) (hs : s.mem.wf = true)
    (hm : m.wf = true) : ∃ u, o = .next u ∧ SameOutputs s m r t u := by
  cases h with
  | complete hr r0 r1 r2 r3 =>
    subst hr
    exact ⟨_, rfl, rfl, rfl, rfl, fun a ha => absurd ha (not_inRange_emptyRange a), fun _ _ => rfl⟩
  | raise hr e =>
    subst hr
    exact ⟨_, rfl, rfl, rfl, rfl, fun a ha => absurd ha (not_inRange_emptyRange a), fun _ _ => rfl⟩
  | write n z ho =>
    refine ⟨_, rfl, rfl, rfl, rfl, fun a ha => Memory.read_fill_congr hs hm (fun k hk => ?_) ha,
      fun a ha => writeOut_read_outside _ _ _ _ ha⟩
    exact congrArg (ite _ _) (ho k hk)

/-- A BusError spoils the write range with the same free bytes, whatever memory held. -/
theorem spoil_sameOutputs {s : State} {m : Memory} (r : Range) (e : CmdError) (hs : s.mem.wf = true)
    (hm : m.wf = true) :
    SameOutputs s m r (raiseError e (spoil r s)) (raiseError e (spoil r (s.withMem m))) :=
  ⟨rfl, rfl, rfl, fun _ ha => Memory.read_fill_congr hs hm (fun _ _ => rfl) ha,
    fun a ha => spoil_read_outside _ _ a ha⟩

/-- Without a race a command's writes move no counter of draws and do not depend on it. -/
theorem writeOut_setDraws {s : State} (hn : NoRace s) (r : Range) (d : Nat) {out out' : Nat → Byte}
    (ho : ∀ k, k < r.len → out' k = out k) :
    writeOut r out' { s with draws := d } = { writeOut r out s with draws := d } := by
  have hraces : s.races = [] := hn
  have hfill : s.mem.fill r.base r.len out' = s.mem.fill r.base r.len out := Memory.fill_congr _ _ ho
  simp [writeOut, racedAt, hraces, hfill]

/-- Where the counter of draws alone differs, two runs that end alike differ in that counter alone. -/
theorem EndsAlike.setDraws {s : State} {d : Nat} {r : Range} {t : State} {o : Host.Outcome State Fault Refusal}
    (h : EndsAlike s { s with draws := d } r (.next t) o) (hn : NoRace s) : o = .next { t with draws := d } := by
  cases h with
  | complete hr r0 r1 r2 r3 => rfl
  | raise hr e => rfl
  | write n z ho => rw [writeOut_setDraws hn r d ho]; rfl

/-! ### Commands from another memory and from another counter of draws -/

theorem exec_withMem {i : Instr} {s t : State} {m : Memory} {p : Plan} (hs : s.mem.wf = true) (hm : m.wf = true)
    (hp : planOf i s = .ok p) (hr : ∀ a, inRange p.rd a = true → m.read a = s.mem.read a) (ht : exec i s = .next t) :
    ∃ u, exec i (s.withMem m) = .next u ∧ SameOutputs s m p.wr t u := by
  cases hb : busOkOver s.config p
  case false =>
    rw [exec_bus hp hb] at ht
    cases ht
    exact ⟨_, exec_bus (planOf_congr rfl rfl i ▸ hp) hb, spoil_sameOutputs _ _ hs hm⟩
  case true =>
    have alike := exec_endsAlike (d := s.draws) hp hb (.inr rfl) fun a h1 h2 => hr a ((inRange_iff _ _).2 ⟨h1, h2⟩)
    rw [ht] at alike
    exact alike.sameOutputs hs hm

theorem exec_setDraws {i : Instr} {s t : State} (d : Nat) (hn : NoRace s)
    (hb : ∀ p, planOf i s = .ok p → busOkOver s.config p = true) (ht : exec i s = .next t) :
    exec i { s with draws := d } = .next { t with draws := d } := by
  have plan : planOf i { s with draws := d } = planOf i s := planOf_congr rfl rfl i
  cases hp : planOf i s with
  | error e =>
    rw [exec_error hp] at ht
    cases ht
    exact exec_error (plan.trans hp)
  | ok p =>
    have alike := exec_endsAlike (d := d) hp (hb p hp) (.inl hn) fun _ _ _ => rfl
    rw [ht] at alike
    exact alike.setDraws hn

/-- Settles O17: where the platform refuses an access, the write range takes free bytes that the draws alone give; in
every other run the case split of `exec_endsAlike` shows that the bytes a command writes come from its read range. -/
theorem commandsDependOnTheirInputsAlone : Obligations.CommandsDependOnTheirInputsAlone :=
  ⟨fun _ _ _ _ _ hs hm hp hr ht => exec_withMem hs hm hp hr ht,
    fun _ _ _ d hn hb ht => exec_setDraws d hn (fun p hp => (busOkOver_iff _ p).2 (hb p hp)) ht⟩

end Sys2Proof.Machine
end

section
/-! SUPPORT. What one step can do to the state's registers: a completion, an act of the host that leaves the engine as
it is, a start, or the reset input (R15, R20, R130, R131, R140); and the invariant through each of them. -/

namespace Sys2Proof.Machine

/-! ### Turns, in the terms of Safety.lean -/

/-- A command ends in a success or in one error of R128 (R131, R133). -/
theorem exec_ends {i : Instr} {s t : State} (h : exec i s = .next t) :
    (∃ r0 r1 r2 r3 z, Succeeded s t r0 r1 r2 r3 z) ∨ ∃ e, Failed s t (BitVec.ofNat 32 (errorCode e)) := by
  rcases exec_cases h with
    ⟨e, -, rfl⟩ | ⟨p, -, ⟨-, rfl⟩ | ⟨-, ⟨⟨r0, r1, r2, r3, rfl⟩ | ⟨e, rfl⟩, -⟩ | ⟨n, z, out, rfl⟩⟩⟩
  · exact .inr ⟨e, raiseError_failed e s⟩
  · exact .inr ⟨_, spoil_failed _ _ s⟩
  · exact .inl ⟨_, _, _, _, _, complete_succeeded ..⟩
  · exact .inr ⟨e, raiseError_failed e s⟩
  · exact .inl ⟨_, _, _, _, _, writeOut_succeeded ..⟩

/-- A command leaves memory alone or fills its write range, which lies in the memory space (R33, R36). -/
theorem exec_mem {i : Instr} {s t : State} (h : exec i s = .next t) :
    t.mem = s.mem ∨ ∃ a n f, a + n ≤ limit32 ∧ t.mem = s.mem.fill a n f := by
  rcases exec_cases h with ⟨e, -, rfl⟩ | ⟨p, hp, hends⟩
  · exact .inl rfl
  · obtain ⟨-, hwr, -⟩ := planOf_fits hp
    rcases hends with ⟨-, rfl⟩ | ⟨-, ⟨⟨r0, r1, r2, r3, rfl⟩ | ⟨e, rfl⟩, -⟩ | ⟨n, z, out, rfl⟩⟩
    · exact .inr ⟨_, _, _, hwr, rfl⟩
    · exact .inl rfl
    · exact .inl rfl
    · exact .inr ⟨_, _, _, hwr, rfl⟩

/-- A turn of ENGINE runs the command of the snapshot word, or ends a reserved word with an error (R21, R59). -/
theorem engineTurn_cases {s t : State} (h : engineTurn s = .next t) :
    (∃ i, exec i s = .next t) ∨ t = raiseError .illegalCommand s := by
  unfold engineTurn at h
  split at h
  · exact .inl ⟨_, h⟩
  · cases h
    exact .inr rfl

theorem engineTurn_ends {s t : State} (h : engineTurn s = .next t) :
    (∃ r0 r1 r2 r3 z, Succeeded s t r0 r1 r2 r3 z) ∨ ∃ e, Failed s t (BitVec.ofNat 32 (errorCode e)) := by
  rcases engineTurn_cases h with ⟨i, hx⟩ | rfl
  · exact exec_ends hx
  · exact .inr ⟨_, raiseError_failed _ s⟩

/-- A turn of the host leaves the engine as it is, starts a command, or resets the engine. -/
theorem hostTurn_ends {s t : State} (h : hostTurn s = .next t) :
    HostKeeps s t ∨ (s.phase = .idle ∧ ∃ v, t = takeDelay (begin v (advance s)))
      ∨ s.hostProg[s.hostPc]? = some .reset ∧ t = engineReset (advance s) := by
  rcases hostTurn_cases h with rfl | ⟨o, ho, hop⟩
  · exact .inl (.refl _)
  · rcases hostOp_cases hop with hk | hstart | ⟨rfl, ht⟩
    · exact .inl { hk with }
    · exact .inr (.inl hstart)
    · exact .inr (.inr ⟨ho, ht⟩)

/-- A step is the turn of ENGINE, or the host's with the turns left to wait counted down while BUSY. -/
theorem step_ends {s t : State} (h : step s = .next t) :
    (s.phase = .busy ∧ s.wait = 0 ∧ engineTurn s = .next t)
      ∨ ∃ n, (s.phase = .busy → s.wait = n + 1) ∧ hostTurn { s with wait := n } = .next t := by
  rcases step_cases s with ⟨hb, hw, hstep⟩ | ⟨n, -, hw, hstep⟩ | ⟨hi, hstep⟩
  · exact .inl ⟨hb, hw, hstep ▸ h⟩
  · exact .inr ⟨n, fun _ => hw, hstep ▸ h⟩
  · exact .inr ⟨s.wait, fun hb => by simp [hi] at hb, hstep ▸ h⟩

/-! ### The invariant -/

/-- A turn of ENGINE keeps memory canonical and in the memory space (R33). -/
theorem engineTurn_mem_wf {s t : State} (h : engineTurn s = .next t) (hwf : s.mem.wf = true)
    (hsp : s.mem.inSpace = true) : t.mem.wf = true ∧ t.mem.inSpace = true := by
  rcases engineTurn_cases h with ⟨i, hx⟩ | rfl
  · rcases exec_mem hx with hm | ⟨a, n, f, hle, hm⟩
    · exact hm ▸ ⟨hwf, hsp⟩
    · exact hm ▸ ⟨Memory.wf_fill _ _ _ hwf, Memory.inSpace_fill _ hle hsp⟩
  · exact ⟨hwf, hsp⟩

theorem errorCode_ne_zero (e : CmdError) : BitVec.ofNat 32 (errorCode e) ≠ 0 := by cases e <;> decide

/-- A success has ERR = 0 and ERRCODE = 0, so the flags agree whatever DZC is (R131). -/
theorem Succeeded.inv {s t : State} {r0 r1 r2 r3 : Word} {z : Bool} (h : Succeeded s t r0 r1 r2 r3 z)
    (hwf : t.mem.wf = true) (hsp : t.mem.inSpace = true) : Inv t where
  memWf := hwf
  memSpace := hsp
  errRange := by simp [h.errcode]
  errAgrees := by simp [h.err]
  dzcAgrees := fun _ => h.errcode
  errZero := fun hne => absurd h.errcode hne
  busyClear := by simp [h.idle]
  busyCmd := by simp [h.idle]

/-- An error leaves DZC as it was, and that is 0 while BUSY (R131). -/
theorem Failed.inv {s t : State} {e : CmdError} (h : Failed s t (BitVec.ofNat 32 (errorCode e)))
    (hdzc : s.dzc = false) (hwf : t.mem.wf = true) (hsp : t.mem.inSpace = true) : Inv t where
  memWf := hwf
  memSpace := hsp
  errRange := by rw [h.errcode, errorCode_toNat]; exact (errorCode_pos e).2
  errAgrees := fun _ => h.errcode ▸ errorCode_ne_zero e
  dzcAgrees := by simp [h.dzc, hdzc]
  errZero := fun _ => h.results
  busyClear := by simp [h.idle]
  busyCmd := by simp [h.idle]

theorem engineTurn_keeps_inv {s t : State} (hs : Inv s) (hb : s.phase = .busy) (h : engineTurn s = .next t) :
    Inv t := by
  obtain ⟨hwf, hsp⟩ := engineTurn_mem_wf h hs.memWf hs.memSpace
  obtain ⟨-, -, hdzc, -⟩ := hs.busyClear hb
  rcases engineTurn_ends h with ⟨_, _, _, _, _, ht⟩ | ⟨_, ht⟩
  · exact ht.inv hwf hsp
  · exact ht.inv hdzc hwf hsp

/-- The host can only clear flags, so those that are set still agree with ERRCODE (R22). -/
theorem HostKeeps.inv {s t : State} (h : HostKeeps s t) (hs : Inv s) : Inv t where
  memWf := h.memWf hs.memWf
  memSpace := h.memSpace hs.memSpace
  errRange := h.errcode ▸ hs.errRange
  errAgrees := fun he => h.errcode ▸ hs.errAgrees (h.err he)
  dzcAgrees := fun hz => h.errcode ▸ hs.dzcAgrees (h.dzc hz)
  errZero := fun hne => h.results ▸ hs.errZero (h.errcode ▸ hne)
  busyClear := fun hb => by
    obtain ⟨hdone, herr, hdzc, hcode⟩ := hs.busyClear (h.phase ▸ hb)
    exact ⟨Bool.eq_false_iff.2 fun hd => Bool.eq_false_iff.1 hdone (h.done hd),
      Bool.eq_false_iff.2 fun he => Bool.eq_false_iff.1 herr (h.err he),
      Bool.eq_false_iff.2 fun hz => Bool.eq_false_iff.1 hdzc (h.dzc hz), h.errcode ▸ hcode⟩
  busyCmd := fun hb => by rw [h.cmd, h.snapC]; exact hs.busyCmd (h.phase ▸ hb)

/-- A start clears every flag and ERRCODE and takes its snapshot from CMD (R130). -/
theorem start_inv {s : State} (hs : Inv s) (v : Word) : Inv (takeDelay (begin v (advance s))) where
  memWf := hs.memWf
  memSpace := hs.memSpace
  errRange := by simp
  errAgrees := by simp
  dzcAgrees := by simp
  errZero := by simp
  busyClear := by simp
  busyCmd := by simp

/-- Reset leaves every flag and ERRCODE 0 and the engine IDLE (R32, R140). -/
theorem engineReset_inv {s : State} (hs : Inv s) : Inv (engineReset s) where
  memWf := (engineReset_keeps s).2.1 hs.memWf
  memSpace := (engineReset_keeps s).2.2 hs.memSpace
  errRange := Nat.zero_le 11
  errAgrees := fun h => absurd h Bool.false_ne_true
  dzcAgrees := fun _ => rfl
  errZero := fun h => absurd rfl h
  busyClear := fun h => by cases h
  busyCmd := fun h => by cases h

theorem hostTurn_keeps_inv {s t : State} (hs : Inv s) (h : hostTurn s = .next t) : Inv t := by
  rcases hostTurn_ends h with hk | ⟨-, v, rfl⟩ | ⟨-, rfl⟩
  · exact hk.inv hs
  · exact start_inv hs v
  · exact engineReset_inv { hs with }

/-- Settles O60, turn by turn: a completion, an act of the host, a start and a reset each keep the invariant. -/
theorem everyStepKeepsTheInvariant : Obligations.EveryStepKeepsTheInvariant := by
  intro s t hs h
  rcases step_ends h with ⟨hb, -, he⟩ | ⟨n, -, hh⟩
  · exact engineTurn_keeps_inv hs hb he
  · have hs' : Inv { s with wait := n } := { hs with }
    exact hostTurn_keeps_inv hs' hh

/-! ### Parameters, results and ERRCODE -/

/-- Every completion leaves everything of EngineFrame alone and ENGINE IDLE (R131, R133). -/
theorem engineTurn_frame {s t : State} (h : engineTurn s = .next t) : EngineFrame s t ∧ t.phase = .idle := by
  rcases engineTurn_ends h with ⟨_, _, _, _, _, ht⟩ | ⟨_, ht⟩
  · exact ⟨ht.frame, ht.idle⟩
  · exact ⟨ht.frame, ht.idle⟩

/-- Settles O59: a completion may change results and ERRCODE, a start ERRCODE alone, a reset both, and any other act of
the host neither. -/
theorem stepsKeepTheCatalogAndTheResults : Obligations.StepsKeepTheCatalogAndTheResults := by
  intro s t h
  rcases step_ends h with ⟨hb, hw, he⟩ | ⟨n, -, hh⟩
  · obtain ⟨hframe, hidle⟩ := engineTurn_frame he
    exact ⟨hframe.config, fun _ => .inl ⟨hb, hw, hidle⟩, fun _ => .inl ⟨hb, hw, hidle⟩⟩
  · rcases hostTurn_ends hh with hk | ⟨hi, v, rfl⟩ | ⟨hr, rfl⟩
    · exact ⟨hk.config, fun hne => absurd hk.results hne, fun hne => absurd hk.errcode hne⟩
    · exact ⟨rfl, fun hne => absurd rfl hne, fun _ => .inr (.inl ⟨hi, rfl⟩)⟩
    · exact ⟨(engineReset_keeps _).1, fun _ => .inr hr, fun _ => .inr (.inr hr)⟩

/-! ### The turns a running command waits -/

/-- A run of n + 1 steps is a step and a run of n. -/
theorem run_succ {M : Host.Core} {n : Nat} {s t : M.State} (h : M.run (n + 1) s = .next t) :
    ∃ u, M.step s = .next u ∧ M.run n u = .next t := by
  rw [Host.Core.run] at h
  split at h
  · exact ⟨_, ‹_›, h⟩
  · cases h
  · cases h

/-- While a command waits for its turn, a host that holds no reset leaves the engine as it is (R20, R21). -/
theorem step_waiting {s t : State} {n : Nat} (hb : s.phase = .busy) (hw : s.wait = n + 1)
    (hr : HostOp.reset ∉ s.hostProg) (h : step s = .next t) : HostKeeps { s with wait := n } t := by
  rcases step_ends h with ⟨-, h0, -⟩ | ⟨m, hm, hh⟩
  · omega
  · obtain rfl : m = n := by have := hm hb; omega
    rcases hostTurn_ends hh with hk | ⟨hi, -⟩ | ⟨hreset, -⟩
    · exact hk
    · simp [hb] at hi
    · exact absurd (List.mem_of_getElem? hreset) hr

/-- Settles O58, by induction on the turns left to wait. -/
theorem runningCommandGetsItsTurnUndisturbed : Obligations.RunningCommandGetsItsTurnUndisturbed := by
  intro s t hb hr hrun
  induction hw : s.wait generalizing s with
  | zero =>
    rw [hw] at hrun
    cases hrun
    exact ⟨hb, hw, rfl, rfl, rfl, rfl, rfl⟩
  | succ n ih =>
    rw [hw] at hrun
    obtain ⟨u, hstep, hrest⟩ := run_succ hrun
    have hk := step_waiting hb hw hr hstep
    have hu : u.wait = n := hk.wait
    obtain ⟨hphase, hwait, hC, hA, hcmd, hres, hcode⟩ :=
      ih u (hk.phase.trans hb) (hk.hostProg ▸ hr) (hu ▸ hrest) hu
    exact ⟨hphase, hwait, hC.trans hk.snapC, hA.trans hk.snapA, hcmd.trans hk.cmd, hres.trans hk.results,
      hcode.trans hk.errcode⟩

/-! ### What a step runs -/

theorem step_engine {s : State} {i : Instr} (hb : s.phase = .busy) (hw : s.wait = 0) (hd : decode s.snapC = .ok i) :
    step s = exec i s := by
  simp [step, turn, engineTurn, hb, hw, hd]

theorem hostTurn_op {s : State} {o : HostOp} (ho : s.hostProg[s.hostPc]? = some o) :
    hostTurn s = hostOp o (advance s) := by
  simp [hostTurn, ho]

/-- A word of 32 bits reaches the engine whole. -/
theorem withFetchWord_toNat (s : State) (w : Word) : s.withFetchWord 32 w.toNat = fetched w s := by
  rw [State.withFetchWord, Nat.mod_eq_of_lt w.isLt, BitVec.ofNat_toNat, BitVec.setWidth_eq]

/-- Settles O55, one clause for each agent whose turn a step can be, and one for a word just accepted. -/
theorem stepRunsTheDecodedCommand : Obligations.StepRunsTheDecodedCommand := by
  refine ⟨fun s i => step_engine, fun s o hi ho => ?_, fun s o n hb hw ho => ?_, fun s w i hd => ?_⟩
  · have hstep : step s = hostTurn s := by simp [step, turn, hi]
    exact hstep.trans (hostTurn_op ho)
  · have hstep : step s = hostTurn { s with wait := n } := by simp [step, turn, hb, hw]
    exact hstep.trans (hostTurn_op ho)
  · rw [withFetchWord_toNat]
    exact ⟨step_engine rfl rfl hd, rfl, rfl⟩

end Sys2Proof.Machine
end

section
/-! SUPPORT. A running command reads its operands from the snapshot, so the live CMD and ARG registers pass through it
untouched (R21, R143). -/

namespace Sys2Proof.Machine

/-- An outcome with the live CMD and ARG registers of its next state, if it has one, replaced. -/
def outcomeWithLive (c : Word) (as : Vector Word 8) :
    Host.Outcome State Fault Refusal → Host.Outcome State Fault Refusal
  | .next t => .next (t.withLive c as)
  | .fault r => .fault r
  | .refused r => .refused r

section
variable (c : Word) (as : Vector Word 8) (s : State)

theorem outcomeWithLive_ite (p : Prop) [Decidable p] (o o' : Host.Outcome State Fault Refusal) :
    outcomeWithLive c as (if p then o else o') = if p then outcomeWithLive c as o else outcomeWithLive c as o' :=
  apply_ite (outcomeWithLive c as) p o o'

theorem ite_withLive (p : Prop) [Decidable p] (t u : State) :
    (if p then t else u).withLive c as = if p then t.withLive c as else u.withLive c as :=
  apply_ite (State.withLive · c as) p t u

theorem findFormat_withLive (opc : Nat) (test : Descriptor → Bool) :
    findFormat opc test (s.withLive c as) = (findFormat opc test s).withLive c as := by
  simp only [findFormat, withLive_config]
  split <;> rfl

theorem completeSize_withLive (z : Nat) : completeSize z (s.withLive c as) = (completeSize z s).withLive c as := by
  unfold completeSize
  split <;> rfl

theorem findNameRaced_withLive : findNameRaced (s.withLive c as) = (findNameRaced s).withLive c as := by
  unfold findNameRaced
  rw [ite_withLive]
  rfl

theorem runCommand_withLive {α : Type} (checks : Except CmdError (Plan × α)) (eff : Plan → α → State → State)
    (he : ∀ p x, eff p x (s.withLive c as) = (eff p x s).withLive c as) :
    runCommand checks eff (s.withLive c as) = (runCommand checks eff s).withLive c as := by
  rcases runCommand_cases checks eff s with ⟨e, hc, hr⟩ | ⟨p, x, hc, hb, hr⟩ | ⟨p, x, hc, hb, hr⟩
  · rw [hr, runCommand_error hc]
    rfl
  · rw [hr, ← he, runCommand_ok (s := s.withLive c as) hc hb]
  · rw [hr, runCommand_bus (s := s.withLive c as) hc hb]
    rfl

@[simp] theorem withLive_operand (n : Fin 8) : operand (s.withLive c as) n = operand s n := rfl

@[simp] theorem withLive_format (f : Nat) : format (s.withLive c as) f = format s f := rfl

@[simp] theorem withLive_formatPlane (p : Nat) : formatPlane (s.withLive c as) p = formatPlane s p := rfl

/-- CMD and ARG0..ARG7 pass through every command, and nothing else of its outcome depends on them (R21). -/
theorem exec_withLive (i : Instr) : exec i (s.withLive c as) = outcomeWithLive c as (exec i s) := by
  cases i
  case findName =>
    refine congrArg _ (runCommand_withLive c as s _ _ fun p _ => ?_)
    rw [ite_withLive, ← findNameRaced_withLive, ← findFormat_withLive]
    rfl
  case findDrm => exact congrArg _ (findFormat_withLive c as s _ _)
  case findV4l2 => exact congrArg _ (findFormat_withLive c as s _ _)
  case fmtInfo =>
    simp only [exec, execFmtInfo, withLive_format, withLive_operand]
    split
    · rfl
    · rw [outcomeWithLive_ite]
      rfl
  case planeInfo p =>
    simp only [exec, execPlaneInfo, withLive_formatPlane]
    split <;> rfl
  case stride p =>
    simp only [exec, execStride, withLive_formatPlane, withLive_operand]
    split
    · rfl
    · rw [outcomeWithLive_ite, completeSize_withLive]
      rfl
  case planeSize p =>
    simp only [exec, execPlaneSize, withLive_formatPlane, withLive_operand]
    split
    · rfl
    · rw [completeSize_withLive]
      rfl
  case frameSize =>
    simp only [exec, execFrameSize, withLive_format, withLive_operand]
    split
    · rfl
    · rw [outcomeWithLive_ite, completeSize_withLive]
      rfl
  case fourccEnc =>
    refine congrArg _ (runCommand_withLive c as s _ _ fun p _ => ?_)
    rw [ite_withLive]
    rfl
  case fourccDec => exact congrArg _ (runCommand_withLive c as s _ _ fun _ _ => rfl)
  case convert => exact congrArg _ (runCommand_withLive c as s _ _ fun _ _ => rfl)
  case unpack => exact congrArg _ (runCommand_withLive c as s _ _ fun _ _ => rfl)
  case demosaic => exact congrArg _ (runCommand_withLive c as s _ _ fun _ _ => rfl)
  case csc => exact congrArg _ (runCommand_withLive c as s _ _ fun _ _ => rfl)

end

/-- Settles O11: from other live registers a command's outcome is the same but for those registers. -/
theorem runningCommandReadsOnlyTheSnapshot : Obligations.RunningCommandReadsOnlyTheSnapshot := by
  intro i s t c as h
  rw [exec_withLive, h]
  rfl

end Sys2Proof.Machine
end

section
/-! SUPPORT. The register block: what a read of each register returns, what a write to it does, and the bits of STATUS
(R16 to R26). -/

namespace Sys2Proof.Machine

/-! ### Register accesses -/

theorem hostValue_eq {s : State} {v : HostValue} {x : Word} (h : v = .lit x ∨ v = .acc ∧ s.acc = x) :
    hostValue s v = x := by
  rcases h with rfl | ⟨rfl, h⟩
  · rfl
  · exact h

/-- A read of a register other than STATUS does nothing but put its value in `acc` (R63). -/
theorem hostOp_rd (s : State) {r : Reg} (hr : r ≠ .status := by simp) :
    hostOp (.rd r) s = .next { s with acc := regValue s r } := by
  simp [hostOp, readReg, hr]

/-- A read of STATUS can empty the model's list of unordered ranges besides (R42). -/
theorem readReg_status (s : State) :
    readReg .status s = { s with acc := statusWord s, unordered := (readReg .status s).unordered } := by
  unfold readReg
  split <;> rfl

/-! ### The bits of STATUS (R22) -/

/-- Five flags packed as STATUS packs them: each stands in its bit, and no bit above is set. -/
theorem packedFlags : ∀ busy done err dzc cmdlost : Bool,
    let w : Word := BitVec.ofNat 32 (bit busy + 2 * bit done + 4 * bit err + 8 * bit dzc + 16 * bit cmdlost)
    (w.getLsbD 0 = busy ∧ w.getLsbD 1 = done ∧ w.getLsbD 2 = err ∧ w.getLsbD 3 = dzc ∧ w.getLsbD 4 = cmdlost)
      ∧ w.toNat < 2 ^ 5 := by
  decide

theorem statusWord_flags (s : State) :
    (statusWord s).getLsbD 0 = decide (s.phase = .busy) ∧ (statusWord s).getLsbD 1 = s.done
      ∧ (statusWord s).getLsbD 2 = s.err ∧ (statusWord s).getLsbD 3 = s.dzc ∧ (statusWord s).getLsbD 4 = s.cmdlost :=
  (packedFlags ..).1

/-- Bits 31 to 5 of STATUS read 0. -/
theorem statusWord_high (s : State) {i : Nat} (hi : 5 ≤ i) : (statusWord s).getLsbD i = false :=
  Nat.testBit_lt_two_pow ((packedFlags ..).2.trans_le (Nat.pow_le_pow_right (by decide) hi))

theorem clearStatus_eq (x : Word) (s : State) :
    clearStatus x s = { s with
      done := s.done && !x.getLsbD 1
      err := s.err && !x.getLsbD 2
      dzc := s.dzc && !x.getLsbD 3
      cmdlost := s.cmdlost && !x.getLsbD 4 } := by
  simp only [clearStatus, writesOne_eq]

/-- Settles O6: a STATUS read shows the packed flags, a STATUS write is `clearStatus` of the value written. -/
theorem statusReadsItsBitsAndClearsOnOne : Obligations.StatusReadsItsBitsAndClearsOnOne := by
  intro s
  constructor
  · obtain ⟨hbusy, hdone, herr, hdzc, hlost⟩ := statusWord_flags s
    have hacc : (readReg .status s).acc = statusWord s := by rw [readReg_status]
    exact ⟨readReg .status s, rfl, hacc ▸ hbusy, hacc ▸ hdone, hacc ▸ herr, hacc ▸ hdzc, hacc ▸ hlost,
      fun i hi => hacc ▸ statusWord_high s hi, hacc, hacc ▸ readReg_status s⟩
  · intro v x hv
    change Host.Outcome.next (clearStatus (hostValue s v) s) = _
    rw [hostValue_eq hv, clearStatus_eq]

/-! ### The other registers -/

theorem reset_inv : Inv State.reset where
  memWf := rfl
  memSpace := rfl
  errRange := Nat.zero_le 11
  errAgrees := fun h => absurd h Bool.false_ne_true
  dzcAgrees := fun _ => rfl
  errZero := fun h => absurd rfl h
  busyClear := fun h => by cases h
  busyCmd := fun h => by cases h

/-- Settles O1: every register is 0 by R32, and the default catalog has 39 entries (R67). -/
theorem resetStateIsIdleAndZero : Obligations.ResetStateIsIdleAndZero :=
  ⟨rfl, by decide, rfl, rfl, by decide, by decide, rfl, rfl, by decide, reset_inv⟩

/-- NFMT is the number of catalog entries while 32 bits hold it (R19). -/
theorem nfmtWord_toNat {s : State} (h : s.config.catalog.length < 2 ^ 32) :
    (nfmtWord s).toNat = s.config.catalog.length := by
  rw [nfmtWord, limit32, if_pos h, BitVec.toNat_ofNat, Nat.mod_eq_of_lt h]

theorem format_isSome_iff (s : State) (f : Nat) : (format s f).isSome = true ↔ f < s.config.catalog.length := by
  rw [format, isSome_getElem?]

/-- Settles O3: writes to the identity registers do nothing, and reads return their constants. -/
theorem identityRegistersAreConstant : Obligations.IdentityRegistersAreConstant := fun s _ =>
  ⟨rfl, rfl, rfl, hostOp_rd s, hostOp_rd s, ⟨nfmtWord s, hostOp_rd s, nfmtWord_toNat⟩, format_isSome_iff s⟩

/-- A write to ARGn sets that register alone (R24). -/
theorem hostOp_wr_arg {s : State} {v : HostValue} {x : Word} (hv : hostValue s v = x) (n : Fin 8) :
    hostOp (.wr (.arg n) v) s = .next { s with args := s.args.set n x } := by
  subst hv
  rfl

/-- Settles O5: a write sets an ARG register alone or does nothing, and a read changes `acc` alone. -/
theorem registerWritesSetArgsAndNothingReadOnly : Obligations.RegisterWritesSetArgsAndNothingReadOnly := by
  intro s v x hv
  refine ⟨fun n => ⟨_, hostOp_wr_arg (hostValue_eq hv) n, ?_, fun m hm => ?_, rfl⟩, fun n => hostOp_rd s,
    hostOp_rd s, hostOp_rd s, fun n => hostOp_rd s, rfl, fun n => rfl, fun r hr => ?_⟩
  · simp
  · have hne : n.val ≠ m.val := fun h => hm (Fin.ext h.symm)
    simp [hne]
  · rcases hr with rfl | rfl | ⟨n, rfl⟩
    · exact ⟨rfl, hostOp_rd s⟩
    · exact ⟨rfl, hostOp_rd s⟩
    · exact ⟨rfl, hostOp_rd s⟩

end Sys2Proof.Machine
end

section
/-! SUPPORT. The ranges of a command and the accesses to them (spec/20_memory.md R36 to R43): what the platform
refuses, what the host may not start, what a race leaves unspecified, and what the host's own accesses do. -/

namespace Sys2Proof.Machine

/-! ### The write range of a command (R36 to R40) -/

/-- Settles O15, from what the checks of a command promise about its ranges. -/
theorem plannedRangesFitMemoryAndDoNotMeet : Obligations.PlannedRangesFitMemoryAndDoNotMeet := by
  intro i s p hp
  obtain ⟨hrd, hwr, hmeet⟩ := planOf_fits hp
  exact ⟨hrd, hwr, (rangesMeet_false_iff _ _).1 hmeet⟩

/-- One refused byte makes a whole range refused (R38). -/
theorem rangeOk_false {c : Config} {r : Range} {k : AccessKind} {a : Nat} (ha : inRange r a = true)
    (hbad : busOk c a k = false) : rangeOk c r k = false :=
  Bool.eq_false_iff.2 fun hok => Bool.eq_false_iff.1 hbad ((rangeOk_iff c r k).1 hok a ha)

/-- One byte that the platform refuses in either range makes it refuse the command (R38). -/
theorem busOkOver_false {c : Config} {p : Plan} {a : Nat}
    (h : inRange p.rd a = true ∧ busOk c a .read = false ∨ inRange p.wr a = true ∧ busOk c a .write = false) :
    busOkOver c p = false := by
  rw [busOkOver, Bool.and_eq_false_iff]
  exact h.imp (fun ⟨ha, hbad⟩ => rangeOk_false ha hbad) fun ⟨ha, hbad⟩ => rangeOk_false ha hbad

/-- Settles O14: the command ends with BusError, its write range spoiled. -/
theorem refusedAccessEndsWithBusError : Obligations.RefusedAccessEndsWithBusError := by
  intro i s p a hwf hp hbad
  exact ⟨_, exec_bus hp (busOkOver_false hbad), spoil_failed .busError p.wr s, spoil_read_outside p.wr s,
    fun k hk => spoil_read_inside p.wr hwf hk⟩

/-- Whether it completes, spoils its write range or writes it, a command leaves every other byte alone (R36). -/
theorem exec_onlyWrote {i : Instr} {s t : State} {p : Plan} (hp : planOf i s = .ok p) (h : exec i s = .next t) :
    OnlyWrote s t p.wr.base p.wr.len := by
  rcases exec_cases h with ⟨e, he, -⟩ | ⟨q, hq, hends⟩
  · simp [hp] at he
  · obtain rfl : p = q := Except.ok.inj (hp.symm.trans hq)
    rcases hends with ⟨-, rfl⟩ | ⟨-, ⟨⟨r0, r1, r2, r3, rfl⟩ | ⟨e, rfl⟩, -⟩ | ⟨n, z, out, rfl⟩⟩
    · exact spoil_read_outside p.wr s
    · exact fun _ _ => rfl
    · exact fun _ _ => rfl
    · exact writeOut_read_outside p.wr out s

/-- Settles O16, for a command that passes its checks and for one that does not. -/
theorem commandsWriteOnlyTheirWriteRange : Obligations.CommandsWriteOnlyTheirWriteRange := by
  intro i s t h
  refine ⟨fun p hp => exec_onlyWrote hp h, fun e he => ?_⟩
  rw [exec_error he] at h
  cases h
  rfl

/-! ### The start of a command that breaks a host duty (R37, R41) -/

theorem readsUnseen_iff (s : State) :
    readsUnseen s = true ↔ ∃ r ∈ s.unseen, ∃ a, inRange r a = true ∧ inRange (accessPlan s).rd a = true := by
  simp only [readsUnseen, List.any_eq_true, rangesMeet_iff]

theorem touchesHazard_iff (s : State) :
    touchesHazard s = true ↔ ∃ r ∈ s.config.readHazards, ∃ a, inRange r a = true
      ∧ (inRange (accessPlan s).rd a = true ∨ inRange (accessPlan s).wr a = true) := by
  simp only [touchesHazard, List.any_eq_true, Bool.or_eq_true, rangesMeet_iff, ← exists_or, ← and_or_left]

section
variable {s : State} (hb : busOkOver s.config (accessPlan s) = true)
include hb

theorem dutyViolation_unseen (hu : readsUnseen s = true) : dutyViolation s = some .hostWriteNotVisible := by
  simp [dutyViolation, hb, hu]

theorem dutyViolation_hazard (hu : readsUnseen s = false) (hz : touchesHazard s = true) :
    dutyViolation s = some .readSideEffects := by
  simp [dutyViolation, hb, hu, hz]

end

/-- A CMD write while IDLE is the start of a command (R20). -/
theorem hostOp_wr_cmd_idle {s : State} (hi : s.phase = .idle) (v : HostValue) :
    hostOp (.wr .cmd v) s = acceptCmd (hostValue s v) s := by
  simp [hostOp, writeReg, hi]

theorem acceptCmd_refused {v : Word} {s : State} {q : Refusal}
    (h : dutyViolation (takeDelay (begin v s)) = some q) : acceptCmd v s = .refused q := by
  simp [acceptCmd, h]

/-- A command just started accesses what its checks plan from the operands in the live registers (R21, R130). -/
theorem accessPlan_started {v : Word} {s : State} {i : Instr} {p : Plan} (hd : decode v = .ok i)
    (hp : planOf i { s with snapA := s.args } = .ok p) : accessPlan (takeDelay (begin v s)) = p := by
  have hplan : planOf i (takeDelay (begin v s)) = planOf i { s with snapA := s.args } := planOf_congr rfl rfl i
  exact accessPlan_ok hd (hplan.trans hp)

/-- Settles O9: the duty broken is read off the state just after the start. -/
theorem startsThatBreakAHostDutyAreRefused : Obligations.StartsThatBreakAHostDutyAreRefused := by
  intro s v i p a hi hd hp hread hwrite
  have hplan := accessPlan_started hd hp
  have hbus : busOkOver s.config (accessPlan (takeDelay (begin v s))) = true :=
    hplan ▸ (busOkOver_iff s p).2 ⟨hread, hwrite⟩
  rw [hostOp_wr_cmd_idle hi]
  constructor
  · rintro ⟨r, hr, hra⟩ hrd
    exact acceptCmd_refused (dutyViolation_unseen hbus ((readsUnseen_iff _).2 ⟨r, hr, a, hra, hplan ▸ hrd⟩))
  · rintro hnone ⟨r, hr, hra⟩ hpa
    have hseen : readsUnseen (takeDelay (begin v s)) = false := by simp [readsUnseen, hnone]
    exact acceptCmd_refused
      (dutyViolation_hazard hbus hseen ((touchesHazard_iff _).2 ⟨r, hr, a, hra, hplan ▸ hpa⟩))

/-! ### What a race leaves unspecified (R43) -/

/-- FMT_INFO alone can be refused (X14); every other command completes. -/
theorem exec_completes {i : Instr} (s : State) (hi : i ≠ .fmtInfo) : ∃ t, exec i s = .next t := by
  cases i
  case fmtInfo => exact absurd rfl hi
  case planeInfo =>
    simp only [exec, execPlaneInfo]
    split <;> exact ⟨_, rfl⟩
  case stride =>
    simp only [exec, execStride]
    split
    · exact ⟨_, rfl⟩
    · split <;> exact ⟨_, rfl⟩
  case planeSize =>
    simp only [exec, execPlaneSize]
    split <;> exact ⟨_, rfl⟩
  case frameSize =>
    simp only [exec, execFrameSize]
    split
    · exact ⟨_, rfl⟩
    · split <;> exact ⟨_, rfl⟩
  all_goals exact ⟨_, rfl⟩

theorem racedAt_wroteReadRange {s : State} {a n : Nat} (h : .wroteReadRange a n ∈ s.races) (b : Nat) :
    racedAt s b = true :=
  List.any_eq_true.2 ⟨_, h, rfl⟩

theorem racedAt_wroteWriteRange {s : State} {a n b : Nat} (h : .wroteWriteRange a n ∈ s.races) (h1 : a ≤ b)
    (h2 : b < a + n) : racedAt s b = true :=
  List.any_eq_true.2 ⟨_, h, (inRange_iff ⟨a, n⟩ b).2 ⟨h1, h2⟩⟩

theorem racedResults_wroteReadRange {s : State} {a n : Nat} (h : .wroteReadRange a n ∈ s.races) :
    racedResults s = true :=
  List.any_eq_true.2 ⟨_, h, rfl⟩

theorem writeOut_read_raced {s : State} (r : Range) (out : Nat → Byte) (hwf : s.mem.wf = true) {k : Nat}
    (hk : k < r.len) (hr : racedAt s (r.base + k) = true) :
    (writeOut r out s).mem.read (r.base + k) = Config.freeByte (s.draws + k) := by
  rw [writeOut_mem, Memory.read_fill_inside _ hwf hk, if_pos hr]

section
variable {s : State} {p : Plan} (hb : busOkOver s.config p = true)
include hb

/-- A raced byte of the write range is free, whatever the command was to write there. -/
theorem exec_read_raced {i : Instr} {t : State} {k : Nat} (hwf : s.mem.wf = true) (hp : planOf i s = .ok p)
    (h : exec i s = .next t) (hk : k < p.wr.len) (hr : racedAt s (p.wr.base + k) = true) :
    t.mem.read (p.wr.base + k) = Config.freeByte (s.draws + k) := by
  rcases exec_cases h with ⟨e, he, -⟩ | ⟨q, hq, hends⟩
  · simp [hp] at he
  · obtain rfl : p = q := Except.ok.inj (hp.symm.trans hq)
    rcases hends with ⟨hbad, -⟩ | ⟨-, ⟨-, hempty⟩ | ⟨n, z, out, rfl⟩⟩
    · simp [hb] at hbad
    · simp [hempty, emptyRange] at hk
    · exact writeOut_read_raced p.wr out hwf hk hr

theorem exec_fourccEnc_raced (hp : planOf .fourccEnc s = .ok p) (hr : racedResults s = true) :
    exec .fourccEnc s = .next (complete (Config.freeWord s.draws).toNat 0 0 0 false s) := by
  obtain ⟨x, hx⟩ := map_fst_ok hp
  exact congrArg _ ((runCommand_ok hx hb).trans (if_pos hr))

theorem exec_findName_raced (hp : planOf .findName s = .ok p) (hr : racedResults s = true) :
    exec .findName s = .next (findNameRaced s) := by
  obtain ⟨x, hx⟩ := map_fst_ok hp
  exact congrArg _ ((runCommand_ok hx hb).trans (if_pos hr))

end

theorem complete_word_succeeded (w : Word) (s : State) :
    Succeeded s (complete w.toNat 0 0 0 false s) w 0 0 0 false := by
  simpa using complete_succeeded w.toNat 0 0 0 false s

theorem findNameRaced_ends (s : State) :
    if Config.freeBit s.draws then Succeeded s (findNameRaced s) (Config.freeWord s.draws) 0 0 0 false
    else Failed s (findNameRaced s) 1 := by
  unfold findNameRaced
  split
  · exact complete_word_succeeded _ s
  · exact raiseError_failed .formatNotFound s

/-- Settles O51: a write into the read range makes every byte of the write range and the results raced, one into the
write range the bytes written. -/
theorem racesLeaveTheWriteRangeUnspecified : Obligations.RacesLeaveTheWriteRangeUnspecified := by
  intro i s p a n hwf hp hread hwrite
  have hb : busOkOver s.config p = true := (busOkOver_iff s p).2 ⟨hread, hwrite⟩
  constructor
  · intro hrace hi
    obtain ⟨t, ht⟩ := exec_completes s hi
    have hres := racedResults_wroteReadRange hrace
    refine ⟨t, ht, fun k hk => exec_read_raced hb hwf hp ht hk (racedAt_wroteReadRange hrace _), ?_, ?_⟩
    · rintro rfl
      rw [exec_fourccEnc_raced hb hp hres] at ht
      cases ht
      exact complete_word_succeeded _ s
    · rintro rfl
      rw [exec_findName_raced hb hp hres] at ht
      cases ht
      exact findNameRaced_ends s
  · intro hrace hi
    obtain ⟨t, ht⟩ := exec_completes s hi
    exact ⟨t, ht, fun k hk h1 h2 => exec_read_raced hb hwf hp ht hk (racedAt_wroteWriteRange hrace h1 h2)⟩

/-! ### The host's accesses (R41 to R43) -/

/-- A host write into the running command's read range is a race of its own kind, exactly where the two meet. -/
theorem wroteReadRange_mem_writeRaces (s : State) (a n : Nat) :
    .wroteReadRange a n ∈ writeRaces s a n
      ↔ ∃ x, inRange ⟨a, n⟩ x = true ∧ inRange (runningPlan s).rd x = true := by
  simp [writeRaces, ← rangesMeet_iff]

theorem wroteWriteRange_mem_writeRaces (s : State) (a n : Nat) :
    .wroteWriteRange a n ∈ writeRaces s a n
      ↔ ∃ x, inRange ⟨a, n⟩ x = true ∧ inRange (runningPlan s).wr x = true := by
  simp [writeRaces, ← rangesMeet_iff]

/-- An IDLE engine runs no command that could be raced (R43). -/
theorem writeRaces_idle {s : State} (hi : s.phase = .idle) (a n : Nat) : writeRaces s a n = [] := by
  simp [writeRaces, runningPlan_idle hi, Plan.none, emptyRange, rangesMeet]

/-- A host write within the memory space: what it leaves of memory, of the races and of the unseen writes. -/
theorem hostWrite_next {a : Nat} {bs : List Byte} (s : State) (h : a + bs.length ≤ 2 ^ 32) :
    hostWrite a bs s = .next { s with
      mem := s.mem.fill a bs.length fun i => bs.getD i 0
      races := writeRaces s a bs.length ++ s.races
      unseen := if s.config.coherent then s.unseen else ⟨a, bs.length⟩ :: s.unseen } := by
  simp [hostWrite, (wraps_false_iff _ _).2 h]

/-- A host read within the memory space, where no read has side effects: memory is left alone and each byte is
memory's or, where it is unsettled, a free value. -/
theorem hostRead_next {a n : Nat} {s : State} (h : a + n ≤ 2 ^ 32) (hz : s.config.readHazards = []) :
    ∃ t, hostRead a n s = .next t ∧ t.mem = s.mem ∧ t.lastRead = (List.range n).map fun i =>
      if unsettled s (a + i) then Config.freeByte (s.draws + i) else s.mem.read (a + i) := by
  simp [hostRead, (wraps_false_iff _ _).2 h, hz]

/-- Settles O52: the fields of the state after a host write, and the bytes a host read returns while BUSY. -/
theorem hostAccessesRaceOnlyTheRunningRanges : Obligations.HostAccessesRaceOnlyTheRunningRanges := by
  intro s hwf
  constructor
  · intro a bs hfit
    refine ⟨_, hostWrite_next s hfit, fun b hb => Memory.read_fill_outside _ _ _ _ _ hb, fun k hk => ?_, ?_, ?_,
      fun hi => ?_, rfl, rfl⟩
    · rw [Memory.read_fill_inside _ hwf hk, List.getD_eq_getElem _ _ hk]
    · rw [List.mem_append, wroteReadRange_mem_writeRaces, or_comm]
    · rw [List.mem_append, wroteWriteRange_mem_writeRaces, or_comm]
    · rw [writeRaces_idle hi, List.nil_append]
  · intro _ hordered hz a n hfit
    obtain ⟨t, ht, hmem, hread⟩ := hostRead_next hfit hz
    have hunsettled : ∀ b, unsettled s b = inRange (runningPlan s).wr b := fun b => by simp [unsettled, hordered]
    refine ⟨t, ht, hmem, by simp [hread], fun k hk => ?_⟩
    simp [hread, hunsettled, hk]

/-- While IDLE a STATUS read orders every write of the engine (R42). -/
theorem readReg_status_idle {s : State} (hi : s.phase = .idle) :
    readReg .status s = { s with acc := statusWord s, unordered := [] } :=
  if_pos ⟨rfl, hi⟩

/-- With ENGINE IDLE and its writes ordered, every byte is settled. -/
theorem unsettled_ordered {s : State} (hi : s.phase = .idle) (ho : s.unordered = []) (a : Nat) :
    unsettled s a = false := by
  simp [unsettled, ho, runningPlan_idle hi, Plan.none, emptyRange, inRange]

theorem hostRead_settled {a n : Nat} {s : State} (h : a + n ≤ 2 ^ 32) (hz : s.config.readHazards = [])
    (hs : ∀ b, unsettled s b = false) :
    ∃ t, hostRead a n s = .next t ∧ t.mem = s.mem ∧ t.lastRead = s.mem.bytes a n := by
  obtain ⟨t, ht, hmem, hread⟩ := hostRead_next h hz
  refine ⟨t, ht, hmem, hread.trans ?_⟩
  simp [hs, Memory.bytes]

/-- Settles O53: the read shows BUSY = 0 and leaves every byte settled. -/
theorem statusReadOrdersEngineWrites : Obligations.StatusReadOrdersEngineWrites := by
  intro s t a n hi hz hfit h
  obtain rfl : readReg .status s = t := Host.Outcome.next.inj h
  rw [readReg_status_idle hi]
  obtain ⟨hbusy, -⟩ := statusWord_flags s
  exact ⟨hbusy.trans (by simp [hi]), rfl, hostRead_settled hfit hz (unsettled_ordered hi rfl)⟩

end Sys2Proof.Machine
end

section
/-! SUPPORT. The command word (spec/30_encoding.md R52 to R62): its fields as numbers, what a mask of them keeps, and
decoding as an equation between fields. -/

namespace Sys2Proof

/-! ### The fields of a word -/

/-- The five fields of a command word as numbers (R52); bits 31 to 18 belong to none of them. -/
@[ext] structure CommandFields where
  opc   : Nat
  plane : Nat
  rng   : Nat
  enc   : Nat
  dmm   : Nat

/-- Every field fits its place (R53 to R57). -/
structure CommandFields.Fit (f : CommandFields) : Prop where
  opc   : f.opc < 2 ^ 8
  plane : f.plane < 2 ^ 4
  rng   : f.rng < 2 ^ 2
  enc   : f.enc < 2 ^ 2
  dmm   : f.dmm < 2 ^ 2

/-- The word that packs the fields (R64). -/
def CommandFields.word (f : CommandFields) : Word := commandWord f.opc f.plane f.rng f.enc f.dmm

/-- Field by field `&`. -/
def CommandFields.and (f g : CommandFields) : CommandFields :=
  ⟨f.opc &&& g.opc, f.plane &&& g.plane, f.rng &&& g.rng, f.enc &&& g.enc, f.dmm &&& g.dmm⟩

/-- The fields a word holds (R52). -/
def fieldsOf (w : Word) : CommandFields := ⟨field w 7 0, planeField w, field w 13 12, field w 15 14, field w 17 16⟩

/-- Packing a field above the bits in use with `|` is adding it there. -/
theorem or_shiftLeft {x n : Nat} (y : Nat) (h : x < 2 ^ n) : x ||| y <<< n = x + y * 2 ^ n := by
  rw [Nat.or_comm, ← Nat.shiftLeft_add_eq_or_of_lt h, Nat.shiftLeft_eq, Nat.add_comm]

/-- Fields that fit do not overlap. -/
theorem CommandFields.word_toNat {f : CommandFields} (h : f.Fit) :
    f.word.toNat = f.opc + f.plane * 2 ^ 8 + f.rng * 2 ^ 12 + f.enc * 2 ^ 14 + f.dmm * 2 ^ 16 := by
  obtain ⟨ho, hp, hr, he, hd⟩ := h
  rw [word, commandWord, or_shiftLeft _ ho, or_shiftLeft (n := 12) _ (by omega), or_shiftLeft (n := 14) _ (by omega),
    or_shiftLeft (n := 16) _ (by omega), BitVec.toNat_ofNat]
  omega

theorem fieldsOf_word {f : CommandFields} (h : f.Fit) : fieldsOf f.word = f := by
  obtain ⟨ho, hp, hr, he, hd⟩ := id h
  ext <;> simp only [fieldsOf, planeField, field, CommandFields.word_toNat h, Nat.shiftRight_eq_div_pow] <;> omega

theorem field_word_high {f : CommandFields} (h : f.Fit) : field f.word 31 18 = 0 := by
  obtain ⟨ho, hp, hr, he, hd⟩ := id h
  simp only [field, CommandFields.word_toNat h, Nat.shiftRight_eq_div_pow]
  omega

theorem field_and (v w : Word) (hi lo : Nat) : field (v &&& w) hi lo = field v hi lo &&& field w hi lo := by
  simp only [field, BitVec.toNat_and, Nat.shiftRight_and_distrib, Nat.and_mod_two_pow]

theorem fieldsOf_and (v w : Word) : fieldsOf (v &&& w) = (fieldsOf v).and (fieldsOf w) := by
  simp only [fieldsOf, planeField, CommandFields.and, field_and]

/-- The five fields and bits 31 to 18 are all there is of a word. -/
theorem word_ext_fields {v w : Word} (h : fieldsOf v = fieldsOf w) (high : field v 31 18 = field w 31 18) : v = w := by
  simp only [fieldsOf, planeField, field, Nat.shiftRight_eq_div_pow, CommandFields.mk.injEq] at h high
  apply BitVec.eq_of_toNat_eq
  omega

/-- A masked word is a given one exactly when its masked fields are the given ones. -/
theorem and_word_eq_iff {m f : CommandFields} (w : Word) (hm : m.Fit) (hf : f.Fit) :
    w &&& m.word = f.word ↔ (fieldsOf w).and m = f := by
  constructor
  · intro h
    rw [← fieldsOf_word hf, ← h, fieldsOf_and, fieldsOf_word hm]
  · intro h
    apply word_ext_fields
    · rw [fieldsOf_and, fieldsOf_word hm, fieldsOf_word hf, h]
    · rw [field_and, field_word_high hm, field_word_high hf, Nat.and_zero]

/-! ### The fields of an instruction -/

/-- The fields of an instruction's word; those it does not read are 0 (R63). -/
def Instr.fields (i : Instr) : CommandFields :=
  match i with
  | .planeInfo plane | .stride plane | .planeSize plane => ⟨i.opcode, plane, 0, 0, 0⟩
  | .convert rng enc dmm => ⟨i.opcode, 0, rng.bits, enc.bits, dmm.bits⟩
  | .demosaic dmm => ⟨i.opcode, 0, 0, 0, dmm.bits⟩
  | .csc rng enc => ⟨i.opcode, 0, rng.bits, enc.bits, 0⟩
  | _ => ⟨i.opcode, 0, 0, 0, 0⟩

/-- Ones in the fields an instruction reads (R60). -/
def Instr.mask : Instr → CommandFields
  | .planeInfo _ | .stride _ | .planeSize _ => ⟨0xFF, 0xF, 0, 0, 0⟩
  | .convert _ _ _ => ⟨0xFF, 0, 3, 3, 3⟩
  | .demosaic _ => ⟨0xFF, 0, 0, 0, 3⟩
  | .csc _ _ => ⟨0xFF, 0, 3, 3, 0⟩
  | _ => ⟨0xFF, 0, 0, 0, 0⟩

theorem Instr.fields_word (i : Instr) : i.fields.word = encode i := by cases i <;> rfl

theorem Instr.mask_word (i : Instr) : i.mask.word = i.readBits := by
  cases i <;> simp [mask, CommandFields.word, commandWord, readBits]

theorem Instr.mask_fit (i : Instr) : i.mask.Fit := by
  cases i <;> constructor <;> simp [mask]

theorem planeFits_iff (plane : Nat) : planeFits plane = true ↔ plane < 2 ^ 4 := decide_eq_true_iff

theorem RngField.bits_lt (r : RngField) : r.bits < 2 ^ 2 := by cases r <;> decide

theorem EncField.bits_lt (e : EncField) : e.bits < 2 ^ 2 := by cases e <;> decide

theorem DmmField.bits_lt (d : DmmField) : d.bits < 2 ^ 2 := by cases d <;> decide

theorem Instr.fields_fit {i : Instr} (h : i.wellFormed = true) : i.fields.Fit := by
  have zero := Nat.two_pow_pos
  have hopc : i.opcode < 2 ^ 8 := by cases i <;> simp [opcode]
  cases i
  case planeInfo p => exact ⟨hopc, (planeFits_iff p).1 h, zero 2, zero 2, zero 2⟩
  case stride p => exact ⟨hopc, (planeFits_iff p).1 h, zero 2, zero 2, zero 2⟩
  case planeSize p => exact ⟨hopc, (planeFits_iff p).1 h, zero 2, zero 2, zero 2⟩
  case convert rng enc dmm => exact ⟨hopc, zero 4, rng.bits_lt, enc.bits_lt, dmm.bits_lt⟩
  case demosaic dmm => exact ⟨hopc, zero 4, zero 2, zero 2, dmm.bits_lt⟩
  case csc rng enc => exact ⟨hopc, zero 4, rng.bits_lt, enc.bits_lt, zero 2⟩
  all_goals exact ⟨hopc, zero 4, zero 2, zero 2, zero 2⟩

/-- On the bits it reads, a word is a well-formed instruction's encoding exactly when its fields there are the
instruction's. -/
theorem and_readBits_eq_encode_iff {i : Instr} (w : Word) (h : i.wellFormed = true) :
    w &&& i.readBits = encode i ↔ (fieldsOf w).and i.mask = i.fields := by
  rw [← i.mask_word, ← i.fields_word, and_word_eq_iff w i.mask_fit (Instr.fields_fit h)]

/-! ### Decoding, field by field -/

theorem field_lt (w : Word) (hi lo : Nat) : field w hi lo < 2 ^ (hi - lo + 1) := Nat.mod_lt _ (Nat.two_pow_pos _)

theorem rngField_eq_iff (w : Word) (r : RngField) : rngField w = r ↔ field w 13 12 = r.bits := by
  have hbits : ∀ n < 4, rngOfBits n = r ↔ n = r.bits := by cases r <;> decide
  exact hbits _ (field_lt w 13 12)

theorem encField_eq_iff (w : Word) (e : EncField) : encField w = e ↔ field w 15 14 = e.bits := by
  have hbits : ∀ n < 4, encOfBits n = e ↔ n = e.bits := by cases e <;> decide
  exact hbits _ (field_lt w 15 14)

theorem dmmField_eq_iff (w : Word) (d : DmmField) : dmmField w = d ↔ field w 17 16 = d.bits := by
  have hbits : ∀ n < 4, dmmOfBits n = d ↔ n = d.bits := by cases d <;> decide
  exact hbits _ (field_lt w 17 16)

/-- The fields of a word that an instruction reads are its own. -/
def Instr.FieldsIn (i : Instr) (w : Word) : Prop :=
  match i with
  | .planeInfo plane | .stride plane | .planeSize plane => planeField w = plane
  | .convert rng enc dmm => rngField w = rng ∧ encField w = enc ∧ dmmField w = dmm
  | .demosaic dmm => dmmField w = dmm
  | .csc rng enc => rngField w = rng ∧ encField w = enc
  | _ => True

/-- A word decodes to the instruction of its OPC with the fields the word holds (R53, R62). -/
theorem decode_eq_ok_iff (w : Word) (i : Instr) : decode w = .ok i ↔ field w 7 0 = i.opcode ∧ i.FieldsIn w := by
  constructor
  · intro h
    unfold decode at h
    split at h <;> cases h <;> exact ⟨‹_›, by simp [Instr.FieldsIn]⟩
  · rintro ⟨hopc, hf⟩
    cases i <;> simp_all [decode, Instr.opcode, Instr.FieldsIn]

theorem field_and_ones (w : Word) (hi lo : Nat) : field w hi lo &&& (2 ^ (hi - lo + 1) - 1) = field w hi lo := by
  rw [Nat.and_two_pow_sub_one_eq_mod, Nat.mod_eq_of_lt (field_lt w hi lo)]

/-- Masking keeps the fields an instruction reads and clears the others, which its encoding has 0. -/
theorem fieldsOf_and_mask_iff (w : Word) (i : Instr) :
    (fieldsOf w).and i.mask = i.fields ↔ field w 7 0 = i.opcode ∧ i.FieldsIn w := by
  have hopc : field w 7 0 &&& 0xFF = field w 7 0 := field_and_ones w 7 0
  have hplane : planeField w &&& 0xF = planeField w := field_and_ones w 11 8
  have hrng : field w 13 12 &&& 3 = field w 13 12 := field_and_ones w 13 12
  have henc : field w 15 14 &&& 3 = field w 15 14 := field_and_ones w 15 14
  have hdmm : field w 17 16 &&& 3 = field w 17 16 := field_and_ones w 17 16
  cases i <;> simp [fieldsOf, CommandFields.and, Instr.mask, Instr.fields, Instr.FieldsIn, rngField_eq_iff,
    encField_eq_iff, dmmField_eq_iff, hopc, hplane, hrng, henc, hdmm]

theorem wellFormed_of_decode {w : Word} {i : Instr} (h : decode w = .ok i) : i.wellFormed = true := by
  have hplane : planeFits (planeField w) = true := (planeFits_iff _).2 (field_lt w 11 8)
  obtain ⟨-, hf⟩ := (decode_eq_ok_iff w i).1 h
  cases i
  case planeInfo => exact hf ▸ hplane
  case stride => exact hf ▸ hplane
  case planeSize => exact hf ▸ hplane
  all_goals rfl

theorem fieldsOf_encode {i : Instr} (h : i.wellFormed = true) : fieldsOf (encode i) = i.fields := by
  rw [← i.fields_word, fieldsOf_word (Instr.fields_fit h)]

theorem decode_encode {i : Instr} (h : i.wellFormed = true) : decode (encode i) = .ok i := by
  have hfields := fieldsOf_encode h
  rw [decode_eq_ok_iff]
  cases i <;> simp_all [fieldsOf, Instr.fields, Instr.FieldsIn, rngField_eq_iff, encField_eq_iff, dmmField_eq_iff]

/-- Settles O57: both sides say that the word's fields, where the instruction reads them, are the instruction's. -/
theorem decodeInvertsEncodeOnTheBitsRead : Obligations.DecodeInvertsEncodeOnTheBitsRead := by
  refine ⟨fun w i => ?_, fun i => decode_encode⟩
  rw [and_congr_right fun h => and_readBits_eq_encode_iff w h, fieldsOf_and_mask_iff, ← decode_eq_ok_iff]
  exact ⟨fun h => ⟨wellFormed_of_decode h, h⟩, And.right⟩

/-! ### Stated words and reserved words -/

/-- Settles O56: the decoder computes each word. -/
theorem statedCommandWordsDecode : Obligations.StatedCommandWordsDecode :=
  ⟨rfl, rfl, rfl, rfl, rfl, rfl, rfl, rfl⟩

/-- Every instruction's OPC is one of R53's. -/
theorem Instr.opcode_mem (i : Instr) :
    i.opcode ∈ [0x01, 0x02, 0x03, 0x04, 0x05, 0x08, 0x09, 0x0A, 0x0C, 0x0D, 0x10, 0x11, 0x12, 0x13] := by
  cases i <;> simp [opcode]

/-- A word that decodes has the OPC of its instruction as its low byte (R62). -/
theorem opcode_of_decode {w : Word} {i : Instr} (h : decode w = .ok i) : w.toNat % 256 = i.opcode :=
  ((decode_eq_ok_iff w i).1 h).1

end Sys2Proof

namespace Sys2Proof.Machine

theorem step_reserved {s : State} {e : DecodeError} (hb : s.phase = .busy) (hw : s.wait = 0)
    (hd : decode s.snapC = .error e) : step s = .next (raiseError .illegalCommand s) := by
  simp [step, turn, engineTurn, hb, hw, hd]

/-- Settles O10: no instruction has the word's OPC, so it decodes to none. -/
theorem reservedOpcodeEndsWithIllegalCommand : Obligations.ReservedOpcodeEndsWithIllegalCommand := by
  intro s hopc hb hw
  cases hd : decode s.snapC with
  | ok i => exact absurd (opcode_of_decode hd ▸ i.opcode_mem) hopc
  | error e =>
    rw [step_reserved hb hw hd]
    exact endsWith_raise .illegalCommand s

end Sys2Proof.Machine
end

section
/-! SUPPORT. The host's bus accesses and control flow (spec/10_state.md R16, spec/30_encoding.md R51, R63). -/

namespace Sys2Proof.Machine

/-! ### Bus accesses (R51) -/

theorem busReg_regOffset (c : Config) (r : Reg) : busReg c (c.base + regOffset r) 32 = .ok r := by
  obtain ⟨hblock, haligned⟩ := regOffset_aligned r
  simp [busReg, hblock, haligned, regAt_regOffset]

theorem busReg_misformed (c : Config) {o width : Nat} (ho : o < 0x100) (h : ¬ (width = 32 ∧ o % 4 = 0)) :
    busReg c (c.base + o) width = .error .registerAccessForm := by
  simp [busReg, ho, h]

/-- Settles O4: each clause of the map names a register at its own offset. -/
theorem busAccessesFollowTheRegisterMap : Obligations.BusAccessesFollowTheRegisterMap := by
  intro s v o ho
  refine ⟨fun _ r hmap => ?_, fun width h => ?_⟩
  · obtain rfl : o = regOffset r := by
      rcases hmap with ⟨rfl, rfl⟩ | ⟨rfl, rfl⟩ | ⟨rfl, rfl⟩ | ⟨rfl, rfl⟩ | ⟨rfl, rfl⟩ | ⟨rfl, rfl⟩ | ⟨n, rfl, rfl⟩ |
        ⟨n, rfl, rfl⟩ | ⟨rfl, rfl⟩ | ⟨rfl, rfl⟩ | ⟨n, rfl, rfl⟩ <;> rfl
    simp [hostOp, busReg_regOffset]
  · simp [hostOp, busReg_misformed s.config ho h]

/-! ### Control flow (R63) -/

/-- The place of a label is that of the first operation that is this label. -/
theorem labelPlace_first {prog : List HostOp} {l k : Nat} (hk : prog[k]? = some (.label l))
    (hfirst : ∀ g, g < k → prog[g]? ≠ some (.label l)) : labelPlace prog l = some k := by
  obtain ⟨hlt, hlabel⟩ := List.getElem?_eq_some_iff.1 hk
  refine List.findIdx?_eq_some_iff_getElem.2 ⟨hlt, by simp [hlabel], fun g hg hfound => hfirst g hg ?_⟩
  exact List.getElem?_eq_some_iff.2 ⟨hg.trans hlt, of_decide_eq_true hfound⟩

/-- After the last operation of its program the host does nothing more. -/
theorem step_programEnded {s : State} (hi : s.phase = .idle) (hend : s.hostProg[s.hostPc]? = none) :
    step s = .next s := by
  simp [step, turn, hostTurn, hi, hend]

/-- Settles O54: a taken branch is a jump, and `halt` puts the host past its last operation. -/
theorem hostControlFlowFollowsItsNotation : Obligations.HostControlFlowFollowsItsNotation := by
  intro s m l k hk hfirst
  have hjump : jump l s = .next { s with hostPc := k } := by simp [jump, labelPlace_first hk hfirst]
  refine ⟨fun h => ⟨(if_pos h).trans hjump, if_neg h⟩, fun h => ⟨if_neg (not_not_intro h), (if_pos h).trans hjump⟩,
    hjump, rfl, _, rfl, rfl, rfl, rfl, fun hi => ?_⟩
  exact step_programEnded hi (List.getElem?_eq_none (Nat.le_refl _))

end Sys2Proof.Machine
end

section
/-! SUPPORT. The registry commands (spec/40_registry.md R68 to R80): the outcome of each check and of each lookup, the
fields of FMT_INFO's words, the geometry functions and the fourcc codec. -/

namespace Sys2Proof.Machine

/-! ### Commands with one buffer (R38) -/

theorem busOkOver_read_iff (s : State) (a n : Nat) :
    busOkOver s.config ⟨⟨a, n⟩, emptyRange⟩ = true ↔ BusAccepts s .read a n := by
  rw [busOkOver_iff]
  exact and_iff_left (busAccepts_empty s .write 0)

theorem busOkOver_write_iff (s : State) (a n : Nat) :
    busOkOver s.config ⟨emptyRange, ⟨a, n⟩⟩ = true ↔ BusAccepts s .write a n := by
  rw [busOkOver_iff]
  exact and_iff_right (busAccepts_empty s .read 0)

/-- A refused read spoils nothing, since the command writes nothing. -/
theorem exec_read_refused {i : Instr} {s : State} {a n : Nat} (hp : planOf i s = .ok ⟨⟨a, n⟩, emptyRange⟩)
    (hb : ¬ BusAccepts s .read a n) : ∃ t, exec i s = .next t ∧ Failed s t 11 ∧ t.mem = s.mem :=
  ⟨_, exec_bus hp (Bool.eq_false_iff.2 fun h => hb ((busOkOver_read_iff s a n).1 h)), spoil_failed .busError _ s, rfl⟩

/-- A refused write leaves every byte outside the write range alone. -/
theorem exec_write_refused {i : Instr} {s : State} {a n : Nat} (hp : planOf i s = .ok ⟨emptyRange, ⟨a, n⟩⟩)
    (hb : ¬ BusAccepts s .write a n) : ∃ t, exec i s = .next t ∧ Failed s t 11 ∧ OnlyWrote s t a n :=
  ⟨_, exec_bus hp (Bool.eq_false_iff.2 fun h => hb ((busOkOver_write_iff s a n).1 h)), spoil_failed .busError _ s,
    spoil_read_outside ⟨a, n⟩ s⟩

/-- Checks that fail end the command before any memory access (R133). -/
theorem exec_check_failed {i : Instr} {s : State} {e : CmdError} (h : planOf i s = .error e) :
    EndsWith (exec i s) s (BitVec.ofNat 32 (errorCode e)) := by
  rw [exec_error h]
  exact endsWith_raise e s

/-! ### Lookups (R68 to R70) -/

/-- A result register shows every number that 32 bits hold. -/
theorem reported_toNat (s : State) (opc f p k : Nat) {v : Nat} (h : v < 2 ^ 32) :
    (BitVec.ofNat 32 (reported s opc f p k v)).toNat = v := by
  rw [reported_small h, BitVec.toNat_ofNat, Nat.mod_eq_of_lt h]

section
variable {s : State} {test : Descriptor → Prop} [DecidablePred test] (opc : Nat)

theorem findFormat_returns {f : Nat} {d : Descriptor} (h : s.config.catalog[f]? = some d) (hd : test d)
    (hg : ∀ g e, g < f → s.config.catalog[g]? = some e → ¬ test e) :
    ∃ r : Word, Returns (.next (findFormat opc (fun d => decide (test d)) s)) s r 0 0 0
      ∧ (f < 2 ^ 32 → r.toNat = f) := by
  rw [findFormat_first h (decide_eq_true hd) fun g e hlt he => decide_eq_false (hg g e hlt he)]
  exact ⟨_, returns_complete _ 0 0 0 s, reported_toNat s opc f 0 0⟩

theorem findFormat_endsWith (h : ∀ d ∈ s.config.catalog, ¬ test d) :
    EndsWith (.next (findFormat opc (fun d => decide (test d)) s)) s 1 := by
  rw [findFormat_none fun d hd => decide_eq_false (h d hd)]
  exact endsWith_raise .formatNotFound s

end

section
variable {s : State}

theorem planOf_findName_length (h : operand s 1 = 0 ∨ 32 < operand s 1) :
    planOf .findName s = .error .formatNotFound := by
  simp [planOf, checkFindName, h, Except.map]

theorem planOf_findName_wraps (h1 : 1 ≤ operand s 1) (h32 : operand s 1 ≤ 32)
    (hw : 2 ^ 32 < operand s 0 + operand s 1) : planOf .findName s = .error .invalidArgument := by
  have hlen : ¬ (operand s 1 = 0 ∨ 32 < operand s 1) := by omega
  simp [planOf, checkFindName, hlen, (wraps_iff _ _).2 hw, Except.map]

variable (h1 : 1 ≤ operand s 1) (h32 : operand s 1 ≤ 32) (hw : operand s 0 + operand s 1 ≤ 2 ^ 32)
include h1 h32 hw

theorem checkFindName_pass : checkFindName s = .ok (⟨⟨operand s 0, operand s 1⟩, emptyRange⟩, ()) := by
  have hlen : ¬ (operand s 1 = 0 ∨ 32 < operand s 1) := by omega
  simp [checkFindName, hlen, (wraps_false_iff _ _).2 hw]

theorem planOf_findName_pass : planOf .findName s = .ok ⟨⟨operand s 0, operand s 1⟩, emptyRange⟩ := by
  rw [planOf, checkFindName_pass h1 h32 hw]
  rfl

/-- Without a race the name searched for is the one in memory. -/
theorem exec_findName (hb : BusAccepts s .read (operand s 0) (operand s 1)) (hn : NoRace s) :
    exec .findName s = .next
      (findFormat 0x01 (fun d => decide (d.name = s.mem.bytes (operand s 0) (operand s 1))) s) := by
  rw [exec, execFindName, runCommand_ok (checkFindName_pass h1 h32 hw) ((busOkOver_read_iff ..).2 hb),
    racedResults_noRace hn]
  rfl

end

/-- Settles O18, check by check; a name that passes them is looked up. -/
theorem findNameReturnsTheFirstEqualName : Obligations.FindNameReturnsTheFirstEqualName := by
  rintro s _ _ rfl rfl
  refine ⟨fun hlen => exec_check_failed (planOf_findName_length hlen),
    fun h1 h32 hw => exec_check_failed (planOf_findName_wraps h1 h32 hw),
    fun h1 h32 hw => exec_read_refused (planOf_findName_pass h1 h32 hw), fun h1 h32 hw hb hn => ?_⟩
  rw [exec_findName h1 h32 hw hb hn]
  exact ⟨fun f d hf hd hg => findFormat_returns 0x01 hf hd hg, findFormat_endsWith 0x01⟩

/-- Settles O19: both commands look up the code A[0]. -/
theorem findByCodeReturnsTheFirstEqualCode : Obligations.FindByCodeReturnsTheFirstEqualCode := fun _ =>
  ⟨fun _ _ hf hd hg => findFormat_returns 0x02 hf hd hg, findFormat_endsWith 0x02,
    fun _ _ hf hd hg => findFormat_returns 0x03 hf hd hg, findFormat_endsWith 0x03⟩

/-- What R81 says of the codes of a catalog: none is 0, and each kind is unique. -/
theorem catalogOk_codes {c : List Descriptor} (h : catalogOk c = true) :
    (∀ d ∈ c, d.drm ≠ some 0 ∧ d.v4l2 ≠ some 0) ∧ allDistinct (c.filterMap (·.drm)) = true
      ∧ allDistinct (c.filterMap (·.v4l2)) = true := by
  simp only [catalogOk, Bool.and_eq_true, List.all_eq_true] at h
  obtain ⟨⟨⟨hentries, -⟩, hdrm⟩, hv4l2⟩ := h
  refine ⟨fun d hd => ?_, hdrm, hv4l2⟩
  have hok := hentries d hd
  simp only [descriptorOk, Bool.and_eq_true, decide_eq_true_eq] at hok
  obtain ⟨⟨⟨⟨-, hcodes⟩, -⟩, -⟩, -⟩ := hok
  exact hcodes

/-- Where codes of a kind are unique, no entry before the one with a code has that code. -/
theorem firstWithCode {cat : List Descriptor} {code : Descriptor → Option Word} {f : Nat} {d : Descriptor} {w : Word}
    (hu : allDistinct (cat.filterMap code) = true) (hf : cat[f]? = some d) (hd : code d = some w) :
    ∀ g e, g < f → cat[g]? = some e → code e ≠ some w := by
  intro g e hlt hg he
  obtain ⟨hfl, rfl⟩ := List.getElem?_eq_some_iff.1 hf
  obtain ⟨hgl, rfl⟩ := List.getElem?_eq_some_iff.1 hg
  have := allDistinct_filterMap code cat hu hgl hfl he hd
  omega

/-- Settles O20: where codes are unique, the entry that has a code is the first one with it. -/
theorem lookupsInvertAUniqueCatalog : Obligations.LookupsInvertAUniqueCatalog := by
  intro s f d hok hf
  obtain ⟨hzero, hdrm, hv4l2⟩ := catalogOk_codes hok
  obtain ⟨drmFound, drmMissing, v4l2Found, v4l2Missing⟩ := findByCodeReturnsTheFirstEqualCode s
  refine ⟨fun hd => drmFound f d hf hd (firstWithCode hdrm hf hd),
    fun hd => v4l2Found f d hf hd (firstWithCode hv4l2 hf hd), fun h0 => ⟨drmMissing fun e he => ?_,
    v4l2Missing fun e he => ?_⟩⟩
  · exact h0 ▸ (hzero e he).1
  · exact h0 ▸ (hzero e he).2

/-! ### FMT_INFO (R71) -/

theorem bit_eq_toNat (b : Bool) : bit b = b.toNat := by cases b <;> rfl

/-- The codes of R61 are the places of the colours in R61's order. -/
theorem colourCode_eq_idxOf (c : Colour) : colourCode c = [Colour.rgb, .yuv, .raw, .undefined].idxOf c := by
  cases c <;> rfl

theorem patternCode_eq_idxOf (p : Option Pattern) :
    patternCode p = (p.map [Pattern.rggb, .bggr, .grbg, .gbrg].idxOf).getD 15 := by
  rcases p with _ | p
  · rfl
  · cases p <;> rfl

theorem handlerCode_eq_idxOf (h : Handler) :
    handlerCode h = [Handler.none, .rgbCopy3, .rgbRev3, .rgbDrop4, .rgbDrop4Rev, .rgb2101010, .luma, .p422Yuyv,
      .p422Uyvy, .spCbcr, .raw].idxOf h := by
  cases h <;> rfl

theorem colourCode_lt (c : Colour) : colourCode c < 4 := by cases c <;> decide

theorem patternCode_lt (p : Option Pattern) : patternCode p < 16 := by
  rcases p with _ | p
  · decide
  · cases p <;> decide

theorem handlerCode_lt (h : Handler) : handlerCode h < 16 := by cases h <;> decide

theorem bit_lt (b : Bool) : bit b < 2 := by cases b <;> decide

section
variable (s : State) {d : Descriptor} (hx : d.pgx ≤ 255) (hy : d.pgy ≤ 255)
include hx hy

/-- The fields of the info word do not overlap. -/
theorem infoWord_eq_sum :
    infoWord s d = colourCode d.colour + bit d.packed * 2 ^ 2 + bit d.isMeta * 2 ^ 3 + planesField s d * 2 ^ 4
      + d.pgx * 2 ^ 8 + d.pgy * 2 ^ 16 + d.bits * 2 ^ 24 := by
  have hc := colourCode_lt d.colour
  have hp := bit_lt d.packed
  have hm := bit_lt d.isMeta
  have hn := planesField_lt s d
  rw [infoWord, or_shiftLeft (k := 2) _ hc, or_shiftLeft (k := 3) _ (by omega), or_shiftLeft (k := 4) _ (by omega),
    or_shiftLeft (k := 8) _ (by omega), or_shiftLeft (k := 16) _ (by omega), or_shiftLeft (k := 24) _ (by omega)]

/-- Each field read back is the value packed into it. -/
theorem infoWord_fields (hb : d.bits ≤ 255) :
    let r : Word := BitVec.ofNat 32 (infoWord s d)
    field r 1 0 = colourCode d.colour ∧ field r 2 2 = bit d.packed ∧ field r 3 3 = bit d.isMeta
      ∧ field r 7 4 = planesField s d ∧ field r 15 8 = d.pgx ∧ field r 23 16 = d.pgy ∧ field r 31 24 = d.bits := by
  have hc := colourCode_lt d.colour
  have hp := bit_lt d.packed
  have hm := bit_lt d.isMeta
  have hn := planesField_lt s d
  rw [infoWord_eq_sum s hx hy]
  simp only [field, BitVec.toNat_ofNat, Nat.shiftRight_eq_div_pow]
  omega

end

theorem extraWord_fields (d : Descriptor) :
    let r : Word := BitVec.ofNat 32 (extraWord d)
    field r 3 0 = patternCode d.pattern ∧ field r 7 4 = 0 ∧ field r 11 8 = handlerCode d.handler
      ∧ field r 31 12 = 0 := by
  have hp := patternCode_lt d.pattern
  have hh := handlerCode_lt d.handler
  rw [extraWord, or_shiftLeft (k := 8) _ (by omega)]
  simp only [field, BitVec.toNat_ofNat, Nat.shiftRight_eq_div_pow]
  omega

section
variable {s : State}

theorem exec_fmtInfo_none (h : s.config.catalog[operand s 0]? = none) :
    exec .fmtInfo s = .next (raiseError .formatNotFound s) := by
  simp [exec, execFmtInfo, format, h]

theorem exec_fmtInfo_fits {d : Descriptor} (h : s.config.catalog[operand s 0]? = some d) (hd : infoFits d = true) :
    exec .fmtInfo s =
      .next (complete (infoWord s d) (codeOrZero d.drm) (codeOrZero d.v4l2) (extraWord d) false s) := by
  simp [exec, execFmtInfo, format, h, hd]

theorem exec_fmtInfo_wide {d : Descriptor} (h : s.config.catalog[operand s 0]? = some d) (hd : ¬ infoFits d = true) :
    exec .fmtInfo s = .refused .catalogFieldTooWide := by
  simp [exec, execFmtInfo, format, h, hd]

end

/-- Settles O21: the fields read back from the words are those packed into them. -/
theorem fmtInfoReportsTheDescriptor : Obligations.FmtInfoReportsTheDescriptor := by
  intro s
  refine ⟨fun h => ?_, fun d h => ⟨fun hx hy hb => ?_, fun hwide => exec_fmtInfo_wide h fun hfits => ?_⟩⟩
  · rw [exec_fmtInfo_none h]
    exact endsWith_raise .formatNotFound s
  · obtain ⟨hcolour, hpacked, hmeta, hplanes, hpgx, hpgy, hbits⟩ := infoWord_fields s hx hy hb
    obtain ⟨hpattern, h74, hhandler, h3112⟩ := extraWord_fields d
    refine ⟨BitVec.ofNat 32 (infoWord s d), BitVec.ofNat 32 (extraWord d), ?_,
      hcolour.trans (colourCode_eq_idxOf _), hpacked.trans (bit_eq_toNat _), hmeta.trans (bit_eq_toNat _),
      fun h15 => hplanes.trans (planesField_small h15), hpgx, hpgy, hbits,
      hpattern.trans (patternCode_eq_idxOf _), h74, hhandler.trans (handlerCode_eq_idxOf _), h3112⟩
    rw [exec_fmtInfo_fits h ((infoFits_iff d).2 ⟨hx, hy, hb⟩), ← codeOrZero_word, ← codeOrZero_word]
    exact returns_complete ..
  · obtain ⟨hx, hy, hb⟩ := (infoFits_iff d).1 hfits
    omega

/-! ### PLANE_INFO, STRIDE, PLANE_SIZE, FRAME_SIZE (R72 to R76) -/

/-- The two checks shared by the commands that select a plane, in their order (R54). -/
theorem planeChecks {i : Instr} {s : State} {p : Nat}
    (hi : ∀ e, formatPlane s p = .error e → exec i s = .next (raiseError e s)) :
    (s.config.catalog[operand s 0]? = none → EndsWith (exec i s) s 1)
      ∧ ∀ d, s.config.catalog[operand s 0]? = some d → d.planes.length ≤ p → EndsWith (exec i s) s 7 := by
  constructor
  · intro h
    rw [hi _ (formatPlane_none h)]
    exact endsWith_raise .formatNotFound s
  · intro d h hp
    rw [hi _ (formatPlane_invalid h hp)]
    exact endsWith_raise .invalidPlane s

/-- A size that 32 bits hold is the result, a larger one an error (R74 to R76). -/
theorem completeSize_ends (z : Nat) (s : State) :
    (z < 2 ^ 32 → Returns (.next (completeSize z s)) s (BitVec.ofNat 32 z) 0 0 0)
      ∧ (2 ^ 32 ≤ z → EndsWith (.next (completeSize z s)) s 9) := by
  constructor
  · intro h
    rw [completeSize_small h]
    exact returns_complete z 0 0 0 s
  · intro h
    rw [completeSize_large h]
    exact endsWith_raise .invalidArgument s

section
variable {s : State} {p : Nat}

theorem exec_planeInfo_error {e : CmdError} (h : formatPlane s p = .error e) :
    exec (.planeInfo p) s = .next (raiseError e s) := by
  simp [exec, execPlaneInfo, h]

theorem exec_planeInfo_ok {d : Descriptor} (h : formatPlane s p = .ok d) :
    exec (.planeInfo p) s = .next (complete (reported s 0x05 (operand s 0) p 0 (plane d p).bpg)
      (reported s 0x05 (operand s 0) p 1 (plane d p).ppg) (reported s 0x05 (operand s 0) p 2 (plane d p).hs)
      (reported s 0x05 (operand s 0) p 3 (plane d p).vs) false s) := by
  simp [exec, execPlaneInfo, h]

theorem exec_stride_error {e : CmdError} (h : formatPlane s p = .error e) :
    exec (.stride p) s = .next (raiseError e s) := by
  simp [exec, execStride, h]

theorem exec_stride_ok {d : Descriptor} (h : formatPlane s p = .ok d) :
    exec (.stride p) s = if operand s 2 = 0 then .next (raiseError .invalidArgument s)
      else .next (completeSize (strideOf d (operand s 1) p (operand s 2)) s) := by
  simp [exec, execStride, h]

theorem exec_planeSize_error {e : CmdError} (h : formatPlane s p = .error e) :
    exec (.planeSize p) s = .next (raiseError e s) := by
  simp [exec, execPlaneSize, h]

theorem exec_planeSize_ok {d : Descriptor} (h : formatPlane s p = .ok d) :
    exec (.planeSize p) s = .next (completeSize (planeSizeOf d (operand s 1) (operand s 2) p) s) := by
  simp [exec, execPlaneSize, h]

theorem exec_frameSize_none (h : s.config.catalog[operand s 0]? = none) :
    exec .frameSize s = .next (raiseError .formatNotFound s) := by
  simp [exec, execFrameSize, format, h]

theorem exec_frameSize_ok {d : Descriptor} (h : s.config.catalog[operand s 0]? = some d) :
    exec .frameSize s = if operand s 3 = 0 then .next (raiseError .invalidArgument s)
      else .next (completeSize (frameSizeOf d (operand s 1) (operand s 2) (operand s 3)) s) := by
  simp [exec, execFrameSize, format, h]

end

/-- Settles O22: the results are the plane's fields as a result register shows them. -/
theorem planeInfoReportsThePlane : Obligations.PlaneInfoReportsThePlane := by
  intro s p
  obtain ⟨noFormat, noPlane⟩ := planeChecks (p := p) fun _ => exec_planeInfo_error
  refine ⟨noFormat, fun d h => ⟨noPlane d h, fun q hq => ?_⟩⟩
  obtain ⟨hd, rfl⟩ := formatPlane_ok h hq
  rw [exec_planeInfo_ok hd]
  exact ⟨_, _, _, _, returns_complete .., reported_toNat s _ _ _ _, reported_toNat s _ _ _ _,
    reported_toNat s _ _ _ _, reported_toNat s _ _ _ _⟩

/-- Settles O23: the stride is the row length rounded up to align. -/
theorem strideIsTheLeastAlignedRowLength : Obligations.StrideIsTheLeastAlignedRowLength := by
  intro s p
  obtain ⟨noFormat, noPlane⟩ := planeChecks (p := p) fun _ => exec_stride_error
  refine ⟨noFormat, fun d h => ⟨noPlane d h, fun q hq => ?_⟩⟩
  obtain ⟨hd, rfl⟩ := formatPlane_ok h hq
  rw [exec_stride_ok hd]
  constructor
  · intro h0
    rw [if_pos h0]
    exact endsWith_raise .invalidArgument s
  · intro h0
    rw [if_neg h0]
    obtain ⟨hdvd, hle, hlt⟩ := roundUp_spec (ceilDiv (operand s 1) (plane d p).ppg * (plane d p).bpg) h0
    exact ⟨_, hdvd, hle, hlt, completeSize_ends _ s⟩

/-- Settles O24: the size is that of `planeSizeOf`, limited to 32 bits. -/
theorem planeSizeIsStrideTimesRows : Obligations.PlaneSizeIsStrideTimesRows := by
  intro s p
  obtain ⟨noFormat, noPlane⟩ := planeChecks (p := p) fun _ => exec_planeSize_error
  refine ⟨noFormat, fun d h => ⟨noPlane d h, ?_⟩⟩
  rintro q _ hq rfl
  obtain ⟨hd, rfl⟩ := formatPlane_ok h hq
  rw [exec_planeSize_ok hd]
  exact completeSize_ends _ s

/-- The planes of a descriptor, counted or listed. -/
theorem map_range_plane {α : Type} (d : Descriptor) (g : PlaneInfo → α) :
    (List.range (nplanes d)).map (fun p => g (plane d p)) = d.planes.map g := by
  refine List.ext_getElem (by simp [nplanes]) fun p _ hp => ?_
  have hp' : p < d.planes.length := by simpa using hp
  simp [plane, hp']

/-- Settles O25: the sum over plane numbers is the sum over the planes. -/
theorem frameSizeIsTheSumOfThePlanes : Obligations.FrameSizeIsTheSumOfThePlanes := by
  intro s
  refine ⟨fun h => ?_, fun d z h => ?_⟩
  · rw [exec_frameSize_none h]
    exact endsWith_raise .formatNotFound s
  rw [exec_frameSize_ok h]
  constructor
  · intro h0
    rw [if_pos h0]
    exact endsWith_raise .invalidArgument s
  · rintro h0 rfl
    rw [if_neg h0, ← map_range_plane]
    exact completeSize_ends _ s

/-! ### The geometry functions (R77) -/

/-- No multiple of m that is at least a is below roundUp (R10). -/
theorem roundUp_le {a b m : Nat} (hm : m ≠ 0) (hb : m ∣ b) (ha : a ≤ b) : roundUp a m ≤ b := by
  obtain ⟨hdvd, -, hlt⟩ := roundUp_spec a hm
  by_contra hbelow
  have hgap := Nat.le_of_dvd (by omega) (Nat.dvd_sub hdvd hb)
  omega

theorem strideOf_eq_roundUp (d : Descriptor) (w p align : Nat) :
    strideOf d w p align = roundUp (naturalStride d w p) align := by
  rw [naturalStride_eq]
  rfl

theorem bpg_dvd_naturalStride (d : Descriptor) (w p : Nat) : (plane d p).bpg ∣ naturalStride d w p := by
  rw [naturalStride_eq]
  exact Nat.dvd_mul_left _ _

/-- Settles O26: a stride is the least multiple of align that holds the natural stride. -/
theorem geometryKeepsItsProperties : Obligations.GeometryKeepsItsProperties := by
  refine ⟨fun d w h align => rfl, fun d w p align k ha => ?_, _, rfl, by decide, by decide⟩
  have ha0 : align ≠ 0 := by omega
  obtain ⟨hdvd, hle, -⟩ := roundUp_spec (naturalStride d w p) ha0
  rw [strideOf_eq_roundUp, strideOf_eq_roundUp]
  refine ⟨Nat.mod_eq_zero_of_dvd hdvd, hle, fun hk => ?_, bpg_dvd_naturalStride d w p, fun hb => hb.trans hdvd⟩
  obtain ⟨hdvd', hle', -⟩ := roundUp_spec (naturalStride d w p) (Nat.mul_ne_zero (by omega) ha0 : k * align ≠ 0)
  exact roundUp_le ha0 ((Nat.dvd_mul_left align k).trans hdvd') hle'

/-! ### The fourcc codec (R78 to R80) -/

section
variable {s : State}

theorem planOf_fourccEnc_length (h : operand s 1 ≠ 4) : planOf .fourccEnc s = .error .invalidFourcc := by
  simp [planOf, checkFourccEnc, h, Except.map]

theorem planOf_fourccEnc_wraps (h4 : operand s 1 = 4) (hw : 2 ^ 32 < operand s 0 + 4) :
    planOf .fourccEnc s = .error .invalidArgument := by
  simp [planOf, checkFourccEnc, h4, (wraps_iff _ _).2 hw, Except.map]

theorem planOf_fourccDec_wraps (hw : 2 ^ 32 < operand s 1 + 4) : planOf .fourccDec s = .error .invalidArgument := by
  simp [planOf, checkFourccDec, (wraps_iff _ _).2 hw, Except.map]

theorem checkFourccEnc_pass (h4 : operand s 1 = 4) (hw : operand s 0 + 4 ≤ 2 ^ 32) :
    checkFourccEnc s = .ok (⟨⟨operand s 0, 4⟩, emptyRange⟩, ()) := by
  simp [checkFourccEnc, h4, (wraps_false_iff _ _).2 hw]

theorem checkFourccDec_pass (hw : operand s 1 + 4 ≤ 2 ^ 32) :
    checkFourccDec s = .ok (⟨emptyRange, ⟨operand s 1, 4⟩⟩, ()) := by
  simp [checkFourccDec, (wraps_false_iff _ _).2 hw]

theorem planOf_fourccEnc_pass (h4 : operand s 1 = 4) (hw : operand s 0 + 4 ≤ 2 ^ 32) :
    planOf .fourccEnc s = .ok ⟨⟨operand s 0, 4⟩, emptyRange⟩ := by
  rw [planOf, checkFourccEnc_pass h4 hw]
  rfl

theorem planOf_fourccDec_pass (hw : operand s 1 + 4 ≤ 2 ^ 32) :
    planOf .fourccDec s = .ok ⟨emptyRange, ⟨operand s 1, 4⟩⟩ := by
  rw [planOf, checkFourccDec_pass hw]
  rfl

/-- Without a race FOURCC_ENC returns the four bytes at A[0] as one little-endian word. -/
theorem exec_fourccEnc (h4 : operand s 1 = 4) (hw : operand s 0 + 4 ≤ 2 ^ 32)
    (hb : BusAccepts s .read (operand s 0) 4) (hn : NoRace s) :
    exec .fourccEnc s = .next (complete (s.mem.readLE (operand s 0) 4) 0 0 0 false s) := by
  rw [exec, execFourccEnc, runCommand_ok (checkFourccEnc_pass h4 hw) ((busOkOver_read_iff ..).2 hb),
    racedResults_noRace hn]
  rfl

theorem exec_fourccDec (hw : operand s 1 + 4 ≤ 2 ^ 32) (hb : BusAccepts s .write (operand s 1) 4) :
    exec .fourccDec s =
      .next (complete 4 0 0 0 false (writeOut ⟨operand s 1, 4⟩ (byteAt (operand s 0)) s)) := by
  rw [exec, execFourccDec, runCommand_ok (checkFourccDec_pass hw) ((busOkOver_write_iff ..).2 hb)]

end

/-- Settles O27: four bytes read little-endian are R78's packing. -/
theorem fourccEncPacksFourBytes : Obligations.FourccEncPacksFourBytes := by
  rintro s _ rfl
  refine ⟨fun hlen => exec_check_failed (planOf_fourccEnc_length hlen),
    fun h4 hw => exec_check_failed (planOf_fourccEnc_wraps h4 hw),
    fun h4 hw => exec_read_refused (planOf_fourccEnc_pass h4 hw), fun h4 hw hb hn => ?_⟩
  rw [exec_fourccEnc h4 hw hb hn, ← Memory.readLE_four]
  exact returns_complete _ 0 0 0 s

/-- Byte k of the operand A[0] is those bits of the snapshot register. -/
theorem byteAt_operand_zero (s : State) (k : Nat) : byteAt (operand s 0) k = s.snapA[0].extractLsb' (8 * k) 8 := rfl

/-- Settles O28: the bytes written are `byteAt` of the code. -/
theorem fourccDecWritesFourBytes : Obligations.FourccDecWritesFourBytes := by
  rintro s _ rfl hwf
  refine ⟨fun hw => exec_check_failed (planOf_fourccDec_wraps hw),
    fun hw => exec_write_refused (planOf_fourccDec_pass hw), fun hw hb hn => ⟨_, exec_fourccDec hw hb,
    writeOut_succeeded .., writeOut_read_outside ⟨operand s 1, 4⟩ _ s, fun k hk => ?_⟩⟩
  rw [← byteAt_operand_zero]
  exact writeOut_read_inside ⟨operand s 1, 4⟩ _ hwf hn hk

/-- What stands above the first n bytes of a value leaves those bytes alone. -/
theorem byteAt_add_shiftLeft (x y : Nat) {n k : Nat} (hk : k < n) : byteAt (x + y <<< (8 * n)) k = byteAt x k := by
  obtain ⟨j, rfl⟩ := Nat.exists_eq_add_of_lt hk
  have hshift : y <<< (8 * (k + j + 1)) = y * 2 ^ (8 * j) * 256 * 2 ^ (8 * k) := by
    rw [Nat.shiftLeft_eq, show 8 * (k + j + 1) = 8 * j + 8 + 8 * k by omega, Nat.pow_add, Nat.pow_add]
    ring
  apply BitVec.eq_of_toNat_eq
  rw [byteAt_toNat, byteAt_toNat, hshift, Nat.add_mul_div_right _ _ (Nat.two_pow_pos _), Nat.add_mul_mod_self_right]

/-- Byte k of a little-endian value is the byte it was read from (R34). -/
theorem byteAt_readLE (m : Memory) (a : Nat) {n k : Nat} (hk : k < n) : byteAt (m.readLE a n) k = m.read (a + k) := by
  induction n with
  | zero => omega
  | succ n ih =>
    rw [Memory.readLE]
    rcases Nat.lt_succ_iff_lt_or_eq.1 hk with hlt | rfl
    · rw [byteAt_add_shiftLeft _ _ hlt, ih hlt]
    · apply BitVec.eq_of_toNat_eq
      rw [byteAt_toNat, Nat.shiftLeft_eq, Nat.add_mul_div_right _ _ (Nat.two_pow_pos _),
        Nat.div_eq_of_lt (Memory.readLE_lt m a k), Nat.zero_add, Nat.mod_eq_of_lt (m.read (a + k)).isLt]

/-- Settles O29: a little-endian read undoes `byteAt`, and `byteAt` a little-endian read. -/
theorem fourccCodecRoundTrips : Obligations.FourccCodecRoundTrips := by
  constructor
  · intro s t u hwf hn hw hb ht hmem hnu h0 h1 hbu
    rw [exec_fourccDec hw hb] at ht
    cases ht
    have hbytes : ∀ k, k < 4 → u.mem.read (operand u 0 + k) = byteAt (operand s 0) k := fun k hk => by
      rw [hmem, h0]
      exact writeOut_read_inside ⟨operand s 1, 4⟩ _ hwf hn hk
    refine ⟨_, exec_fourccEnc h1 (h0 ▸ hw) hbu hnu, rfl, ?_⟩
    change BitVec.ofNat 32 (u.mem.readLE (operand u 0) 4) = _
    rw [Memory.readLE_of_bytes 4 hbytes]
    exact BitVec.eq_of_toNat_eq (by simp [operand, Nat.mod_eq_of_lt s.snapA[0].isLt])
  · intro s t u hn h4 hw hb ht hwf hnu hcode hwu hbu
    rw [exec_fourccEnc h4 hw hb hn] at ht
    cases ht
    have hop : operand u 0 = s.mem.readLE (operand s 0) 4 := by
      change u.snapA[0].toNat = _
      rw [hcode]
      exact Nat.mod_eq_of_lt (Memory.readLE_lt _ _ 4)
    refine ⟨_, exec_fourccDec hwu hbu, List.map_congr_left fun k hk => ?_⟩
    have hk4 := List.mem_range.1 hk
    rw [complete_mem, writeOut_read_inside ⟨operand u 1, 4⟩ _ hwf hnu hk4, hop, byteAt_readLE _ _ hk4]

end Sys2Proof.Machine
end

section
/-! SUPPORT. The divisors of the demosaic engine (spec/43_demosaic.md R105 to R108): a divisor counts sites of its
channel around the pixel, and where it can be zero. -/

namespace Sys2Proof.Machine

/-- Whichever the method, a divisor is zero exactly where no in-grid pixel around (x, y) is a site of the channel (R105,
R106). -/
theorem demosaicDen_eq_zero_iff (m : Method) (p : Pattern) {w h : Nat} (c : Channel) {x y : Nat} (hx : x < w)
    (hy : y < h) : demosaicDen m p w h c x y = 0 ↔ ∀ q ∈ window w h x y, channelAt p q.1 q.2 ≠ c := by
  cases m with
  | window3x3 =>
    rw [demosaicDen, List.sum_eq_zero_iff, List.forall_mem_map]
    simp [coverage]
  | bilinear =>
    rw [demosaicDen, List.length_eq_zero_iff, List.eq_nil_iff_forall_not_mem, bilinearCells]
    by_cases hc : channelAt p x y = c
    · rw [if_pos hc]
      exact ⟨fun hnone => absurd (List.mem_singleton_self _) (hnone (x, y)),
        fun hnone => absurd hc (hnone (x, y) ((mem_window_iff ..).2 (by omega)))⟩
    · rw [if_neg hc]
      simp only [window, mem_neighbours_iff, mem_bilinearOffsets_iff hc]
      exact ⟨fun hnone q hq hqc => hnone q ⟨hq.1, hq.2.1, hq.2.2, hqc⟩,
        fun hnone q hq => hnone q ⟨hq.1, hq.2.1, hq.2.2.1⟩ hq.2.2.2⟩

/-- Pixels that lie in the cell of a channel's site hold that channel (R103, R104). -/
theorem channelAt_cell {p : Pattern} {c : Channel} {i j : Nat} (hi : i % 2 = (cell p (siteOf c)).1)
    (hj : j % 2 = (cell p (siteOf c)).2) : channelAt p i j = c := by
  rw [channelAt_parity, hi, hj]
  cases p <;> cases c <;> rfl

theorem cell_lt_two (p : Pattern) (t : Site) : (cell p t).1 < 2 ∧ (cell p t).2 < 2 := by
  cases p <;> cases t <;> decide

/-- Of two or more columns (or rows), one of each parity is at most one away. -/
theorem exists_near_of_parity {n x a : Nat} (hn : 2 ≤ n) (hx : x < n) (ha : a < 2) :
    ∃ i, i < n ∧ i ≤ x + 1 ∧ x ≤ i + 1 ∧ i % 2 = a := by
  rcases eq_or_ne (x % 2) a with h | h
  · exact ⟨x, by omega⟩
  · rcases Nat.lt_or_ge (x + 1) n with h1 | h1
    · exact ⟨x + 1, by omega⟩
    · exact ⟨x - 1, by omega⟩

/-- In a grid of at least two rows and two columns every channel has a site around every pixel (R108). -/
theorem demosaicDen_ne_zero (m : Method) (p : Pattern) {w h : Nat} (c : Channel) {x y : Nat} (hw : 2 ≤ w) (hh : 2 ≤ h)
    (hx : x < w) (hy : y < h) : demosaicDen m p w h c x y ≠ 0 := by
  obtain ⟨hcol, hrow⟩ := cell_lt_two p (siteOf c)
  obtain ⟨i, hi, hi1, hi2, hic⟩ := exists_near_of_parity hw hx hcol
  obtain ⟨j, hj, hj1, hj2, hjc⟩ := exists_near_of_parity hh hy hrow
  rw [Ne, demosaicDen_eq_zero_iff m p c hx hy]
  exact fun hnone => hnone (i, j) ((mem_window_iff ..).2 ⟨hi, hj, hi1, hi2, hj1, hj2⟩) (channelAt_cell hic hjc)

/-- Row 0 and column 0 of a pattern each lack a channel (R103). -/
theorem exists_channel_absent (p : Pattern) :
    (∃ c, ∀ i, channelAt p i 0 ≠ c) ∧ ∃ c, ∀ j, channelAt p 0 j ≠ c := by
  have row : ∀ c, (∀ u < 2, channelAt p u 0 ≠ c) → ∀ i, channelAt p i 0 ≠ c := fun c hc i => by
    rw [channelAt_parity]
    exact hc _ (Nat.mod_lt _ two_pos)
  have col : ∀ c, (∀ v < 2, channelAt p 0 v ≠ c) → ∀ j, channelAt p 0 j ≠ c := fun c hc j => by
    rw [channelAt_parity]
    exact hc _ (Nat.mod_lt _ two_pos)
  cases p with
  | rggb => exact ⟨⟨.b, row _ (by decide)⟩, .b, col _ (by decide)⟩
  | bggr => exact ⟨⟨.r, row _ (by decide)⟩, .r, col _ (by decide)⟩
  | grbg => exact ⟨⟨.b, row _ (by decide)⟩, .r, col _ (by decide)⟩
  | gbrg => exact ⟨⟨.r, row _ (by decide)⟩, .b, col _ (by decide)⟩

/-- R107 in terms of pixels. -/
theorem demosaicClamped_iff_exists (m : Method) (p : Pattern) (w h : Nat) :
    demosaicClamped m p w h = true ↔ ∃ x y c, x < w ∧ y < h ∧ demosaicDen m p w h c x y = 0 := by
  simp only [demosaicClamped, List.any_eq_true, List.mem_range, clamps, decide_eq_true_eq]
  constructor
  · rintro ⟨k, hk, c, -, h0⟩
    have hw : 0 < w := Nat.pos_of_mul_pos_right (Nat.zero_lt_of_lt hk)
    exact ⟨k % w, k / w, c, Nat.mod_lt _ hw, div_lt_rows hk, h0⟩
  · rintro ⟨x, y, c, hx, hy, h0⟩
    obtain ⟨hmod, hdiv⟩ := rowMajor (y := y) hx
    refine ⟨y * w + x, rowMajor_lt hx hy, c, by cases c <;> decide, ?_⟩
    rw [hmod, hdiv, h0]

/-- R108. -/
theorem demosaicClamped_iff (m : Method) (p : Pattern) (w h : Nat) :
    demosaicClamped m p w h = true ↔ 1 ≤ w ∧ 1 ≤ h ∧ (w = 1 ∨ h = 1) := by
  rw [demosaicClamped_iff_exists]
  constructor
  · rintro ⟨x, y, c, hx, hy, h0⟩
    by_contra hbig
    exact demosaicDen_ne_zero m p c (by omega) (by omega) hx hy h0
  · rintro ⟨hw, hh, hline⟩
    have hzero : ∀ c, (∀ q ∈ window w h 0 0, channelAt p q.1 q.2 ≠ c) →
        ∃ x y c, x < w ∧ y < h ∧ demosaicDen m p w h c x y = 0 := fun c hc =>
      ⟨0, 0, c, hw, hh, (demosaicDen_eq_zero_iff m p c hw hh).2 hc⟩
    obtain ⟨⟨cr, hrow⟩, cc, hcol⟩ := exists_channel_absent p
    rcases hline with rfl | rfl
    · refine hzero cc fun q hq => ?_
      rw [Nat.lt_one_iff.1 (window_inGrid hq).1]
      exact hcol q.2
    · refine hzero cr fun q hq => ?_
      rw [Nat.lt_one_iff.1 (window_inGrid hq).2]
      exact hrow q.1

end Sys2Proof.Machine
end

section
/-! SUPPORT. CONVERT on a format, frame and buffers that pass its checks (spec/41_extract.md R82 to R95,
spec/45_convert.md R121 to R126): the pipeline each handler takes, and the sample each pipeline gives in terms of the
bytes of memory. -/

namespace Sys2Proof.Machine

/-! ### Every pipeline -/

/-- What CONVERT leaves behind when its checks pass, whatever the pipeline (R126, R131). -/
theorem ConvertReady.converts {rng : RngField} {enc : EncField} {dmm : DmmField} {s : State} {d : Descriptor}
    {st w h : Nat} {pipe : Pipeline} (hready : ConvertReady s d st) (hw : w = operand s 5) (hh : h = operand s 6)
    (hp : pipelineOf d rng enc dmm = .ok pipe) :
    ∃ t, Machine.exec (.convert rng enc dmm) s = .next t
      ∧ Succeeded s t (BitVec.ofNat 32 (3 * w * h)) 0 0 0 (convertClamped (convertSource d s) pipe)
      ∧ OnlyWrote s t (operand s 2) (3 * w * h)
      ∧ ∀ x y j, x < w → y < h → j < 3 → t.mem.read (operand s 2 + 3 * (y * w + x) + j)
          = BitVec.ofNat 8 (convertSample s (convertSource d s) pipe (channelOf j) x y) := by
  subst hw hh
  obtain ⟨hsucc, honly, hbytes⟩ := hready.buffers.written (convertByte s (convertSource d s) pipe)
    (convertClamped (convertSource d s) pipe) rfl
  refine ⟨_, hready.exec hp, hsucc, honly, fun x y j hx hy hj => ?_⟩
  rw [Nat.add_assoc, hbytes _ (pixelByte_lt hx hy hj)]
  exact convertByte_pixel rfl hx hj

/-- The byte positions of a pixel with their channels (R2). -/
theorem channelOf_mem {j : Nat} {c : Channel} (h : (j, c) ∈ [(0, Channel.b), (1, .g), (2, .r)]) :
    j < 3 ∧ channelOf j = c := by
  simp only [List.mem_cons, Prod.mk.injEq, List.not_mem_nil, or_false] at h
  rcases h with ⟨rfl, rfl⟩ | ⟨rfl, rfl⟩ | ⟨rfl, rfl⟩ <;> exact ⟨by decide, rfl⟩

theorem ofNat_toNat_byte (b : Byte) : BitVec.ofNat 8 b.toNat = b := by
  rw [BitVec.ofNat_toNat, BitVec.setWidth_eq]

theorem rngValue_eq {rng : RngField} {r : VideoRange}
    (h : rng = .limited ∧ r = .limited ∨ rng = .full ∧ r = .full) : rngValue rng = some r := by
  rcases h with ⟨rfl, rfl⟩ | ⟨rfl, rfl⟩ <;> rfl

theorem encValue_eq {enc : EncField} {e : Standard}
    (h : enc = .bt601 ∧ e = .bt601 ∨ enc = .bt709 ∧ e = .bt709 ∨ enc = .bt2020 ∧ e = .bt2020) :
    encValue enc = some e := by
  rcases h with ⟨rfl, rfl⟩ | ⟨rfl, rfl⟩ | ⟨rfl, rfl⟩ <;> rfl

theorem dmmValue_eq {dmm : DmmField} {m : Method}
    (h : dmm = .window3x3 ∧ m = .window3x3 ∨ dmm = .bilinear ∧ m = .bilinear) : dmmValue dmm = some m := by
  rcases h with ⟨rfl, rfl⟩ | ⟨rfl, rfl⟩ <;> rfl

/-! ### RGB (R85 to R89, R123) -/

/-- The handler of a layout (R61). -/
def RgbLayout.handler : RgbLayout → Handler
  | .copy3 => .rgbCopy3
  | .rev3 => .rgbRev3
  | .drop4 => .rgbDrop4
  | .drop4Rev => .rgbDrop4Rev
  | .x2101010 => .rgb2101010

/-- The bytes a layout has for each pixel (R85 to R89). -/
def RgbLayout.bytes : RgbLayout → Nat
  | .copy3 => 3
  | .rev3 => 3
  | .drop4 => 4
  | .drop4Rev => 4
  | .x2101010 => 4

theorem RgbLayout.eq_of_handler {l k : RgbLayout} {g : Handler} (hl : g = l.handler) (hk : g = k.handler) : l = k := by
  subst hl
  cases l <;> cases k <;> simp_all [RgbLayout.handler]

theorem pipelineOf_rgb {d : Descriptor} {l : RgbLayout} (rng : RngField) (enc : EncField) (dmm : DmmField)
    (hc : d.colour = .rgb) (hl : d.handler = l.handler) : pipelineOf d rng enc dmm = .ok (.rgb l) := by
  cases l <;> simp [pipelineOf, hc, hl, RgbLayout.handler, family]

/-- A pixel reads only its row's bytes. -/
theorem rgbSample_congr (l : RgbLayout) {b b' : Nat → Nat} {x w : Nat} (c : Channel) (hx : x < w)
    (h : ∀ i, i < l.bytes * w → b i = b' i) : rgbSample l b x c = rgbSample l b' x c := by
  cases l <;> simp only [RgbLayout.bytes] at h
  case x2101010 =>
    have hword : rgbWord b x = rgbWord b' x := by
      rw [rgbWord, rgbWord, h _ (by omega), h _ (by omega), h _ (by omega), h _ (by omega)]
    cases c <;> simp only [rgbSample, hword]
  all_goals cases c <;> exact h _ (by omega)

section
variable (b : Nat → Nat) (x : Nat) {j : Nat} (hj : j < 3)
include hj

theorem rgbSample_copy3 : rgbSample .copy3 b x (channelOf j) = b (3 * x + j) := by interval_cases j <;> rfl

theorem rgbSample_rev3 : rgbSample .rev3 b x (channelOf j) = b (3 * x + (2 - j)) := by interval_cases j <;> rfl

theorem rgbSample_drop4 : rgbSample .drop4 b x (channelOf j) = b (4 * x + j) := by interval_cases j <;> rfl

theorem rgbSample_drop4Rev : rgbSample .drop4Rev b x (channelOf j) = b (4 * x + (2 - j)) := by
  interval_cases j <;> rfl

theorem rgbSample_x2101010 :
    rgbSample .x2101010 b x (channelOf j) = rgbWord b x / 2 ^ (20 - 10 * j) % 1024 / 4 := by
  interval_cases j <;> simp [rgbSample, channelOf, tenBitField, Nat.shiftRight_eq_div_pow]

end

theorem rgbWord_mem (m : Memory) (a x : Nat) :
    rgbWord (fun i => (m.read (a + i)).toNat) x = m.readLE (a + 4 * x) 4 := by
  rw [Memory.readLE_four]
  rfl

/-- CONVERT of an RGB format gives each pixel's channels by its layout. -/
theorem ConvertReady.convertsRgb {s : State} {d : Descriptor} {l : RgbLayout} {st w h : Nat} (rng : RngField)
    (enc : EncField) (dmm : DmmField) (hready : ConvertReady s d st) (hw : w = operand s 5) (hh : h = operand s 6)
    (hc : d.colour = .rgb) (hvs : (plane d 0).vs = 1) (hl : d.handler = l.handler)
    (hrow : l.bytes * w ≤ naturalStride d w 0) :
    ∃ t, Machine.exec (.convert rng enc dmm) s = .next t ∧ Succeeded s t (BitVec.ofNat 32 (3 * w * h)) 0 0 0 false
      ∧ OnlyWrote s t (operand s 2) (3 * w * h)
      ∧ ∀ x y j, x < w → y < h → j < 3 → t.mem.read (operand s 2 + 3 * (y * w + x) + j)
          = BitVec.ofNat 8 (rgbSample l (fun i => (s.mem.read (operand s 0 + y * st + i)).toNat) x (channelOf j)) := by
  obtain ⟨t, hexec, hsucc, honly, hbytes⟩ := hready.converts hw hh (pipelineOf_rgb rng enc dmm hc hl)
  refine ⟨t, hexec, hsucc, honly, fun x y j hx hy hj => ?_⟩
  rw [hbytes x y j hx hy hj, convertSample]
  congr 1
  refine rgbSample_congr l _ hx fun i hi => ?_
  subst hw hh
  rw [hready.rowByte_zero hvs (hi.trans_le hrow) hy]

/-- Settles O47: the pixel rule of each layout, at the bytes of its row. -/
theorem convertRgbMovesTheComponents : Obligations.ConvertRgbMovesTheComponents := by
  intro s rng enc dmm d n w h st hw hh hready hc hvs hhandler hrow
  obtain ⟨l, hl, rfl⟩ : ∃ l : RgbLayout, d.handler = l.handler ∧ n = l.bytes := by
    rcases hhandler with ⟨hd, rfl⟩ | ⟨hd, rfl⟩ | ⟨hd, rfl⟩ | ⟨hd, rfl⟩ | ⟨hd, rfl⟩
    · exact ⟨.copy3, hd, rfl⟩
    · exact ⟨.rev3, hd, rfl⟩
    · exact ⟨.drop4, hd, rfl⟩
    · exact ⟨.drop4Rev, hd, rfl⟩
    · exact ⟨.x2101010, hd, rfl⟩
  obtain ⟨t, hexec, hsucc, honly, hbytes⟩ := hready.convertsRgb rng enc dmm hw hh hc hvs hl hrow
  refine ⟨t, hexec, hsucc, honly, ?_⟩
  rintro x y j _ hx hy hj rfl
  rw [hbytes x y j hx hy hj]
  refine ⟨fun hd => ?_, fun hd => ?_, fun hd => ?_, fun hd => ?_, fun hd => ?_⟩
  · rw [RgbLayout.eq_of_handler (k := .copy3) hl hd, rgbSample_copy3 _ _ hj, ofNat_toNat_byte, ← Nat.add_assoc]
  · rw [RgbLayout.eq_of_handler (k := .rev3) hl hd, rgbSample_rev3 _ _ hj, ofNat_toNat_byte, ← Nat.add_assoc]
  · rw [RgbLayout.eq_of_handler (k := .drop4) hl hd, rgbSample_drop4 _ _ hj, ofNat_toNat_byte, ← Nat.add_assoc]
  · rw [RgbLayout.eq_of_handler (k := .drop4Rev) hl hd, rgbSample_drop4Rev _ _ hj, ofNat_toNat_byte, ← Nat.add_assoc]
  · rw [RgbLayout.eq_of_handler (k := .x2101010) hl hd, rgbSample_x2101010 _ _ hj, rgbWord_mem, BitVec.toNat_ofNat,
      Nat.mod_eq_of_lt (by omega)]

/-! ### YUV (R90 to R93, R124) -/

/-- The handler of a layout (R61). -/
def YuvLayout.handler : YuvLayout → Handler
  | .yuyv => .p422Yuyv
  | .uyvy => .p422Uyvy
  | .semiPlanar => .spCbcr

theorem pipelineOf_luma {d : Descriptor} {rng : RngField} {r : VideoRange} (enc : EncField) (dmm : DmmField)
    (hc : d.colour = .yuv) (hd : d.handler = .luma) (hr : rngValue rng = some r) :
    pipelineOf d rng enc dmm = .ok (.luma r) := by
  simp [pipelineOf, hc, hd, family, hr]

theorem pipelineOf_yuv {d : Descriptor} {l : YuvLayout} {rng : RngField} {enc : EncField} {r : VideoRange}
    {e : Standard} (dmm : DmmField) (hc : d.colour = .yuv) (hl : d.handler = l.handler) (hr : rngValue rng = some r)
    (he : encValue enc = some e) : pipelineOf d rng enc dmm = .ok (.yuv l r e) := by
  cases l <;> simp [pipelineOf, hc, hl, YuvLayout.handler, family, yuvPipeline, hr, he]

theorem clipFloor_lt (n : Int) (d : Nat) : clipFloor n d < 256 := by
  unfold clipFloor
  split
  · omega
  · split
    · omega
    · have : n / d ≤ 255 := by
        rcases Nat.eq_zero_or_pos d with rfl | hd
        · simp
        · exact Int.ediv_le_of_le_mul (by omega) (by omega)
      omega

theorem lumaOnly_lt (r : VideoRange) (y : Byte) : lumaOnly r y < 256 := by
  cases r
  · exact clipFloor_lt _ _
  · exact y.isLt

section
variable {s : State} {d : Descriptor} {st : Nat} (hready : ConvertReady s d st) (hvs : (plane d 0).vs = 1)
include hready hvs

/-- Y, Cb and Cr of the packed 4:2:2 layouts, with o the place of Y in its pair of bytes (R91, R92). -/
theorem ConvertReady.yuvSample_packed {l : YuvLayout} {o x y g : Nat}
    (hl : l = .yuyv ∧ o = 0 ∨ l = .uyvy ∧ o = 1) (hrow : (operand s 5 + 1) / 2 * 4 ≤ naturalStride d (operand s 5) 0)
    (hx : x < operand s 5) (hy : y < operand s 6) (hg : g = operand s 0 + y * st + 4 * (x / 2)) :
    yuvSample l s (convertSource d s) x y
      = (s.mem.read (g + o + 2 * (x % 2)), s.mem.read (g + 1 - o), s.mem.read (g + 3 - o)) := by
  have hbyte : ∀ k, k < 4 → rowByte s (convertSource d s) 0 (4 * (x / 2) + k) y = s.mem.read (g + k) := fun k hk => by
    rw [hready.rowByte_zero hvs (by omega) hy, hg, Nat.add_assoc _ (4 * (x / 2))]
  rcases hl with ⟨rfl, rfl⟩ | ⟨rfl, rfl⟩
  · exact congrArg₂ Prod.mk (hbyte (2 * (x % 2)) (by omega))
      (congrArg₂ Prod.mk (hbyte 1 (by omega)) (hbyte 3 (by omega)))
  · have hY := hbyte (1 + 2 * (x % 2)) (by omega)
    rw [← Nat.add_assoc, ← Nat.add_assoc] at hY
    exact congrArg₂ Prod.mk hY (congrArg₂ Prod.mk (hbyte 0 (by omega)) (hbyte 2 (by omega)))

/-- A byte of a row of plane 1, which stands behind plane 0 (R82, R83). -/
theorem ConvertReady.rowByte_one (hn : 2 ≤ nplanes d) {i r : Nat} (hi : i < naturalStride d (operand s 5) 1)
    (hr : r < operand s 6 / (plane d 1).vs) :
    rowByte s (convertSource d s) 1 i r
      = s.mem.read (operand s 0 + st * operand s 6 + r * naturalStride d (operand s 5) 1 + i) := by
  have hbpl : operand s 7 = 0 := by
    have := hready.bpl
    omega
  have hbase : planeBase (convertSource d s) 1 = operand s 0 + st * operand s 6 := by
    rw [planeBase, hready.planeStride_zero, planeRows, convertSource_desc, convertSource_h, hvs, Nat.div_one]
    rfl
  have hstride : planeStride (convertSource d s) 1 = naturalStride d (operand s 5) 1 := if_pos hbpl
  have hholds : rowHolds (convertSource d s) 1 i r = true := decide_eq_true ⟨hn, hi, hr⟩
  rw [rowByte, if_pos hholds, hbase, hstride]

/-- Y, Cb and Cr of the semi-planar layout (R93). -/
theorem ConvertReady.yuvSample_semiPlanar (hn : 2 ≤ nplanes d) (hrow : operand s 5 ≤ naturalStride d (operand s 5) 0)
    {x y q : Nat} (hx : x < operand s 5) (hy : y < operand s 6)
    (hpair : 2 * (x / (plane d 1).hs) + 1 < naturalStride d (operand s 5) 1)
    (hq : q = operand s 0 + st * operand s 6 + y / (plane d 1).vs * naturalStride d (operand s 5) 1
      + 2 * (x / (plane d 1).hs)) :
    yuvSample .semiPlanar s (convertSource d s) x y
      = (s.mem.read (operand s 0 + y * st + x), s.mem.read q, s.mem.read (q + 1)) := by
  have hchroma : y / (plane d 1).vs < operand s 6 / (plane d 1).vs :=
    Nat.div_lt_div_of_lt_of_dvd (Nat.dvd_of_mod_eq_zero (hready.heights _ (plane_mem hn))) hy
  rw [yuvSample, convertSource_desc, hready.rowByte_zero hvs (hx.trans_le hrow) hy,
    hready.rowByte_one hvs hn (by omega) hchroma, hready.rowByte_one hvs hn hpair hchroma, hq, Nat.add_assoc _ _ 1]

end

/-- CONVERT of a YUV format with chroma transforms each pixel's triple. -/
theorem ConvertReady.convertsYuv {s : State} {d : Descriptor} {l : YuvLayout} {rng : RngField} {enc : EncField}
    {r : VideoRange} {e : Standard} {st w h : Nat} (dmm : DmmField) (hready : ConvertReady s d st)
    (hw : w = operand s 5) (hh : h = operand s 6) (hc : d.colour = .yuv) (hl : d.handler = l.handler)
    (hr : rngValue rng = some r) (he : encValue enc = some e) :
    ∃ t, Machine.exec (.convert rng enc dmm) s = .next t ∧ Succeeded s t (BitVec.ofNat 32 (3 * w * h)) 0 0 0 false
      ∧ OnlyWrote s t (operand s 2) (3 * w * h)
      ∧ ∀ x y, x < w → y < h → ∀ Y Cb Cr, yuvSample l s (convertSource d s) x y = (Y, Cb, Cr) →
          ∀ j c, (j, c) ∈ [(0, Channel.b), (1, .g), (2, .r)] →
            t.mem.read (operand s 2 + 3 * (y * w + x) + j)
              = BitVec.ofNat 8 (cscChannel s.config e r c Y Cb Cr) := by
  obtain ⟨t, hexec, hsucc, honly, hbytes⟩ := hready.converts hw hh (pipelineOf_yuv dmm hc hl hr he)
  refine ⟨t, hexec, hsucc, honly, fun x y hx hy Y Cb Cr htriple j c hjc => ?_⟩
  obtain ⟨hj, rfl⟩ := channelOf_mem hjc
  rw [hbytes x y j hx hy hj, convertSample, htriple]

/-- Settles O48: luma alone, the two packed layouts together, and the semi-planar one. -/
theorem convertYuvExtractsAndTransforms : Obligations.ConvertYuvExtractsAndTransforms := by
  intro s rng enc dmm r d w h st hw hh hready hc hvs hrng
  have hr := rngValue_eq hrng
  refine ⟨fun hd hrow => ?_, fun e henc => ⟨fun o hpacked hrow => ?_, ?_⟩⟩
  · obtain ⟨t, hexec, hsucc, honly, hbytes⟩ := hready.converts hw hh (pipelineOf_luma enc dmm hc hd hr)
    refine ⟨t, hexec, hsucc, honly, fun x y j hx hy hj => ?_⟩
    rw [hbytes x y j hx hy hj, convertSample, BitVec.toNat_ofNat, Nat.mod_eq_of_lt (lumaOnly_lt _ _)]
    subst hw hh
    rw [hready.rowByte_zero hvs (hx.trans_le hrow) hy]
  · obtain ⟨l, hd, hl⟩ : ∃ l : YuvLayout, d.handler = l.handler ∧ (l = .yuyv ∧ o = 0 ∨ l = .uyvy ∧ o = 1) := by
      rcases hpacked with ⟨hd, ho⟩ | ⟨hd, ho⟩
      · exact ⟨.yuyv, hd, .inl ⟨rfl, ho⟩⟩
      · exact ⟨.uyvy, hd, .inr ⟨rfl, ho⟩⟩
    obtain ⟨t, hexec, hsucc, honly, hbytes⟩ := hready.convertsYuv dmm hw hh hc hd hr (encValue_eq henc)
    refine ⟨t, hexec, hsucc, honly, fun x y g hx hy hg => hbytes x y hx hy _ _ _ ?_⟩
    subst hw hh
    exact hready.yuvSample_packed hvs hl hrow hx hy hg
  · rintro _ _ hd hn rfl rfl - hrow hpairs
    obtain ⟨t, hexec, hsucc, honly, hbytes⟩ :=
      hready.convertsYuv (l := .semiPlanar) dmm hw hh hc hd hr (encValue_eq henc)
    refine ⟨t, hexec, hsucc, honly, fun x y q hx hy hq => hbytes x y hx hy _ _ _ ?_⟩
    subst hw hh
    exact hready.yuvSample_semiPlanar hvs hn hrow hx hy (hpairs x hx) hq

/-! ### RAW (R95, R125) -/

/-- What `raw_ok` and `raw_depth` ask of the geometry (R95, R122), for each depth. -/
def RawGeometry (d : Descriptor) (depth : Depth) : Prop :=
  d.packed = true ∧ d.bits = 10 ∧ (plane d 0).bpg = 5 ∧ (plane d 0).ppg = 4 ∧ depth = .d10
    ∨ d.packed = true ∧ d.bits = 12 ∧ (plane d 0).bpg = 3 ∧ (plane d 0).ppg = 2 ∧ depth = .d12
    ∨ d.packed = false ∧ 1 ≤ (plane d 0).ppg ∧ (plane d 0).bpg = (plane d 0).ppg ∧ depth = .d8
    ∨ d.packed = false ∧ 1 ≤ (plane d 0).ppg ∧ (plane d 0).bpg = 2 * (plane d 0).ppg ∧ depth = .d16

theorem RawGeometry.rawDepth_eq {d : Descriptor} {depth : Depth} (h : RawGeometry d depth) :
    rawDepth d = some depth := by
  rcases h with ⟨hp, hb, h1, h2, rfl⟩ | ⟨hp, hb, h1, h2, rfl⟩ | ⟨hp, -, h1, rfl⟩ | ⟨hp, h0, h1, rfl⟩
  · simp [rawDepth, hp, hb, h1, h2]
  · simp [rawDepth, hp, hb, h1, h2]
  · simp [rawDepth, hp, h1]
  · have : 2 * (plane d 0).ppg ≠ (plane d 0).ppg := by omega
    simp [rawDepth, hp, h1, this]

theorem le_ceilDiv_mul (w : Nat) {p : Nat} (hp : 1 ≤ p) : w ≤ ceilDiv w p * p := by
  have hmod := Nat.mod_lt (w + p - 1) hp
  have hdiv := Nat.div_add_mod' (w + p - 1) p
  unfold ceilDiv
  omega

/-- A row of plane 0 holds w samples of the depth (R97). -/
theorem RawGeometry.rowBytes_le {d : Descriptor} {depth : Depth} (h : RawGeometry d depth) (w : Nat) :
    rowBytes depth w ≤ naturalStride d w 0 := by
  rw [naturalStride_eq]
  rcases h with ⟨-, -, h1, h2, rfl⟩ | ⟨-, -, h1, h2, rfl⟩ | ⟨-, h0, h1, rfl⟩ | ⟨-, h0, h1, rfl⟩
  · rw [h1, h2, rowBytes]
  · rw [h1, h2, rowBytes]
  · rw [h1, rowBytes]
    exact le_ceilDiv_mul w h0
  · rw [h1, rowBytes, Nat.mul_left_comm]
    exact Nat.mul_le_mul_left 2 (le_ceilDiv_mul w h0)

theorem depthOf_ne_none {bits : Nat} (h : bits ∈ [8, 10, 12, 16]) : depthOf bits ≠ none := by
  revert bits
  decide

theorem pipelineOf_raw {d : Descriptor} {depth : Depth} {p : Pattern} {dmm : DmmField} {m : Method} (rng : RngField)
    (enc : EncField) (hc : d.colour = .raw) (hd : d.handler = .raw) (hp : d.pattern = some p) (hn : nplanes d = 1)
    (hbits : d.bits ∈ [8, 10, 12, 16]) (hg : RawGeometry d depth) (hm : dmmValue dmm = some m) :
    pipelineOf d rng enc dmm = .ok (.raw depth p m) := by
  have hraw : rawSource d = some (depth, p) := by
    simp [rawSource, depthOf_ne_none hbits, hn, hg.rawDepth_eq, hp]
  simp [pipelineOf, hc, hd, family, hraw, hm]

/-- The grid of samples as the bytes of memory give it (R95). -/
theorem ConvertReady.rawSample_eq {s : State} {d : Descriptor} {st : Nat} {depth : Depth} (hready : ConvertReady s d st)
    (hvs : (plane d 0).vs = 1) (hg : RawGeometry d depth) {x y : Nat} (hx : x < operand s 5) (hy : y < operand s 6) :
    rawSample depth s (convertSource d s) x y
      = unpackSample depth (fun n => (s.mem.read (operand s 0 + y * st + n)).toNat) x := by
  refine unpackSample_congr depth hx fun i hi => ?_
  rw [hready.rowByte_zero hvs (hi.trans_le (hg.rowBytes_le _)) hy]

/-- Settles O49: the demosaic engine on the grid of samples, and R108 for its divisors. -/
theorem convertRawUnpacksDemosaicsAndShifts : Obligations.ConvertRawUnpacksDemosaicsAndShifts := by
  intro s rng enc dmm m d p depth w h st hw hh hready hc hd hp hn hvs hbits hg hdmm
  obtain ⟨t, hexec, hsucc, honly, hbytes⟩ :=
    hready.converts hw hh (pipelineOf_raw rng enc hc hd hp hn hbits hg (dmmValue_eq hdmm))
  subst hw hh
  have hclamped : convertClamped (convertSource d s) (.raw depth p m)
      = decide (1 ≤ operand s 5 ∧ 1 ≤ operand s 6 ∧ (operand s 5 = 1 ∨ operand s 6 = 1)) := by
    rw [Bool.eq_iff_iff, decide_eq_true_iff]
    exact demosaicClamped_iff m p _ _
  rw [hclamped] at hsucc
  refine ⟨t, hexec, hsucc, honly, fun x y hx hy j c hjc => ?_⟩
  obtain ⟨hj, rfl⟩ := channelOf_mem hjc
  rw [hbytes x y j hx hy hj, convertSample, BitVec.toNat_ofNat, Nat.shiftRight_eq_div_pow, Nat.mod_mod]
  exact congrArg (· / 2 ^ (d.bits - 8) % 256)
    (demosaicAt_congr m p _ hx hy fun i k hi hk => hready.rawSample_eq hvs hg hi hk)

end Sys2Proof.Machine
end

section
/-! SUPPORT. The bit unpacker (spec/42_unpack.md R96 to R102): the row function in arithmetic, packing undone, and UNPACK
on operands that pass its checks and on operands that fail one. -/

namespace Sys2Proof.Machine

/-! ### The row function (R98 to R100) -/

theorem and_three (n : Nat) : n &&& 3 = n % 4 := Nat.and_two_pow_sub_one_eq_mod n 2

theorem and_fifteen (n : Nat) : n &&& 0xF = n % 16 := Nat.and_two_pow_sub_one_eq_mod n 4

theorem unpackSample_d16 {b : Nat → Nat} {x : Nat} (hlow : b (2 * x) < 256) :
    unpackSample .d16 b x = b (2 * x) + 256 * b (2 * x + 1) := by
  rw [unpackSample, or_shiftLeft (k := 8) _ hlow, Nat.mul_comm 256]
  rfl

theorem unpackSample_d10 (b : Nat → Nat) (x : Nat) :
    unpackSample .d10 b x = 4 * b (5 * (x / 4) + x % 4) + b (5 * (x / 4) + 4) / 4 ^ (3 - x % 4) % 4 := by
  rw [unpackSample, and_three, shiftLeft_or (k := 2) _ (by omega), Nat.shiftRight_eq_div_pow, Nat.pow_mul,
    Nat.mul_comm 4]
  rfl

/-- The third byte of a group holds the low nibbles of both samples, so it must be a byte. -/
theorem unpackSample_d12 {b : Nat → Nat} {x : Nat} (hthird : b (3 * (x / 2) + 2) < 256) :
    unpackSample .d12 b x = 16 * b (3 * (x / 2) + x % 2)
      + (if x % 2 = 0 then b (3 * (x / 2) + 2) / 16 else b (3 * (x / 2) + 2) % 16) := by
  rw [unpackSample]
  split
  case isTrue heven =>
    rw [Nat.shiftRight_eq_div_pow, shiftLeft_or (k := 4) _ (by omega), heven, Nat.add_zero, Nat.mul_comm 16]
    rfl
  case isFalse hodd =>
    rw [and_fifteen, shiftLeft_or (k := 4) _ (by omega), show x % 2 = 1 by omega, Nat.mul_comm 16]
    rfl

/-- The number of bits of a depth (R61). -/
def Depth.bits : Depth → Nat
  | .d8 => 8
  | .d10 => 10
  | .d12 => 12
  | .d16 => 16

theorem depthOf_bits (depth : Depth) : depthOf depth.bits = some depth := by cases depth <;> rfl

theorem Depth.bits_le (depth : Depth) : depth.bits ≤ 16 := by cases depth <;> decide

/-- A sample of a row of bytes has no more bits than its depth (R97). -/
theorem unpackSample_lt {b : Nat → Nat} (hb : ∀ i, b i < 256) (depth : Depth) (x : Nat) :
    unpackSample depth b x < 2 ^ depth.bits := by
  cases depth <;> simp only [Depth.bits]
  case d8 => exact hb x
  case d10 =>
    have hhigh := hb (5 * (x / 4) + x % 4)
    rw [unpackSample_d10]
    omega
  case d12 =>
    have hhigh := hb (3 * (x / 2) + x % 2)
    have hthird := hb (3 * (x / 2) + 2)
    rw [unpackSample_d12 hthird]
    split <;> omega
  case d16 =>
    have hlow := hb (2 * x)
    have hhigh := hb (2 * x + 1)
    rw [unpackSample_d16 hlow]
    omega

theorem unpackSample_lt_16 {b : Nat → Nat} (hb : ∀ i, b i < 256) (depth : Depth) (x : Nat) :
    unpackSample depth b x < 2 ^ 16 :=
  (unpackSample_lt hb depth x).trans_le (Nat.pow_le_pow_right two_pos depth.bits_le)

/-- Settles O30: one equation per depth. -/
theorem rowFunctionTakesTheStatedBits : Obligations.RowFunctionTakesTheStatedBits :=
  fun b x hb => ⟨rfl, unpackSample_d16 (hb _), unpackSample_d10 b x, unpackSample_d12 (hb _)⟩

/-! ### Packing (R102) -/

/-- The packing byte of a group of 5 holds the low two bits of sample i as digit 3 - i in base 4. -/
theorem packingByte_digit (v : Fin 4 → Nat) (i : Fin 4) :
    ((v 0 &&& 3) <<< 6 + (v 1 &&& 3) <<< 4 + (v 2 &&& 3) <<< 2 + (v 3 &&& 3)) / 4 ^ (3 - i.val) % 4 = v i % 4 := by
  simp only [and_three, Nat.shiftLeft_eq]
  match i with
  | 0 | 1 | 2 | 3 => norm_num; omega

/-- The third byte of a group of 3 holds the low nibble of sample 0 above that of sample 1. -/
theorem nibbleByte_eq (v : Fin 2 → Nat) : (v 0 &&& 0xF) <<< 4 ||| (v 1 &&& 0xF) = 16 * (v 0 % 16) + v 1 % 16 := by
  rw [and_fifteen, and_fifteen, shiftLeft_or (k := 4) _ (by omega), Nat.mul_comm 16]
  rfl

theorem unpackSample_d10_pack {v : Fin 4 → Nat} {b : Nat → Nat} (hhigh : ∀ i : Fin 4, b i.val = v i >>> 2)
    (hpack : b 4 = (v 0 &&& 3) <<< 6 + (v 1 &&& 3) <<< 4 + (v 2 &&& 3) <<< 2 + (v 3 &&& 3)) (i : Fin 4) :
    unpackSample .d10 b i.val = v i := by
  rw [unpackSample_d10, Nat.div_eq_of_lt i.isLt, Nat.mod_eq_of_lt i.isLt, Nat.mul_zero, Nat.zero_add, Nat.zero_add,
    hhigh, hpack, packingByte_digit, Nat.shiftRight_eq_div_pow]
  exact Nat.div_add_mod (v i) 4

theorem unpackSample_d12_pack {v : Fin 2 → Nat} {b : Nat → Nat} (hhigh : ∀ i : Fin 2, b i.val = v i >>> 4)
    (hthird : b 2 = (v 0 &&& 0xF) <<< 4 ||| (v 1 &&& 0xF)) (i : Fin 2) : unpackSample .d12 b i.val = v i := by
  rw [nibbleByte_eq] at hthird
  have hdiv : i.val / 2 = 0 := Nat.div_eq_of_lt i.isLt
  rw [unpackSample_d12 (by rw [hdiv, hthird]; omega), hdiv, Nat.mod_eq_of_lt i.isLt, Nat.mul_zero, Nat.zero_add,
    Nat.zero_add, hhigh, hthird, Nat.shiftRight_eq_div_pow]
  match i with
  | 0 => simp only [Fin.val_zero, if_true]; omega
  | 1 => simp only [Fin.val_one, one_ne_zero, if_false]; omega

/-- Settles O31: the two packings, and the bound of each depth. -/
theorem unpackInvertsPacking : Obligations.UnpackInvertsPacking :=
  ⟨fun _ _ _ hhigh hpack => unpackSample_d10_pack hhigh hpack,
    fun _ _ _ hhigh hthird => unpackSample_d12_pack hhigh hthird,
    fun _ x hb => ⟨unpackSample_lt hb .d8 x, unpackSample_lt hb .d10 x, unpackSample_lt hb .d12 x,
      unpackSample_lt hb .d16 x⟩⟩

/-! ### The checks of UNPACK (R101) -/

/-- The depths of R97 with their row lengths. -/
theorem depthOf_rowBytes {n w rb : Nat} {depth : Depth}
    (h : n = 8 ∧ depth = .d8 ∧ rb = w ∨ n = 10 ∧ depth = .d10 ∧ rb = (w + 3) / 4 * 5
      ∨ n = 12 ∧ depth = .d12 ∧ rb = (w + 1) / 2 * 3 ∨ n = 16 ∧ depth = .d16 ∧ rb = 2 * w) :
    depthOf n = some depth ∧ rb = rowBytes depth w := by
  rcases h with ⟨rfl, rfl, rfl⟩ | ⟨rfl, rfl, rfl⟩ | ⟨rfl, rfl, rfl⟩ | ⟨rfl, rfl, rfl⟩ <;> exact ⟨rfl, rfl⟩

theorem exists_depthOf_rowBytes {n w rb : Nat}
    (h : n = 8 ∧ rb = w ∨ n = 10 ∧ rb = (w + 3) / 4 * 5 ∨ n = 12 ∧ rb = (w + 1) / 2 * 3 ∨ n = 16 ∧ rb = 2 * w) :
    ∃ depth, depthOf n = some depth ∧ rb = rowBytes depth w := by
  rcases h with ⟨rfl, rfl⟩ | ⟨rfl, rfl⟩ | ⟨rfl, rfl⟩ | ⟨rfl, rfl⟩
  exacts [⟨.d8, rfl, rfl⟩, ⟨.d10, rfl, rfl⟩, ⟨.d12, rfl, rfl⟩, ⟨.d16, rfl, rfl⟩]

theorem depthOf_eq_none {n : Nat} (h8 : n ≠ 8) (h10 : n ≠ 10) (h12 : n ≠ 12) (h16 : n ≠ 16) : depthOf n = none := by
  unfold depthOf
  split <;> trivial

section
variable {s : State} {depth : Depth}

theorem checkUnpack_noDepth (hd : depthOf (operand s 7) = none) : checkUnpack s = .error .unsupportedBitDepth := by
  simp [checkUnpack, hd]

theorem checkUnpack_narrow (hd : depthOf (operand s 7) = some depth)
    (hrow : unpackStride depth s < rowBytes depth (operand s 4)) : checkUnpack s = .error .strideTooSmall := by
  simp [checkUnpack, hd, hrow]

/-- Where the stride holds a row, the checks of the buffers are left. -/
theorem checkUnpack_eq_checkBuffers (hd : depthOf (operand s 7) = some depth)
    (hrow : rowBytes depth (operand s 4) ≤ unpackStride depth s) :
    checkUnpack s = checkBuffers s (unpackStride depth s * operand s 5) (2 * operand s 4 * operand s 5) depth := by
  simp [checkUnpack, hd, Nat.not_lt.2 hrow]

theorem exec_unpack_failed {e : CmdError} (h : checkUnpack s = .error e) :
    EndsWith (exec .unpack s) s (BitVec.ofNat 32 (errorCode e)) :=
  exec_check_failed (by rw [planOf, h]; rfl)

end

/-- Settles O33: the depth, the stride, then the checks of the buffers in their order. -/
theorem unpackReportsTheFirstFailingCheck : Obligations.UnpackReportsTheFirstFailingCheck := by
  rintro s w h st rb rfl rfl
  refine ⟨fun h8 h10 h12 h16 => exec_unpack_failed (checkUnpack_noDepth (depthOf_eq_none h8 h10 h12 h16)),
    fun hdepth hst => ?_⟩
  obtain ⟨depth, hd, rfl⟩ := exists_depthOf_rowBytes hdepth
  obtain rfl : st = unpackStride depth s := hst
  refine ⟨fun hlt => exec_unpack_failed (checkUnpack_narrow hd hlt), fun hrow => ?_⟩
  have failed : ∀ {e : CmdError}, checkBuffers s (unpackStride depth s * operand s 5) (2 * operand s 4 * operand s 5)
      depth = .error e → EndsWith (exec .unpack s) s (BitVec.ofNat 32 (errorCode e)) := fun he =>
    exec_unpack_failed ((checkUnpack_eq_checkBuffers hd hrow).trans he)
  exact ⟨fun hwraps => failed (checkBuffers_wraps hwraps), fun hsrc hdst =>
    ⟨fun hlarge => failed (checkBuffers_large hsrc hdst hlarge), fun hns hnd =>
    ⟨fun hshort => failed (checkBuffers_short hsrc hdst hns hnd hshort), fun hlong hlong' _ hr hw =>
      failed (checkBuffers_meet hsrc hdst hns hnd hlong hlong' hr hw)⟩⟩⟩

/-! ### The samples UNPACK writes (R101) -/

/-- UNPACK when its checks pass and its buffers are ready. -/
theorem BuffersReady.exec_unpack {s : State} {depth : Depth}
    (h : BuffersReady s (unpackStride depth s * operand s 5) (2 * operand s 4 * operand s 5))
    (hd : depthOf (operand s 7) = some depth) (hrow : rowBytes depth (operand s 4) ≤ unpackStride depth s) :
    exec .unpack s = .next (complete (2 * operand s 4 * operand s 5) 0 0 0 false
      (writeOut ⟨operand s 2, 2 * operand s 4 * operand s 5⟩ (unpackByte depth s) s)) := by
  have hcheck := (checkUnpack_eq_checkBuffers hd hrow).trans (h.checkBuffers depth)
  rw [exec, execUnpack, runCommand_ok hcheck h.busOkOver]

/-- Byte i of output sample (x, y) (R14). -/
theorem unpackByte_sample (depth : Depth) (s : State) {x i : Nat} (y : Nat) (hx : x < operand s 4) (hi : i < 2) :
    unpackByte depth s (2 * (y * operand s 4 + x) + i) = byteAt (unpackedAt depth s x y) i := by
  obtain ⟨hmod, hdiv⟩ := rowMajor (y := y) hx
  rw [unpackByte, show (2 * (y * operand s 4 + x) + i) / 2 = y * operand s 4 + x by omega,
    show (2 * (y * operand s 4 + x) + i) % 2 = i by omega, hmod, hdiv]

theorem sampleByte_lt {x y i w h : Nat} (hx : x < w) (hy : y < h) (hi : i < 2) : 2 * (y * w + x) + i < 2 * w * h := by
  have := rowMajor_lt hx hy
  rw [Nat.mul_assoc]
  omega

/-- What UNPACK leaves behind, sample by sample and byte by byte. -/
theorem BuffersReady.unpacks {s : State} {depth : Depth}
    (h : BuffersReady s (unpackStride depth s * operand s 5) (2 * operand s 4 * operand s 5))
    (hd : depthOf (operand s 7) = some depth) (hrow : rowBytes depth (operand s 4) ≤ unpackStride depth s) :
    ∃ t, exec .unpack s = .next t
      ∧ Succeeded s t (BitVec.ofNat 32 (2 * operand s 4 * operand s 5)) 0 0 0 false
      ∧ OnlyWrote s t (operand s 2) (2 * operand s 4 * operand s 5)
      ∧ ∀ x y i, x < operand s 4 → y < operand s 5 → i < 2 →
          t.mem.read (operand s 2 + 2 * (y * operand s 4 + x) + i) = byteAt (unpackedAt depth s x y) i := by
  obtain ⟨hsucc, honly, hbytes⟩ := h.written (unpackByte depth s) false rfl
  refine ⟨_, h.exec_unpack hd hrow, hsucc, honly, fun x y i hx hy hi => ?_⟩
  rw [Nat.add_assoc, hbytes _ (sampleByte_lt hx hy hi)]
  exact unpackByte_sample depth s y hx hi

theorem unpackedAt_lt (depth : Depth) (s : State) (x y : Nat) : unpackedAt depth s x y < 2 ^ 16 :=
  unpackSample_lt_16 (fun _ => BitVec.isLt _) depth x

/-- Settles O32: the two bytes of a sample read back as the sample, which 16 bits hold. -/
theorem unpackWritesEverySample : Obligations.UnpackWritesEverySample := by
  rintro s depth w h st rb rfl rfl hdepth hst hrow hready
  obtain ⟨hd, rfl⟩ := depthOf_rowBytes hdepth
  obtain rfl : st = unpackStride depth s := hst
  obtain ⟨t, hexec, hsucc, honly, hbytes⟩ := hready.unpacks hd hrow
  refine ⟨t, hexec, hsucc, honly, fun x y hx hy => ?_⟩
  rw [Memory.readLE_of_bytes 2 fun i hi => hbytes x y i hx hy hi]
  exact Nat.mod_eq_of_lt (unpackedAt_lt depth s x y)

end Sys2Proof.Machine
end

section
/-! SUPPORT. The demosaic engine (spec/43_demosaic.md R103 to R111): both methods average the samples of a set of sites,
which the tile cells of the pattern pin down; and DEMOSAIC on operands that pass its checks and on operands that fail
one. -/

namespace Sys2Proof.Machine

/-! ### The tile (R103, R104) -/

theorem channelAt_tile (p : Pattern) {u v : Nat} (hu : u < 2) (hv : v < 2) :
    (channelAt p u v = .r ↔ (u, v) = cell p .r) ∧ (channelAt p u v = .g ↔ (u, v) = cell p .g0 ∨ (u, v) = cell p .g1)
      ∧ (channelAt p u v = .b ↔ (u, v) = cell p .b) := by
  interval_cases u <;> interval_cases v <;> cases p <;> decide

/-- The cells of a channel, for every pixel of the plane. -/
theorem channelAt_iff_cell (p : Pattern) (x y : Nat) :
    (channelAt p x y = .r ↔ (x % 2, y % 2) = cell p .r)
      ∧ (channelAt p x y = .g ↔ (x % 2, y % 2) = cell p .g0 ∨ (x % 2, y % 2) = cell p .g1)
      ∧ (channelAt p x y = .b ↔ (x % 2, y % 2) = cell p .b) := by
  rw [channelAt_parity]
  exact channelAt_tile p (Nat.mod_lt x two_pos) (Nat.mod_lt y two_pos)

/-- R and B have one cell each, so two of their sites agree in both parities. -/
theorem parity_eq_of_channelAt {p : Pattern} {c : Channel} {x y i j : Nat} (hc : c ≠ .g) (h : channelAt p x y = c)
    (h' : channelAt p i j = c) : i % 2 = x % 2 ∧ j % 2 = y % 2 := by
  obtain ⟨hr, -, hb⟩ := channelAt_iff_cell p x y
  obtain ⟨hr', -, hb'⟩ := channelAt_iff_cell p i j
  cases c with
  | r => exact Prod.mk.inj ((hr'.1 h').trans (hr.1 h).symm)
  | g => exact absurd rfl hc
  | b => exact Prod.mk.inj ((hb'.1 h').trans (hb.1 h).symm)

/-! ### The pixels a method averages (R105, R106) -/

/-- Pixel (i, j) is at most one row and one column away from (x, y) and holds channel c. -/
abbrev NearSite (p : Pattern) (c : Channel) (x y i j : Nat) : Prop :=
  i ≤ x + 1 ∧ x ≤ i + 1 ∧ j ≤ y + 1 ∧ y ≤ j + 1 ∧ channelAt p i j = c

theorem nearSite_self {p : Pattern} {c : Channel} {x y : Nat} (hc : channelAt p x y = c) : NearSite p c x y x y :=
  ⟨x.le_succ, x.le_succ, y.le_succ, y.le_succ, hc⟩

/-- The pixels whose samples a method averages at (x, y). -/
def averaged (m : Method) (p : Pattern) (w h : Nat) (c : Channel) (x y : Nat) : List (Nat × Nat) :=
  match m with
  | .window3x3 => (window w h x y).filter fun q => channelAt p q.1 q.2 = c
  | .bilinear => bilinearCells p w h c x y

/-- Weighting by coverage keeps the sites of the channel (R104, R105). -/
theorem sum_coverage_mul (p : Pattern) (c : Channel) (f : Nat × Nat → Nat) (l : List (Nat × Nat)) :
    (l.map fun q => coverage p c q.1 q.2 * f q).sum
      = ((l.filter fun q => channelAt p q.1 q.2 = c).map f).sum := by
  induction l with
  | nil => rfl
  | cons q l ih =>
    rw [List.map_cons, List.sum_cons, ih, coverage]
    split <;> simp [*]

theorem demosaicNum_eq_sum (m : Method) (p : Pattern) (S : Nat → Nat → Nat) (w h : Nat) (c : Channel) (x y : Nat) :
    demosaicNum m p S w h c x y = ((averaged m p w h c x y).map fun q => S q.1 q.2).sum := by
  cases m with
  | window3x3 => exact sum_coverage_mul p c (fun q => S q.1 q.2) _
  | bilinear => rfl

theorem demosaicDen_eq_length (m : Method) (p : Pattern) (w h : Nat) (c : Channel) (x y : Nat) :
    demosaicDen m p w h c x y = (averaged m p w h c x y).length := by
  cases m with
  | window3x3 => simpa [averaged, demosaicDen] using sum_coverage_mul p c (fun _ => 1) (window w h x y)
  | bilinear => rfl

theorem averaged_nodup (m : Method) (p : Pattern) (w h : Nat) (c : Channel) (x y : Nat) :
    (averaged m p w h c x y).Nodup := by
  cases m with
  | window3x3 => exact (window_nodup w h x y).filter _
  | bilinear =>
    rw [averaged, bilinearCells]
    split
    · exact List.nodup_singleton _
    · exact neighbours_nodup w h x y (bilinearOffsets_nodup p c x y)

section
variable {m : Method} {p : Pattern} {S : Nat → Nat → Nat} {w h : Nat} {c : Channel} {x y : Nat}

/-- Where the bilinear method copies, it averages the pixel itself. -/
theorem bilinearCells_own (hc : channelAt p x y = c) : bilinearCells p w h c x y = [(x, y)] := if_pos hc

/-- At any other pixel the bilinear method averages every near site of the channel (R106). -/
theorem mem_bilinearCells_iff (hc : channelAt p x y ≠ c) (q : Nat × Nat) :
    q ∈ bilinearCells p w h c x y ↔ q.1 < w ∧ q.2 < h ∧ NearSite p c x y q.1 q.2 := by
  have hwindow := mem_window_iff w h x y q
  rw [window, mem_neighbours_iff] at hwindow
  rw [bilinearCells, if_neg hc, mem_neighbours_iff, mem_bilinearOffsets_iff hc]
  tauto

/-- But for G at G sites by the bilinear method, a method averages every near site of the channel (R109). -/
theorem mem_averaged_iff (hm : m = .window3x3 ∨ ¬ (c = .g ∧ channelAt p x y = .g)) (hx : x < w) (hy : y < h)
    (q : Nat × Nat) : q ∈ averaged m p w h c x y ↔ q.1 < w ∧ q.2 < h ∧ NearSite p c x y q.1 q.2 := by
  cases m with
  | window3x3 =>
    rw [averaged, List.mem_filter, mem_window_iff, decide_eq_true_iff]
    tauto
  | bilinear =>
    by_cases hc : channelAt p x y = c
    case neg => exact mem_bilinearCells_iff hc q
    rw [averaged, bilinearCells_own hc, List.mem_singleton]
    constructor
    · rintro rfl
      exact ⟨hx, hy, nearSite_self hc⟩
    · rintro ⟨-, -, hi, hi', hj, hj', hq⟩
      have hoff : c ≠ .g := fun hg => hm.resolve_left Method.noConfusion ⟨hg, hc.trans hg⟩
      obtain ⟨hcol, hrow⟩ := parity_eq_of_channelAt hoff hc hq
      ext <;> omega

/-- What either method averages are in-grid near sites of the channel. -/
theorem nearSite_of_mem_averaged (hx : x < w) (hy : y < h) {q : Nat × Nat} (hq : q ∈ averaged m p w h c x y) :
    q.1 < w ∧ q.2 < h ∧ NearSite p c x y q.1 q.2 := by
  by_cases hm : m = .window3x3 ∨ ¬ (c = .g ∧ channelAt p x y = .g)
  · exact (mem_averaged_iff hm hx hy q).1 hq
  obtain ⟨hbil, hg, hc⟩ : m = .bilinear ∧ c = .g ∧ channelAt p x y = .g := by
    cases m <;> tauto
  subst hbil hg
  rw [averaged, bilinearCells_own hc, List.mem_singleton] at hq
  subst hq
  exact ⟨hx, hy, nearSite_self hc⟩

/-! ### Outputs as averages over the grid -/

/-- The sum of f over the near sites of the channel in the grid. -/
def siteSum (p : Pattern) (f : Nat → Nat → Nat) (w h : Nat) (c : Channel) (x y : Nat) : Nat :=
  ∑ i ∈ Finset.range w, ∑ j ∈ Finset.range h, if NearSite p c x y i j then f i j else 0

/-- But for G at G sites by the bilinear method, an output is the average of the near sites (R105, R109). -/
theorem demosaicAt_eq_siteAverage (S : Nat → Nat → Nat)
    (hm : m = .window3x3 ∨ ¬ (c = .g ∧ channelAt p x y = .g)) (hx : x < w) (hy : y < h) :
    demosaicAt m p S w h c x y = siteSum p S w h c x y / max (siteSum p (fun _ _ => 1) w h c x y) 1 := by
  have hsum (f : Nat → Nat → Nat) :
      ((averaged m p w h c x y).map fun q => f q.1 q.2).sum = siteSum p f w h c x y :=
    sum_pixels (averaged_nodup m p w h c x y) w h (NearSite p c x y) (mem_averaged_iff hm hx hy) f
  have hcount : (averaged m p w h c x y).length = siteSum p (fun _ _ => 1) w h c x y := by
    rw [← hsum, List.map_const', List.sum_replicate, smul_eq_mul, mul_one]
  rw [demosaicAt, clampedDiv, demosaicNum_eq_sum, demosaicDen_eq_length, hsum, hcount]

theorem demosaicAt_own (S : Nat → Nat → Nat) (hc : channelAt p x y = c) :
    demosaicAt .bilinear p S w h c x y = S x y := by
  simp [demosaicAt, clampedDiv, demosaicNum, demosaicDen, bilinearCells_own hc]

/-- The two methods agree but for G at G sites (R109). -/
theorem demosaicAt_methods_agree (S : Nat → Nat → Nat) (hoff : ¬ (c = .g ∧ channelAt p x y = .g)) (hx : x < w)
    (hy : y < h) : demosaicAt .window3x3 p S w h c x y = demosaicAt .bilinear p S w h c x y :=
  (demosaicAt_eq_siteAverage S (.inl rfl) hx hy).trans (demosaicAt_eq_siteAverage S (.inr hoff) hx hy).symm

theorem demosaicAt_le {hi : Nat} (hx : x < w) (hy : y < h)
    (hS : ∀ i j, i < w → j < h → channelAt p i j = c → S i j ≤ hi) : demosaicAt m p S w h c x y ≤ hi := by
  have hnum : demosaicNum m p S w h c x y ≤ demosaicDen m p w h c x y * hi := by
    rw [demosaicNum_eq_sum, demosaicDen_eq_length, ← List.length_map (f := fun q : Nat × Nat => S q.1 q.2)]
    refine List.sum_le_card_nsmul _ hi (List.forall_mem_map.2 fun q hq => ?_)
    obtain ⟨hqw, hqh, -, -, -, -, hqc⟩ := nearSite_of_mem_averaged hx hy hq
    exact hS _ _ hqw hqh hqc
  exact Nat.div_le_of_le_mul (hnum.trans (Nat.mul_le_mul_right hi (Nat.le_max_left _ 1)))

theorem le_demosaicAt {lo : Nat} (hx : x < w) (hy : y < h) (hden : demosaicDen m p w h c x y ≠ 0)
    (hS : ∀ i j, i < w → j < h → channelAt p i j = c → lo ≤ S i j) : lo ≤ demosaicAt m p S w h c x y := by
  have hnum : demosaicDen m p w h c x y * lo ≤ demosaicNum m p S w h c x y := by
    rw [demosaicNum_eq_sum, demosaicDen_eq_length, ← List.length_map (f := fun q : Nat × Nat => S q.1 q.2)]
    refine List.card_nsmul_le_sum _ lo (List.forall_mem_map.2 fun q hq => ?_)
    obtain ⟨hqw, hqh, -, -, -, -, hqc⟩ := nearSite_of_mem_averaged hx hy hq
    exact hS _ _ hqw hqh hqc
  have hpos := Nat.pos_of_ne_zero hden
  rw [demosaicAt, clampedDiv, Nat.max_eq_left hpos, Nat.le_div_iff_mul_le hpos, Nat.mul_comm]
  exact hnum

end

/-- Settles O34: the window's sites of the channel are the near sites. -/
theorem windowAverageFollowsItsDefinition : Obligations.WindowAverageFollowsItsDefinition :=
  fun _ S _ _ _ _ _ hx hy => demosaicAt_eq_siteAverage S (.inl rfl) hx hy

/-- Settles O35: off the channel's own sites the bilinear method averages what the window does. -/
theorem bilinearAveragesSitesOfTheChannel : Obligations.BilinearAveragesSitesOfTheChannel := by
  intro p S w h c x y hx hy
  refine ⟨demosaicAt_own S, fun hc => ?_, fun q hq => ?_⟩
  · exact demosaicAt_eq_siteAverage S (.inr fun hg => hc (hg.2.trans hg.1.symm)) hx hy
  · obtain ⟨hqw, hqh, hi, hi', hj, hj', hqc⟩ := nearSite_of_mem_averaged (m := .bilinear) hx hy hq
    exact ⟨hqw, hqh, hqc, hi, hi', hj, hj'⟩

/-- Settles O36: R108, as proved of the divisors above. -/
theorem divisorClampedExactlyInOneRowOrOneColumn : Obligations.DivisorClampedExactlyInOneRowOrOneColumn :=
  demosaicClamped_iff

/-- Settles O37: both methods average the same sites, and an average lies between the bounds of what it averages. -/
theorem methodsAgreeOffGreenAndStayInBounds : Obligations.MethodsAgreeOffGreenAndStayInBounds :=
  fun _ S _ _ _ _ _ hx hy => ⟨fun hoff => demosaicAt_methods_agree S hoff hx hy, fun _ _ _ hS =>
    ⟨demosaicAt_le hx hy fun i j hi hj hc => (hS i j hi hj hc).2,
      fun hden => le_demosaicAt hx hy hden fun i j hi hj hc => (hS i j hi hj hc).1⟩⟩

/-- Settles O38: the cells of each pattern, and the worked grids by evaluation. -/
theorem workedGridGivesTheStatedPixels : Obligations.WorkedGridGivesTheStatedPixels := by
  refine ⟨?_, by decide, by decide⟩
  rintro x y _ _ _ _ _ _ p rfl rfl hp
  rcases hp with ⟨rfl, rfl, rfl, rfl, rfl⟩ | ⟨rfl, rfl, rfl, rfl, rfl⟩ | ⟨rfl, rfl, rfl, rfl, rfl⟩
    | ⟨rfl, rfl, rfl, rfl, rfl⟩
  all_goals exact channelAt_iff_cell _ x y

/-! ### The checks of DEMOSAIC (R111) -/

theorem patternOf_eq {n : Nat} {p : Pattern}
    (h : n = 0 ∧ p = .rggb ∨ n = 1 ∧ p = .bggr ∨ n = 2 ∧ p = .grbg ∨ n = 3 ∧ p = .gbrg) : patternOf n = some p := by
  rcases h with ⟨rfl, rfl⟩ | ⟨rfl, rfl⟩ | ⟨rfl, rfl⟩ | ⟨rfl, rfl⟩ <;> rfl

theorem exists_patternOf {n : Nat} (h : n ≤ 3) : ∃ p, patternOf n = some p := by
  interval_cases n <;> exact ⟨_, rfl⟩

theorem patternOf_eq_none {n : Nat} (h : 3 < n) : patternOf n = none := by
  unfold patternOf
  split
  case h_5 => rfl
  all_goals omega

theorem exists_dmmValue {dmm : DmmField} (h : dmm = .window3x3 ∨ dmm = .bilinear) : ∃ m, dmmValue dmm = some m := by
  rcases h with rfl | rfl <;> exact ⟨_, rfl⟩

theorem dmmValue_eq_none {dmm : DmmField} (h : dmm = .reserved2 ∨ dmm = .reserved3) : dmmValue dmm = none := by
  rcases h with rfl | rfl <;> rfl

section
variable {s : State} {dmm : DmmField} {m : Method} {p : Pattern}

theorem checkDemosaic_noMethod (hm : dmmValue dmm = none) :
    checkDemosaic dmm s = .error .unsupportedDemosaicMethod := by
  simp [checkDemosaic, hm]

theorem checkDemosaic_noPattern (hm : dmmValue dmm = some m) (hp : patternOf (operand s 6) = none) :
    checkDemosaic dmm s = .error .invalidArgument := by
  simp [checkDemosaic, hm, hp]

/-- With a method and a pattern, the checks of the buffers are left. -/
theorem checkDemosaic_eq_checkBuffers (hm : dmmValue dmm = some m) (hp : patternOf (operand s 6) = some p) :
    checkDemosaic dmm s
      = checkBuffers s (2 * operand s 4 * operand s 5) (6 * operand s 4 * operand s 5) (m, p) := by
  simp [checkDemosaic, hm, hp]

theorem exec_demosaic_failed {e : CmdError} (h : checkDemosaic dmm s = .error e) :
    EndsWith (exec (.demosaic dmm) s) s (BitVec.ofNat 32 (errorCode e)) :=
  exec_check_failed (by rw [planOf, h]; rfl)

end

/-- Settles O40: the method, the pattern, then the checks of the buffers; the source is never the one too large. -/
theorem demosaicReportsTheFirstFailingCheck : Obligations.DemosaicReportsTheFirstFailingCheck := by
  rintro s dmm w h rfl rfl
  refine ⟨fun hreserved => exec_demosaic_failed (checkDemosaic_noMethod (dmmValue_eq_none hreserved)), fun hdmm => ?_⟩
  obtain ⟨m, hm⟩ := exists_dmmValue hdmm
  refine ⟨fun hlarge => exec_demosaic_failed (checkDemosaic_noPattern hm (patternOf_eq_none hlarge)), fun hcode => ?_⟩
  obtain ⟨p, hp⟩ := exists_patternOf hcode
  have failed : ∀ {e : CmdError}, checkBuffers s (2 * operand s 4 * operand s 5) (6 * operand s 4 * operand s 5)
      (m, p) = .error e → EndsWith (exec (.demosaic dmm) s) s (BitVec.ofNat 32 (errorCode e)) := fun he =>
    exec_demosaic_failed ((checkDemosaic_eq_checkBuffers hm hp).trans he)
  refine ⟨fun hbad => failed (e := .invalidArgument) ?_, fun hsrc hdst hnd => ?_⟩
  · by_cases hwraps : 2 ^ 32 < operand s 0 + operand s 1 ∨ 2 ^ 32 < operand s 2 + operand s 3
    · exact checkBuffers_wraps hwraps
    · obtain ⟨hsrc, hdst⟩ := not_or.1 hwraps
      exact checkBuffers_large (not_lt.1 hsrc) (not_lt.1 hdst) (by tauto)
  · have hns : 2 * operand s 4 * operand s 5 < 2 ^ 32 := by
      rw [Nat.mul_assoc] at hnd ⊢
      omega
    exact ⟨fun hshort => failed (checkBuffers_short hsrc hdst hns hnd hshort), fun hlong hlong' _ hr hw =>
      failed (checkBuffers_meet hsrc hdst hns hnd hlong hlong' hr hw)⟩

/-! ### The pixels DEMOSAIC writes (R111) -/

theorem demosaicAt_lt_16 {m : Method} {p : Pattern} {s : State} {w h : Nat} {c : Channel} {x y : Nat} (hx : x < w)
    (hy : y < h) : demosaicAt m p (demosaicSample s) w h c x y < 2 ^ 16 :=
  Nat.lt_of_le_pred (by decide) (demosaicAt_le hx hy fun _ _ _ _ _ => Nat.le_pred_of_lt (Memory.readLE_lt _ _ 2))

/-- Byte i of channel j of output pixel (x, y) (R111, R14). -/
theorem demosaicByte_pixel (m : Method) (p : Pattern) (s : State) {x j i : Nat} (y : Nat) (hx : x < operand s 4)
    (hj : j < 3) (hi : i < 2) : demosaicByte m p s (6 * (y * operand s 4 + x) + 2 * j + i)
      = byteAt (demosaicAt m p (demosaicSample s) (operand s 4) (operand s 5) (channelOf j) x y) i := by
  obtain ⟨hmod, hdiv⟩ := rowMajor (y := y) hx
  rw [demosaicByte, show (6 * (y * operand s 4 + x) + 2 * j + i) % 6 / 2 = j by omega,
    show (6 * (y * operand s 4 + x) + 2 * j + i) / 6 = y * operand s 4 + x by omega,
    show (6 * (y * operand s 4 + x) + 2 * j + i) % 2 = i by omega, hmod, hdiv]

theorem demosaicByte_lt {x y j i w h : Nat} (hx : x < w) (hy : y < h) (hj : j < 3) (hi : i < 2) :
    6 * (y * w + x) + 2 * j + i < 6 * w * h := by
  have := rowMajor_lt hx hy
  rw [Nat.mul_assoc]
  omega

/-- DEMOSAIC when its checks pass and its buffers are ready. -/
theorem BuffersReady.exec_demosaic {s : State} {dmm : DmmField} {m : Method} {p : Pattern}
    (h : BuffersReady s (2 * operand s 4 * operand s 5) (6 * operand s 4 * operand s 5))
    (hm : dmmValue dmm = some m) (hp : patternOf (operand s 6) = some p) :
    exec (.demosaic dmm) s = .next (complete (6 * operand s 4 * operand s 5) 0 0 0
      (demosaicClamped m p (operand s 4) (operand s 5))
      (writeOut ⟨operand s 2, 6 * operand s 4 * operand s 5⟩ (demosaicByte m p s) s)) := by
  have hcheck := (checkDemosaic_eq_checkBuffers hm hp).trans (h.checkBuffers (m, p))
  rw [exec, execDemosaic, runCommand_ok hcheck h.busOkOver]

/-- Settles O39: the two bytes of an output read back as the output, which 16 bits hold. -/
theorem demosaicWritesEveryPixel : Obligations.DemosaicWritesEveryPixel := by
  rintro s dmm m p w h rfl rfl hdmm hcode hready
  have hclamped : demosaicClamped m p (operand s 4) (operand s 5)
      = decide (1 ≤ operand s 4 ∧ 1 ≤ operand s 5 ∧ (operand s 4 = 1 ∨ operand s 5 = 1)) := by
    rw [Bool.eq_iff_iff, decide_eq_true_iff]
    exact demosaicClamped_iff m p _ _
  have hexec := hready.exec_demosaic (dmmValue_eq hdmm) (patternOf_eq hcode)
  rw [hclamped] at hexec
  obtain ⟨hsucc, honly, hbytes⟩ := hready.written (demosaicByte m p s) _ rfl
  refine ⟨_, hexec, hsucc, honly, fun x y hx hy j c hjc => ?_⟩
  obtain ⟨hj, rfl⟩ := channelOf_mem hjc
  rw [Memory.readLE_of_bytes 2 fun i hi => ?_]
  · exact Nat.mod_eq_of_lt (demosaicAt_lt_16 (m := m) (p := p) (s := s) (c := channelOf j) hx hy)
  · rw [Nat.add_assoc, Nat.add_assoc, ← Nat.add_assoc (6 * _), hbytes _ (demosaicByte_lt hx hy hj hi)]
    exact demosaicByte_pixel m p s y hx hj hi

end Sys2Proof.Machine
end

section
/-! SUPPORT. The colorspace converter (spec/44_colorspace.md R112 to R119): the exact sum and the clip as functions of
rationals, the default coefficients, and CSC on operands that pass its checks and on operands that fail one. -/

namespace Sys2Proof.Machine

/-! ### Ratios as rationals (R114) -/

/-- The rational a ratio stands for. -/
def ratioValue (q : Ratio) : ℚ := q.num / q.den

theorem ratioValue_scaleRatio (k : Ratio) (v : Int) : ratioValue (scaleRatio k v) = ratioValue k * v := by
  rw [ratioValue, ratioValue, scaleRatio, Int.cast_mul, div_mul_eq_mul_div]

theorem ratioValue_addRatio {a b : Ratio} (ha : 0 < a.den) (hb : 0 < b.den) :
    ratioValue (addRatio a b) = ratioValue a + ratioValue b := by
  have ha' : (a.den : ℚ) ≠ 0 := Nat.cast_ne_zero.2 ha.ne'
  have hb' : (b.den : ℚ) ≠ 0 := Nat.cast_ne_zero.2 hb.ne'
  rw [ratioValue, ratioValue, ratioValue, div_add_div _ _ ha' hb', addRatio]
  push_cast
  ring

/-! ### The exact transform (R112, R113, R115) -/

/-- The sum of R113 for one output channel, with the offsets of R112. -/
def channelSum (k : Column) (r : VideoRange) (y cb cr : Byte) : ℚ :=
  ratioValue k.ky * ((y.toNat : ℚ) - lumaOffset r) + ratioValue k.ku * ((cb.toNat : ℚ) - 128)
    + ratioValue k.kv * ((cr.toNat : ℚ) - 128)

/-- floor(clip(q, 0, 255)) of R115 and R117. -/
def clippedFloor (q : ℚ) : Int := ⌊max 0 (min 255 q)⌋

theorem clippedFloor_mono {p q : ℚ} (h : p ≤ q) : clippedFloor p ≤ clippedFloor q :=
  Int.floor_mono (max_le_max le_rfl (min_le_min le_rfl h))

/-- A byte is its own clipped floor. -/
theorem clippedFloor_byte (y : Byte) : clippedFloor y.toNat = y.toNat := by
  have hle : (y.toNat : ℚ) ≤ 255 := by exact_mod_cast Nat.le_pred_of_lt y.isLt
  rw [clippedFloor, min_eq_right hle, max_eq_right (Nat.cast_nonneg _), Int.floor_natCast]

/-- The model's clip and floor of a ratio is that of the rational it stands for. -/
theorem clipFloor_ratio {q : Ratio} (h : 0 < q.den) : (clipFloor q.num q.den : Int) = clippedFloor (ratioValue q) :=
  clipFloor_eq_floor q.num h

theorem lumaOffset_eq_ite (r : VideoRange) : (lumaOffset r : ℚ) = if r = .limited then 16 else 0 := by
  cases r <;> simp [lumaOffset]

section
variable {k : Column} (hy : 0 < k.ky.den) (hu : 0 < k.ku.den) (hv : 0 < k.kv.den)
include hy hu hv

theorem exactSum_den_pos (yo u v : Int) : 0 < (exactSum k yo u v).den :=
  Nat.mul_pos (Nat.mul_pos hy hu) hv

theorem ratioValue_exactSum (yo u v : Int) :
    ratioValue (exactSum k yo u v) = ratioValue k.ky * yo + ratioValue k.ku * u + ratioValue k.kv * v := by
  have hyu : 0 < (addRatio (scaleRatio k.ky yo) (scaleRatio k.ku u)).den := Nat.mul_pos hy hu
  rw [exactSum, ratioValue_addRatio (b := scaleRatio k.kv v) hyu hv,
    ratioValue_addRatio (a := scaleRatio k.ky yo) (b := scaleRatio k.ku u) hy hu, ratioValue_scaleRatio,
    ratioValue_scaleRatio, ratioValue_scaleRatio]

end

/-- An output byte of the default arithmetic is the clipped floor of the channel's sum. -/
theorem cscChannel_exact {c : Config} {e : Standard} {r : VideoRange} {ch : Channel} {k : Column}
    (hc : c.cscEval = .exact) (hk : k = columnFor (matrixFor c.cscCoef e r) ch) (hy : 0 < k.ky.den)
    (hu : 0 < k.ku.den) (hv : 0 < k.kv.den) (y cb cr : Byte) :
    (cscChannel c e r ch y cb cr : Int) = clippedFloor (channelSum k r y cb cr) := by
  subst hk
  simp only [cscChannel, hc]
  rw [clipFloor_ratio (exactSum_den_pos hy hu hv ..), ratioValue_exactSum hy hu hv, channelSum]
  push_cast
  rfl

/-- Settles O41: the arithmetic of ratios is that of the rationals they stand for. -/
theorem exactTransformIsTheFloorOfTheClippedSum : Obligations.ExactTransformIsTheFloorOfTheClippedSum := by
  intro c e r ch y cb cr k hc hk hy hu hv
  rw [cscChannel_exact hc hk hy hu hv, channelSum, lumaOffset_eq_ite]
  rfl

/-! ### The default coefficients (R113, R114) -/

/-- The luma scale ys of R113. -/
def lumaScale : VideoRange → ℚ
  | .limited => 255 / 219
  | .full => 1

/-- The chroma scale cs of R113. -/
def chromaScale : VideoRange → ℚ
  | .limited => 255 / 224
  | .full => 1

section
variable (e : Standard) (r : VideoRange)

theorem defaultCoef_den_pos (ch : Channel) :
    0 < (columnFor (matrixFor defaultCoef e r) ch).ky.den ∧ 0 < (columnFor (matrixFor defaultCoef e r) ch).ku.den
      ∧ 0 < (columnFor (matrixFor defaultCoef e r) ch).kv.den := by
  cases e <;> cases r <;> cases ch <;> decide

/-- Every channel weighs luma by the luma scale. -/
theorem defaultCoef_luma (ch : Channel) :
    ratioValue (columnFor (matrixFor defaultCoef e r) ch).ky = lumaScale r := by
  cases r with
  | limited =>
    have hcoef : (columnFor (matrixFor defaultCoef e .limited) ch).ky = ⟨85, 73⟩ := by cases e <;> cases ch <;> rfl
    norm_num [hcoef, ratioValue, lumaScale]
  | full =>
    have hcoef : (columnFor (matrixFor defaultCoef e .full) ch).ky = ⟨1, 1⟩ := by cases e <;> cases ch <;> rfl
    norm_num [hcoef, ratioValue, lumaScale]

/-- R has no Cb term. -/
theorem defaultCoef_r_ku : ratioValue (matrixFor defaultCoef e r).r.ku = 0 := by
  have hcoef : (matrixFor defaultCoef e r).r.ku = ⟨0, 1⟩ := by cases e <;> cases r <;> rfl
  simp [hcoef, ratioValue]

/-- B has no Cr term. -/
theorem defaultCoef_b_kv : ratioValue (matrixFor defaultCoef e r).b.kv = 0 := by
  have hcoef : (matrixFor defaultCoef e r).b.kv = ⟨0, 1⟩ := by cases e <;> cases r <;> rfl
  simp [hcoef, ratioValue]

end

/-- The chroma coefficients of the six matrices, each against R113's formula. -/
theorem defaultCoef_chroma {e : Standard} (r : VideoRange) {Kr Kb : ℚ}
    (he : e = .bt601 ∧ Kr = 299 / 1000 ∧ Kb = 114 / 1000 ∨ e = .bt709 ∧ Kr = 2126 / 10000 ∧ Kb = 722 / 10000
      ∨ e = .bt2020 ∧ Kr = 2627 / 10000 ∧ Kb = 593 / 10000) :
    ratioValue (matrixFor defaultCoef e r).r.kv = 2 * (1 - Kr) * chromaScale r
      ∧ ratioValue (matrixFor defaultCoef e r).g.ku = -(2 * Kb * (1 - Kb) / (1 - Kr - Kb)) * chromaScale r
      ∧ ratioValue (matrixFor defaultCoef e r).g.kv = -(2 * Kr * (1 - Kr) / (1 - Kr - Kb)) * chromaScale r
      ∧ ratioValue (matrixFor defaultCoef e r).b.ku = 2 * (1 - Kb) * chromaScale r := by
  rcases he with ⟨rfl, rfl, rfl⟩ | ⟨rfl, rfl, rfl⟩ | ⟨rfl, rfl, rfl⟩ <;> cases r <;>
    norm_num [matrixFor, defaultCoef, matrixOf, ratioValue, chromaScale]

/-- Settles O42: the luma column, R114's two zeros and the chroma coefficients. -/
theorem defaultMatricesFollowTheDerivation : Obligations.DefaultMatricesFollowTheDerivation := by
  intro e r Kr Kb ys cs he hr q hq
  obtain rfl : q = ratioValue := funext hq
  obtain ⟨rfl, rfl⟩ : ys = lumaScale r ∧ cs = chromaScale r := by
    rcases hr with ⟨rfl, rfl, rfl⟩ | ⟨rfl, rfl, rfl⟩ <;> exact ⟨rfl, rfl⟩
  obtain ⟨hrv, hgu, hgv, hbu⟩ := defaultCoef_chroma r he
  exact ⟨defaultCoef_luma e r .r, defaultCoef_r_ku e r, hrv, defaultCoef_luma e r .g, hgu, hgv,
    defaultCoef_luma e r .b, hbu, defaultCoef_b_kv e r⟩

/-! ### The luma-only path (R117) -/

theorem lumaOnly_limited (y : Byte) :
    (lumaOnly .limited y : Int) = clippedFloor (((y.toNat : ℚ) - 16) * 255 / 219) := by
  rw [lumaOnly, clipFloor_eq_floor _ (by decide), clippedFloor]
  push_cast
  rfl

/-- Settles O43: full range by definition, limited range by the clip and floor. -/
theorem lumaOnlyRescalesLimitedRange : Obligations.LumaOnlyRescalesLimitedRange :=
  fun y => ⟨rfl, lumaOnly_limited y⟩

/-- In either range the luma-only result is the clipped floor of the luma term of R113. -/
theorem lumaOnly_eq_clippedFloor (r : VideoRange) (y : Byte) :
    (lumaOnly r y : Int) = clippedFloor (lumaScale r * ((y.toNat : ℚ) - lumaOffset r)) := by
  cases r with
  | limited =>
    rw [lumaOnly_limited, lumaScale, lumaOffset]
    congr 1
    push_cast
    ring
  | full =>
    rw [lumaScale, lumaOffset, Int.cast_zero, sub_zero, one_mul, clippedFloor_byte]
    rfl

/-! ### Properties of the default transform (R119) -/

section
variable {c : Config} (hc : c.cscEval = .exact) (hd : c.cscCoef = defaultCoef) (e : Standard) (r : VideoRange)
  (ch : Channel) (y cb cr : Byte)
include hc hd

/-- An output byte with the default coefficients, the luma term set apart. -/
theorem cscChannel_default :
    (cscChannel c e r ch y cb cr : Int) = clippedFloor (lumaScale r * ((y.toNat : ℚ) - lumaOffset r)
      + ratioValue (columnFor (matrixFor defaultCoef e r) ch).ku * ((cb.toNat : ℚ) - 128)
      + ratioValue (columnFor (matrixFor defaultCoef e r) ch).kv * ((cr.toNat : ℚ) - 128)) := by
  obtain ⟨hky, hku, hkv⟩ := defaultCoef_den_pos e r ch
  rw [cscChannel_exact hc (by rw [hd]) hky hku hkv, channelSum, defaultCoef_luma]

theorem cscChannel_neutral : cscChannel c e r ch y 128 128 = lumaOnly r y := by
  rw [← Int.natCast_inj, cscChannel_default hc hd, lumaOnly_eq_clippedFloor, show (128 : Byte).toNat = 128 from rfl]
  norm_num

theorem cscChannel_mono {y y' : Byte} (h : y.toNat ≤ y'.toNat) :
    cscChannel c e r ch y cb cr ≤ cscChannel c e r ch y' cb cr := by
  have hscale : 0 ≤ lumaScale r := by cases r <;> norm_num [lumaScale]
  have hy : (y.toNat : ℚ) ≤ y'.toNat := by exact_mod_cast h
  rw [← Int.ofNat_le, cscChannel_default hc hd, cscChannel_default hc hd]
  refine clippedFloor_mono ?_
  gcongr

theorem cscChannel_r_cb (cb' : Byte) : cscChannel c e r .r y cb cr = cscChannel c e r .r y cb' cr := by
  rw [← Int.natCast_inj, cscChannel_default hc hd, cscChannel_default hc hd, columnFor, defaultCoef_r_ku, zero_mul,
    zero_mul]

theorem cscChannel_b_cr (cr' : Byte) : cscChannel c e r .b y cb cr = cscChannel c e r .b y cb cr' := by
  rw [← Int.natCast_inj, cscChannel_default hc hd, cscChannel_default hc hd, columnFor, defaultCoef_b_kv, zero_mul,
    zero_mul]

end

/-- Settles O44: (a) to (c) from the sum with the default coefficients, (d) by evaluation. -/
theorem defaultTransformKeepsItsProperties : Obligations.DefaultTransformKeepsItsProperties :=
  ⟨fun _ e r y _ cb cb' cr cr' hc hd =>
    ⟨fun ch => cscChannel_neutral hc hd e r ch y, fun h ch => cscChannel_mono hc hd e r ch cb cr h,
      cscChannel_r_cb hc hd e r y cb cr cb', cscChannel_b_cr hc hd e r y cb cr cr'⟩,
    by decide, by decide, by decide, by decide⟩

/-! ### The checks of CSC (R118) -/

/-- A declared buffer that wraps and a size over 32 bits end a command with the same error. -/
theorem checkBuffers_invalid {α : Type} {s : State} {ns nd : Nat} {info : α}
    (h : 2 ^ 32 < operand s 0 + operand s 1 ∨ 2 ^ 32 < operand s 2 + operand s 3 ∨ 2 ^ 32 ≤ ns ∨ 2 ^ 32 ≤ nd) :
    checkBuffers s ns nd info = .error .invalidArgument := by
  by_cases hwraps : 2 ^ 32 < operand s 0 + operand s 1 ∨ 2 ^ 32 < operand s 2 + operand s 3
  · exact checkBuffers_wraps hwraps
  · obtain ⟨hsrc, hdst⟩ := not_or.1 hwraps
    exact checkBuffers_large (not_lt.1 hsrc) (not_lt.1 hdst) (by tauto)

/-- A reserved RNG or ENC has no value. -/
theorem checkCsc_reserved {rng : RngField} {enc : EncField} (s : State)
    (h : rng = .reserved2 ∨ rng = .reserved3 ∨ enc = .reserved3) : checkCsc rng enc s = .error .invalidArgument := by
  rcases h with rfl | rfl | rfl
  · rfl
  · rfl
  · cases rng <;> rfl

theorem exists_rngValue {rng : RngField} (h : rng = .limited ∨ rng = .full) : ∃ r, rngValue rng = some r := by
  rcases h with rfl | rfl <;> exact ⟨_, rfl⟩

theorem exists_encValue {enc : EncField} (h : enc ≠ .reserved3) : ∃ e, encValue enc = some e := by
  cases enc
  case reserved3 => exact absurd rfl h
  all_goals exact ⟨_, rfl⟩

section
variable {s : State} {rng : RngField} {enc : EncField}

/-- With a range and an encoding, the checks of the buffers are left. -/
theorem checkCsc_eq_checkBuffers {r : VideoRange} {e : Standard} (hr : rngValue rng = some r)
    (he : encValue enc = some e) :
    checkCsc rng enc s = checkBuffers s (3 * operand s 4) (3 * operand s 4) (r, e) := by
  simp [checkCsc, hr, he]

theorem exec_csc_failed {er : CmdError} (h : checkCsc rng enc s = .error er) :
    EndsWith (exec (.csc rng enc) s) s (BitVec.ofNat 32 (errorCode er)) :=
  exec_check_failed (by rw [planOf, h]; rfl)

end

/-- Settles O46: the option fields, then the checks of the buffers in their order. -/
theorem cscReportsTheFirstFailingCheck : Obligations.CscReportsTheFirstFailingCheck := by
  rintro s rng enc n rfl
  refine ⟨fun hreserved => exec_csc_failed (checkCsc_reserved s hreserved), fun hrng henc => ?_⟩
  obtain ⟨r, hr⟩ := exists_rngValue hrng
  obtain ⟨e, he⟩ := exists_encValue henc
  have failed : ∀ {er : CmdError}, checkBuffers s (3 * operand s 4) (3 * operand s 4) (r, e) = .error er →
      EndsWith (exec (.csc rng enc) s) s (BitVec.ofNat 32 (errorCode er)) := fun her =>
    exec_csc_failed ((checkCsc_eq_checkBuffers hr he).trans her)
  exact ⟨fun hbad => failed (checkBuffers_invalid (by tauto)), fun hsrc hdst hn =>
    ⟨fun hshort => failed (checkBuffers_short hsrc hdst hn hn hshort), fun hlong hlong' _ hrd hwr =>
      failed (checkBuffers_meet hsrc hdst hn hn hlong hlong' hrd hwr)⟩⟩

/-! ### The triples CSC writes (R118) -/

/-- CSC when its checks pass and its buffers are ready. -/
theorem BuffersReady.exec_csc {s : State} {rng : RngField} {enc : EncField} {r : VideoRange} {e : Standard}
    (h : BuffersReady s (3 * operand s 4) (3 * operand s 4)) (hr : rngValue rng = some r)
    (he : encValue enc = some e) :
    exec (.csc rng enc) s = .next (complete (3 * operand s 4) 0 0 0 false
      (writeOut ⟨operand s 2, 3 * operand s 4⟩ (cscByte r e s) s)) := by
  have hcheck := (checkCsc_eq_checkBuffers hr he).trans (h.checkBuffers (r, e))
  rw [exec, execCsc, runCommand_ok hcheck h.busOkOver]

/-- Byte j of output triple i. -/
theorem cscByte_triple (r : VideoRange) (e : Standard) (s : State) (i : Nat) {j : Nat} (hj : j < 3) :
    cscByte r e s (3 * i + j) = BitVec.ofNat 8 (cscChannel s.config e r (channelOf j) (s.mem.read (operand s 0 + 3 * i))
      (s.mem.read (operand s 0 + 3 * i + 1)) (s.mem.read (operand s 0 + 3 * i + 2))) := by
  rw [cscByte, show (3 * i + j) % 3 = j by omega, show (3 * i + j) / 3 = i by omega]

/-- Settles O45: each byte of a triple is one channel of the transform. -/
theorem cscConvertsEveryTriple : Obligations.CscConvertsEveryTriple := by
  rintro s rng enc r e n rfl hrng henc hready
  obtain ⟨hsucc, honly, hbytes⟩ := hready.written (cscByte r e s) false rfl
  refine ⟨_, hready.exec_csc (rngValue_eq hrng) (encValue_eq henc), hsucc, honly, fun i hi j ch hjch => ?_⟩
  obtain ⟨hj, rfl⟩ := channelOf_mem hjch
  rw [Nat.add_assoc, hbytes _ (by omega)]
  exact cscByte_triple r e s i hj

end Sys2Proof.Machine
end

section
/-! SUPPORT. The checks of CONVERT (spec/45_convert.md R122, R126): the outcome of each check of the frame and the
buffers, then of each check of the path. -/

namespace Sys2Proof.Machine

/-- Settles O13: the command ends before any memory access. -/
theorem failedChecksLeaveMemoryUntouched : Obligations.FailedChecksLeaveMemoryUntouched := fun _ _ _ =>
  exec_check_failed

/-! ### The checks of the frame and the buffers (R121, R122) -/

theorem exec_convert_failed {rng : RngField} {enc : EncField} {dmm : DmmField} {s : State} {e : CmdError}
    (h : checkConvert rng enc dmm s = .error e) :
    EndsWith (exec (.convert rng enc dmm) s) s (BitVec.ofNat 32 (errorCode e)) :=
  exec_check_failed (by rw [planOf, h]; rfl)

theorem checkConvert_noFormat {rng : RngField} {enc : EncField} {dmm : DmmField} {s : State}
    (hd : format s (operand s 4) = none) : checkConvert rng enc dmm s = .error .formatNotFound := by
  simp [checkConvert, hd]

/-- The check of the height, for a frame of h rows: some plane's vertical subsample does not divide it. -/
theorem indivisible_iff (d : Descriptor) (h : Nat) :
    (d.planes.any fun q => decide (h % q.vs ≠ 0)) = true ↔ ∃ q ∈ d.planes, h % q.vs ≠ 0 := by
  simp

theorem not_indivisible_iff (d : Descriptor) (h : Nat) :
    ¬ (d.planes.any fun q => decide (h % q.vs ≠ 0)) = true ↔ ∀ q ∈ d.planes, h % q.vs = 0 := by
  simp

section
variable {rng : RngField} {enc : EncField} {dmm : DmmField} {s : State} {d : Descriptor}
  (hd : format s (operand s 4) = some d)
include hd

theorem checkConvert_manyPlanes (h : 1 < nplanes d ∧ operand s 7 ≠ 0) :
    checkConvert rng enc dmm s = .error .unsupportedFormat := by
  simp [checkConvert, hd, convertSource_bpl, h]

variable (hone : ¬ (1 < nplanes d ∧ operand s 7 ≠ 0))
include hone

theorem checkConvert_narrow (h : operand s 7 ≠ 0 ∧ operand s 7 < naturalStride d (operand s 5) 0) :
    checkConvert rng enc dmm s = .error .strideTooSmall := by
  simp only [checkConvert, hd]
  exact (if_neg hone).trans (if_pos h)

variable (hwide : ¬ (operand s 7 ≠ 0 ∧ operand s 7 < naturalStride d (operand s 5) 0))
include hwide

theorem checkConvert_height (h : ∃ q ∈ d.planes, operand s 6 % q.vs ≠ 0) :
    checkConvert rng enc dmm s = .error .invalidArgument := by
  simp only [checkConvert, hd]
  exact (if_neg hone).trans ((if_neg hwide).trans (if_pos ((indivisible_iff d _).2 h)))

variable (hrows : ∀ q ∈ d.planes, operand s 6 % q.vs = 0)
include hrows

/-- On a frame that passes, the checks of the buffers are next. -/
theorem checkConvert_buffers {e : CmdError} (h : checkBuffers s (convertReads (convertSource d s))
      (convertWrites (convertSource d s)) (convertSource d s) = .error e) :
    checkConvert rng enc dmm s = .error e := by
  simp only [checkConvert, hd, h]
  exact (if_neg hone).trans ((if_neg hwide).trans (if_neg ((not_indivisible_iff d _).2 hrows)))

/-- On a frame and buffers that pass, the checks of the path are left. -/
theorem checkConvert_path {e : CmdError} {p : Plan} {f : Source}
    (h : checkBuffers s (convertReads (convertSource d s)) (convertWrites (convertSource d s)) (convertSource d s)
      = .ok (p, f)) (hpath : pipelineOf d rng enc dmm = .error e) :
    checkConvert rng enc dmm s = .error e := by
  simp only [checkConvert, hd, h, hpath]
  exact (if_neg hone).trans ((if_neg hwide).trans (if_neg ((not_indivisible_iff d _).2 hrows)))

end

/-! ### The checks of the path (R122) -/

theorem rngValue_eq_none {rng : RngField} (h : rng = .reserved2 ∨ rng = .reserved3) : rngValue rng = none := by
  rcases h with rfl | rfl <;> rfl

/-- A reserved RNG or ENC has no value. -/
theorem yuvPipeline_reserved {rng : RngField} {enc : EncField} (l : YuvLayout)
    (h : rng = .reserved2 ∨ rng = .reserved3 ∨ enc = .reserved3) :
    yuvPipeline l rng enc = .error .invalidArgument := by
  rcases h with rfl | rfl | rfl
  · rfl
  · rfl
  · cases rng <;> rfl

/-- The handlers that give a (Y, Cb, Cr) triple are those of the YUV layouts. -/
theorem exists_yuvLayout {g : Handler} (h : g = .p422Yuyv ∨ g = .p422Uyvy ∨ g = .spCbcr) :
    ∃ l : YuvLayout, g = l.handler := by
  rcases h with rfl | rfl | rfl
  exacts [⟨.yuyv, rfl⟩, ⟨.uyvy, rfl⟩, ⟨.semiPlanar, rfl⟩]

theorem rawDepth_eq_none_of_packed {d : Descriptor} (hp : d.packed = true)
    (h10 : ¬ (d.bits = 10 ∧ (plane d 0).bpg = 5 ∧ (plane d 0).ppg = 4))
    (h12 : ¬ (d.bits = 12 ∧ (plane d 0).bpg = 3 ∧ (plane d 0).ppg = 2)) : rawDepth d = none := by
  rw [rawDepth, if_pos hp, if_neg h10, if_neg h12]

theorem rawDepth_eq_none_of_container {d : Descriptor} (hp : d.packed = false)
    (h8 : (plane d 0).bpg ≠ (plane d 0).ppg) (h16 : (plane d 0).bpg ≠ 2 * (plane d 0).ppg) : rawDepth d = none := by
  rw [rawDepth, hp, if_neg Bool.false_ne_true, if_neg h8, if_neg h16]

theorem rawSource_eq_none_of_depth {d : Descriptor} (h : rawDepth d = none) : rawSource d = none := by
  simp [rawSource, h]

/-- Each way in which `raw_ok(d)` fails (R122). -/
theorem rawSource_eq_none {d : Descriptor}
    (h : d.bits ∉ [8, 10, 12, 16] ∨ d.pattern = none ∨ nplanes d ≠ 1
      ∨ (d.packed = true ∧ ¬ (d.bits = 10 ∧ (plane d 0).bpg = 5 ∧ (plane d 0).ppg = 4)
          ∧ ¬ (d.bits = 12 ∧ (plane d 0).bpg = 3 ∧ (plane d 0).ppg = 2))
      ∨ (d.packed = false ∧ (plane d 0).bpg ≠ (plane d 0).ppg ∧ (plane d 0).bpg ≠ 2 * (plane d 0).ppg)) :
    rawSource d = none := by
  rcases h with hbits | hpattern | hplanes | ⟨hp, h10, h12⟩ | ⟨hp, h8, h16⟩
  · simp only [List.mem_cons, List.not_mem_nil, or_false, not_or] at hbits
    obtain ⟨h8, h10, h12, h16⟩ := hbits
    simp [rawSource, depthOf_eq_none h8 h10 h12 h16]
  · simp [rawSource, hpattern]
  · simp [rawSource, hplanes]
  · exact rawSource_eq_none_of_depth (rawDepth_eq_none_of_packed hp h10 h12)
  · exact rawSource_eq_none_of_depth (rawDepth_eq_none_of_container hp h8 h16)

section
variable {d : Descriptor} {rng : RngField} {enc : EncField} {dmm : DmmField}

theorem pipelineOf_unsupported
    (h : d.colour = .undefined ∨ d.handler = .none ∨ family d.handler ≠ some d.colour) :
    pipelineOf d rng enc dmm = .error .unsupportedFormat := by
  have hpath : d.colour = .undefined ∨ family d.handler ≠ some d.colour := by
    rcases h with hundef | hnone | hfamily
    · exact .inl hundef
    · exact .inr (by simp [hnone, family])
    · exact .inr hfamily
  rw [pipelineOf, if_pos hpath]

theorem pipelineOf_luma_reserved (hc : d.colour = .yuv) (hl : d.handler = .luma) (hr : rngValue rng = none) :
    pipelineOf d rng enc dmm = .error .invalidArgument := by
  simp [pipelineOf, hc, hl, family, hr]

theorem pipelineOf_yuvLayout {l : YuvLayout} (hc : d.colour = .yuv) (hl : d.handler = l.handler) :
    pipelineOf d rng enc dmm = yuvPipeline l rng enc := by
  cases l <;> simp [pipelineOf, hc, hl, YuvLayout.handler, family]

theorem pipelineOf_raw_noSource (hc : d.colour = .raw) (hh : d.handler = .raw) (hs : rawSource d = none) :
    pipelineOf d rng enc dmm = .error .unsupportedBitDepth := by
  simp [pipelineOf, hc, hh, family, hs]

theorem pipelineOf_raw_noMethod (hc : d.colour = .raw) (hh : d.handler = .raw) (hs : (rawSource d).isSome = true)
    (hm : dmmValue dmm = none) : pipelineOf d rng enc dmm = .error .unsupportedDemosaicMethod := by
  obtain ⟨src, hsrc⟩ := Option.isSome_iff_exists.1 hs
  simp [pipelineOf, hc, hh, family, hsrc, hm]

end

/-- Settles O50: the format and its frame, the buffers in their order, then the path and the options it reads. -/
theorem convertReportsTheFirstFailingCheck : Obligations.ConvertReportsTheFirstFailingCheck := by
  rintro s rng enc dmm o rfl
  refine ⟨fun hnone => exec_convert_failed (checkConvert_noFormat hnone), ?_⟩
  rintro d w h bpl ns nd hd rfl rfl rfl rfl rfl
  refine ⟨fun hmany => exec_convert_failed (checkConvert_manyPlanes hd hmany), fun hone =>
    ⟨fun hnarrow => exec_convert_failed (checkConvert_narrow hd hone hnarrow), fun hwide =>
    ⟨fun hrow => exec_convert_failed (checkConvert_height hd hone hwide hrow), fun hrows => ?_⟩⟩⟩
  have buffers : ∀ {e : CmdError}, checkBuffers s (convertReads (convertSource d s))
      (convertWrites (convertSource d s)) (convertSource d s) = .error e →
      EndsWith (exec (.convert rng enc dmm) s) s (BitVec.ofNat 32 (errorCode e)) := fun he =>
    exec_convert_failed (checkConvert_buffers hd hone hwide hrows he)
  refine ⟨fun hbad => buffers (checkBuffers_invalid hbad), fun hsrc hdst hns hnd =>
    ⟨fun hshort => buffers (checkBuffers_short hsrc hdst hns hnd hshort), fun hlong hlong' =>
    ⟨fun _ hr hw => buffers (checkBuffers_meet hsrc hdst hns hnd hlong hlong' hr hw), fun hapart => ?_⟩⟩⟩
  have path : ∀ {e : CmdError}, pipelineOf d rng enc dmm = .error e →
      EndsWith (exec (.convert rng enc dmm) s) s (BitVec.ofNat 32 (errorCode e)) := fun he =>
    exec_convert_failed (checkConvert_path hd hone hwide hrows
      (checkBuffers_pass hsrc hdst hns hnd hlong hlong' hapart) he)
  refine ⟨fun hbad => path (pipelineOf_unsupported hbad),
    fun hc hl hreserved => path (pipelineOf_luma_reserved hc hl (rngValue_eq_none hreserved)),
    fun hc hg hreserved => ?_, fun hc hh hraw => path (pipelineOf_raw_noSource hc hh (rawSource_eq_none hraw)),
    fun hc hh hsrc hreserved => path (pipelineOf_raw_noMethod hc hh hsrc (dmmValue_eq_none hreserved))⟩
  obtain ⟨l, hl⟩ := exists_yuvLayout hg
  exact path ((pipelineOf_yuvLayout hc hl).trans (yuvPipeline_reserved l hreserved))

end Sys2Proof.Machine
end

section
/-! SUPPORT. The two ends of a command in the engine's registers: the accepted CMD write that starts it and the
completion that ends it (spec/60_exceptions.md R128 to R133). -/

namespace Sys2Proof.Machine

/-- Settles O12: what `exec_ends` says, with the bounds of R128's codes. -/
theorem everyCompletionSucceedsOrReportsOneError : Obligations.EveryCompletionSucceedsOrReportsOneError := by
  intro i s t h
  rcases exec_ends h with hok | ⟨e, hfail⟩
  · exact .inl hok
  · obtain ⟨hpos, hle⟩ := errorCode_toNat e ▸ errorCode_pos e
    exact .inr ⟨_, hpos, hle, hfail⟩

/-! ### The start of a command that breaks no host duty (R37, R41, R130) -/

/-- A byte a command just started accesses is one its checks planned: a reserved word and a command that fails its
checks access none (R59, R133). -/
theorem planned_of_accessed {v : Word} {s : State} {a : Nat}
    (ha : inRange (accessPlan (takeDelay (begin v s))).rd a = true
      ∨ inRange (accessPlan (takeDelay (begin v s))).wr a = true) :
    ∃ i p, decode v = .ok i ∧ planOf i { s with snapA := s.args } = .ok p
      ∧ accessPlan (takeDelay (begin v s)) = p := by
  have nothing : accessPlan (takeDelay (begin v s)) ≠ Plan.none := fun hnone => by
    rw [hnone] at ha
    exact ha.elim (not_inRange_emptyRange a) (not_inRange_emptyRange a)
  cases hd : decode v with
  | error e => exact absurd (by simp [accessPlan, hd]) nothing
  | ok i =>
    have hplan : planOf i (takeDelay (begin v s)) = planOf i { s with snapA := s.args } := planOf_congr rfl rfl i
    cases hp : planOf i { s with snapA := s.args } with
    | error e => exact absurd (by simp [accessPlan, hd, hplan, hp]) nothing
    | ok p => exact ⟨i, p, rfl, hp, accessPlan_started hd hp⟩

theorem dutyViolation_none {s : State} (hu : readsUnseen s = false) (hz : touchesHazard s = false) :
    dutyViolation s = none := by
  simp [dutyViolation, hu, hz]

theorem acceptCmd_accepted {v : Word} {s : State} (h : dutyViolation (takeDelay (begin v s)) = none) :
    acceptCmd v s = .next (takeDelay (begin v s)) := by
  simp [acceptCmd, h]

/-- Settles O7: a duty broken would be at a byte the command's checks planned, so the write is accepted, and the state
it gives is read off `begin`. -/
theorem acceptedCmdWriteStartsTheCommand : Obligations.AcceptedCmdWriteStartsTheCommand := by
  intro s v x hv hi hduty
  have hunseen : readsUnseen (takeDelay (begin x s)) = false := by
    rw [← Bool.not_eq_true, readsUnseen_iff]
    rintro ⟨r, hr, a, hra, hrd⟩
    obtain ⟨i, p, hd, hp, hplan⟩ := planned_of_accessed (.inl hrd)
    have hfree := (hduty i p a hd hp).1 ⟨r, hr, hra⟩
    exact Bool.eq_false_iff.1 hfree (hplan ▸ hrd)
  have hhazard : touchesHazard (takeDelay (begin x s)) = false := by
    rw [← Bool.not_eq_true, touchesHazard_iff]
    rintro ⟨r, hr, a, hra, hpa⟩
    obtain ⟨i, p, hd, hp, hplan⟩ := planned_of_accessed hpa
    obtain ⟨hrd, hwr⟩ := (hduty i p a hd hp).2 ⟨r, hr, hra⟩
    rw [hplan] at hpa
    exact hpa.elim (Bool.eq_false_iff.1 hrd) (Bool.eq_false_iff.1 hwr)
  refine ⟨takeDelay (begin x s), ?_, ?_⟩
  · rw [hostOp_wr_cmd_idle hi, hostValue_eq hv, acceptCmd_accepted (dutyViolation_none hunseen hhazard)]
  · simp

end Sys2Proof.Machine
end

section
/-! SUPPORT. The reset input in any state (R140) and the CMD write dropped while BUSY (R142). -/

namespace Sys2Proof.Machine

/-! ### A CMD write while BUSY (R20, R142) -/

/-- A CMD write while BUSY is dropped, whatever its value (R20). -/
theorem hostOp_wr_cmd_busy {s : State} (hb : s.phase = .busy) (v : HostValue) :
    hostOp (.wr .cmd v) s = .next (dropCmd s) := by
  simp [hostOp, writeReg, hb]

/-- Settles O8: the dropped write is `dropCmd`, which sets CMDLOST alone. -/
theorem cmdWriteWhileBusyOnlySetsCmdlost : Obligations.CmdWriteWhileBusyOnlySetsCmdlost :=
  fun _ v hb => hostOp_wr_cmd_busy hb v

/-! ### What the reset input leaves of the registers and of memory (R32, R140) -/

/-- Every register R32 resets reads 0 after the reset input, whatever ENGINE was doing. -/
theorem engineReset_registers (s : State) :
    (engineReset s).phase = .idle ∧ statusWord (engineReset s) = 0 ∧ (engineReset s).errcode = 0
      ∧ (engineReset s).cmd = 0 ∧ (∀ n : Fin 8, (engineReset s).args[n] = 0)
      ∧ ∀ n : Fin 4, (engineReset s).results[n] = 0 :=
  ⟨rfl, rfl, rfl, rfl, fun n => Vector.getElem_replicate n.isLt, fun n => Vector.getElem_replicate n.isLt⟩

/-- The reset input spoils the write range of the running command, which is empty while ENGINE is IDLE (R140). -/
theorem engineReset_mem (s : State) : (engineReset s).mem = (spoil (runningPlan s).wr s).mem := by
  cases hp : s.phase with
  | idle =>
    rw [runningPlan_idle hp]
    simp [engineReset, hp, Plan.none, emptyRange, Memory.fill]
  | busy => simp [engineReset, hp]

theorem engineReset_mem_of_wr_empty {s : State} (h : (runningPlan s).wr = emptyRange) :
    (engineReset s).mem = s.mem := by
  rw [engineReset_mem, h]
  rfl

/-- A write range cut where the memory space ends: the bytes spoiled are those of the whole range that the memory space
has (R33, log entry 8). -/
theorem engineReset_spoils_clipped {s : State} {a n : Nat} (hwf : s.mem.wf = true)
    (h : (runningPlan s).wr = clipped a n) :
    OnlyWrote s (engineReset s) a n
      ∧ ∀ k, k < n → a + k < 2 ^ 32 → (engineReset s).mem.read (a + k) = Config.freeByte (s.draws + k) := by
  rw [OnlyWrote, engineReset_mem, h]
  constructor
  · intro b hb
    have hcut : ¬ (a ≤ b ∧ b < a + min n (limit32 - a)) := by omega
    exact spoil_read_outside (clipped a n) s b hcut
  · intro k hk hspace
    have hcut : k < min n (limit32 - a) := by
      simp only [limit32]
      omega
    exact spoil_read_inside (clipped a n) hwf hcut

/-! ### The write range a command's rule gives it (R36) -/

/-- The commands that write no memory (R33, R68, R79). -/
theorem rangesOf_wr_empty {i : Instr} (s : State)
    (h : i = .findName ∨ i = .findDrm ∨ i = .findV4l2 ∨ i = .fmtInfo ∨ (∃ p, i = .planeInfo p) ∨ (∃ p, i = .stride p)
      ∨ (∃ p, i = .planeSize p) ∨ i = .frameSize ∨ i = .fourccEnc) : (rangesOf i s).wr = emptyRange := by
  rcases h with rfl | rfl | rfl | rfl | ⟨p, rfl⟩ | ⟨p, rfl⟩ | ⟨p, rfl⟩ | rfl | rfl
  any_goals rfl
  -- FIND_NAME and FOURCC_ENC: their read range depends on the length given, their write range does not.
  all_goals
    rw [rangesOf]
    split <;> rfl

/-- The commands that write memory, each with the range of its rule (R80, R101, R111, R118, R121). -/
theorem rangesOf_wr_clipped {i : Instr} {s : State} {a n : Nat}
    (h : i = .fourccDec ∧ a = operand s 1 ∧ n = 4
      ∨ i = .unpack ∧ a = operand s 2 ∧ n = 2 * operand s 4 * operand s 5
      ∨ (∃ dmm, i = .demosaic dmm) ∧ a = operand s 2 ∧ n = 6 * operand s 4 * operand s 5
      ∨ (∃ rng enc, i = .csc rng enc) ∧ a = operand s 2 ∧ n = 3 * operand s 4
      ∨ (∃ rng enc dmm, i = .convert rng enc dmm) ∧ a = operand s 2 ∧ n = 3 * operand s 5 * operand s 6) :
    (rangesOf i s).wr = clipped a n := by
  rcases h with ⟨rfl, rfl, rfl⟩ | ⟨rfl, rfl, rfl⟩ | ⟨⟨dmm, rfl⟩, rfl, rfl⟩ | ⟨⟨rng, enc, rfl⟩, rfl, rfl⟩
    | ⟨⟨rng, enc, dmm, rfl⟩, rfl, rfl⟩
  all_goals rfl

/-- Settles O2: the next state is `engineReset`, and its memory follows from the write range of the running command. -/
theorem resetInputClearsRegistersAndSpoilsOnlyTheWriteRange :
    Obligations.ResetInputClearsRegistersAndSpoilsOnlyTheWriteRange := by
  intro s hwf
  obtain ⟨hphase, hstatus, herrcode, hcmd, hargs, hresults⟩ := engineReset_registers s
  refine ⟨engineReset s, rfl, hphase, hstatus, herrcode, hcmd, hargs, hresults, (engineReset_keeps s).1, ?_, ?_, ?_⟩
  · intro hidle
    exact engineReset_mem_of_wr_empty (by rw [runningPlan_idle hidle]; rfl)
  · intro e hd
    exact engineReset_mem_of_wr_empty (by rw [runningPlan_reserved hd]; rfl)
  · intro i hbusy hd
    have hplan : runningPlan s = rangesOf i s := runningPlan_busy hbusy hd
    exact ⟨fun hi => engineReset_mem_of_wr_empty (hplan ▸ rangesOf_wr_empty s hi),
      fun a n hi => engineReset_spoils_clipped hwf (hplan ▸ rangesOf_wr_clipped hi)⟩

end Sys2Proof.Machine
end
